-- ==== Sys2Proof/Word.lean ====
section
/-! DEFINITION. The word types of the core (00_scope.md R8, R9): every quantity is an unsigned bit vector. -/

namespace Sys2Proof

/-- A command word, a response word, a count, TOTAL, a node weight, META (CMD_W = CNT_W = META_W = 32, R8). -/
abbrev Word := BitVec 32

/-- A Symbol (SYM_W = 8, R8). -/
abbrev Symbol := BitVec 8

/-- A node index, a table size, a list length, a register number (IDX_W = 9, R8, R86). -/
abbrev Index := BitVec 9

/-- The BITS part of a stored bit string (R11). -/
abbrev CodeBits := BitVec 256

end Sys2Proof
end

