-- ==== Sys2Proof/Syntax.lean ====
section
/-! DEFINITION. The fourteen commands of 30_encoding.md R89, one constructor per row of spec/opcode_table.json. -/

namespace Sys2Proof

/-- A command with its operands, each the unsigned value of its field (R88). -/
inductive Instr where
  /-- NOP, format N (45_system.md R180). -/
  | nop
  /-- CLEAR, format N (45_system.md R181). -/
  | clear
  /-- RDREG r, format I: the register number is the 9-bit IDX (45_system.md R183). -/
  | rdreg (r : Index)
  /-- SYM x, format S (40_frequency.md R110). -/
  | sym (x : Symbol)
  /-- RDCNT x, format S (40_frequency.md R111). -/
  | rdcnt (x : Symbol)
  /-- BUILD, format N (41_tree_build.md R120). -/
  | build
  /-- RDNODE n, format I (41_tree_build.md R134). -/
  | rdnode (n : Index)
  /-- RDCODE x, format S (42_codebook.md R145). -/
  | rdcode (x : Symbol)
  /-- ENC x, format S (43_encoder.md R150). -/
  | enc (x : Symbol)
  /-- TBLOUT, format N (43_encoder.md R151). -/
  | tblout
  /-- LDSIZE n, format I (44_decoder.md R160). -/
  | ldsize (n : Index)
  /-- LDROW, format R: SYM, LEN, META and the 256 CODE bits of R87 (44_decoder.md R161). -/
  | ldrow (x : Symbol) (len : BitVec 8) (metaWord : Word) (code : CodeBits)
  /-- DBIT b, format B (44_decoder.md R167). -/
  | dbit (b : Bool)
  /-- DEND, format N (44_decoder.md R169). -/
  | dend
deriving DecidableEq, Repr

end Sys2Proof
end

