-- ==== Sys2Proof/WellFormed.lean ====
section
/-! DEFINITION. Which commands are legally encoded: the one operand constraint of the opcode table is RDREG's
register number (30_encoding.md R89, R93); every value of every other field is a legal encoding. -/

namespace Sys2Proof

/-- The register numbers of 10_state.md R36: 0x00 to 0x08 and 0x10 to 0x17. -/
def Index.NamesRegister (r : Index) : Bool :=
  decide (r.toNat ≤ 0x08) || (decide (0x10 ≤ r.toNat) && decide (r.toNat ≤ 0x17))

/-- A command some sequence of command words encodes (R89, R93). -/
def Instr.WellFormed : Instr → Bool
  | .rdreg r => Index.NamesRegister r
  | .nop => true
  | .clear => true
  | .sym _ => true
  | .rdcnt _ => true
  | .build => true
  | .rdnode _ => true
  | .rdcode _ => true
  | .enc _ => true
  | .tblout => true
  | .ldsize _ => true
  | .ldrow _ _ _ _ => true
  | .dbit _ => true
  | .dend => true

end Sys2Proof
end

