-- ==== Sys2Proof/Decode.lean ====
section
/-! DEFINITION. Decoding a complete command (30_encoding.md R80, R83 to R93), the encoder written from the same
formats, and the bit numbering of spec/opcode_table.json. Decoding is total on any list of words. -/

namespace Sys2Proof

/-- Why a sequence of words is no command. -/
inductive Reject where
  /-- No word at all, or not the number of words R80 gives the opcode: the assembler of R81 never hands this over. -/
  | wrongLength
  /-- The opcode is not in the table of R89 (R91). -/
  | reservedOpcode
  /-- A known opcode with a non-zero reserved bit (R92). -/
  | reservedField
  /-- RDREG of a number that names no register (R93). -/
  | reservedRegister
deriving DecidableEq, Repr

/-- The value `v` at bits [pos + n − 1 : pos] of a word of width `w`, zero elsewhere (00_scope.md R9). -/
def place {n : Nat} (w : Nat) (v : BitVec n) (pos : Nat) : BitVec w := v.setWidth w <<< pos

/-- OPC, bits [31:24] of a header word (R80). -/
def opcodeOf (h : Word) : BitVec 8 := h.extractLsb' 24 8

/-- L(OPC), the length of a command in words, a function of the opcode alone (R80). -/
def lengthOf (h : Word) : Nat := if opcodeOf h = 0x41#8 then 10 else 1

/-- The register numbers R93 admits for RDREG. -/
def isRegisterNumber (r : Index) : Bool :=
  decide (r.toNat ≤ 0x08) || (decide (0x10 ≤ r.toNat) && decide (r.toNat ≤ 0x17))

/-- Format N (R83): bits [23:0] are zero. -/
def decodeN (h : Word) (i : Instr) : Except Reject Instr :=
  if h.extractLsb' 0 24 = 0#24 then .ok i else .error .reservedField

/-- Format S (R84): bits [23:8] are zero, SYM is bits [7:0]. -/
def decodeS (h : Word) (mk : Symbol → Instr) : Except Reject Instr :=
  if h.extractLsb' 8 16 = 0#16 then .ok (mk (h.extractLsb' 0 8)) else .error .reservedField

/-- Format B (R85): bits [23:1] are zero, BIT is bit 0. -/
def decodeB (h : Word) (mk : Bool → Instr) : Except Reject Instr :=
  if h.extractLsb' 1 23 = 0#23 then .ok (mk (h.getLsbD 0)) else .error .reservedField

/-- Format I (R86): bits [23:9] are zero, IDX is bits [8:0]. -/
def decodeI (h : Word) (mk : Index → Instr) : Except Reject Instr :=
  if h.extractLsb' 9 15 = 0#15 then .ok (mk (h.extractLsb' 0 9)) else .error .reservedField

/-- CODE = {CW[9], ..., CW[2]} (R88). -/
def codeOfWords (c0 c1 c2 c3 c4 c5 c6 c7 : Word) : CodeBits :=
  place 256 c0 0 ||| place 256 c1 32 ||| place 256 c2 64 ||| place 256 c3 96 ||| place 256 c4 128 |||
    place 256 c5 160 ||| place 256 c6 192 ||| place 256 c7 224

/-- Format R (R87): header bits [15:8] are zero, LEN is [23:16], SYM is [7:0], then META and eight CODE words. -/
def decodeR (h : Word) (data : List Word) : Except Reject Instr :=
  match data with
  | [m, c0, c1, c2, c3, c4, c5, c6, c7] =>
    if h.extractLsb' 8 8 = 0#8 then
      .ok (.ldrow (h.extractLsb' 0 8) (h.extractLsb' 16 8) m (codeOfWords c0 c1 c2 c3 c4 c5 c6 c7))
    else .error .reservedField
  | _ => .error .wrongLength

/-- A one-word command: the opcode map of R89 for every opcode but LDROW's. -/
def decodeHeader (h : Word) : Except Reject Instr :=
  if opcodeOf h = 0x00#8 then decodeN h .nop
  else if opcodeOf h = 0x01#8 then decodeN h .clear
  else if opcodeOf h = 0x02#8 then
    match decodeI h .rdreg with
    | .ok i => if isRegisterNumber (h.extractLsb' 0 9) then .ok i else .error .reservedRegister
    | .error e => .error e
  else if opcodeOf h = 0x10#8 then decodeS h .sym
  else if opcodeOf h = 0x11#8 then decodeS h .rdcnt
  else if opcodeOf h = 0x20#8 then decodeN h .build
  else if opcodeOf h = 0x21#8 then decodeI h .rdnode
  else if opcodeOf h = 0x28#8 then decodeS h .rdcode
  else if opcodeOf h = 0x30#8 then decodeS h .enc
  else if opcodeOf h = 0x31#8 then decodeN h .tblout
  else if opcodeOf h = 0x40#8 then decodeI h .ldsize
  else if opcodeOf h = 0x48#8 then decodeB h .dbit
  else if opcodeOf h = 0x49#8 then decodeN h .dend
  else .error .reservedOpcode

/-- The command the words of a complete command encode (R90 step 1), or why they encode none. -/
def decode (ws : List Word) : Except Reject Instr :=
  match ws with
  | [] => .error .wrongLength
  | h :: data =>
    if opcodeOf h = 0x41#8 then decodeR h data
    else
      match data with
      | [] => decodeHeader h
      | _ :: _ => .error .wrongLength

/-- The opcode of a command (R89). -/
def opcode : Instr → BitVec 8
  | .nop => 0x00#8
  | .clear => 0x01#8
  | .rdreg _ => 0x02#8
  | .sym _ => 0x10#8
  | .rdcnt _ => 0x11#8
  | .build => 0x20#8
  | .rdnode _ => 0x21#8
  | .rdcode _ => 0x28#8
  | .enc _ => 0x30#8
  | .tblout => 0x31#8
  | .ldsize _ => 0x40#8
  | .ldrow _ _ _ _ => 0x41#8
  | .dbit _ => 0x48#8
  | .dend => 0x49#8

/-- Word k of a 256-bit value: bits [32k+31 : 32k] (20_memory.md R64). -/
def codeWord (bits : CodeBits) (k : Nat) : Word := bits.extractLsb' (32 * k) 32

/-- The eight words that carry a 256-bit value, word 0 first (R64). -/
def codeWords (bits : CodeBits) : List Word := (List.range 8).map (codeWord bits)

/-- A header of format N (R83). -/
def headerN (opc : BitVec 8) : Word := place 32 opc 24

/-- A header of format S (R84). -/
def headerS (opc : BitVec 8) (x : Symbol) : Word := place 32 opc 24 ||| place 32 x 0

/-- A header of format B (R85). -/
def headerB (opc : BitVec 8) (b : Bool) : Word := place 32 opc 24 ||| place 32 (BitVec.ofBool b) 0

/-- A header of format I (R86). -/
def headerI (opc : BitVec 8) (n : Index) : Word := place 32 opc 24 ||| place 32 n 0

/-- A header of format R (R87). -/
def headerR (opc : BitVec 8) (len : BitVec 8) (x : Symbol) : Word :=
  place 32 opc 24 ||| place 32 len 16 ||| place 32 x 0

/-- The words of a command, word 0 first (R83 to R89). -/
def encode : Instr → List Word
  | .nop => [headerN 0x00#8]
  | .clear => [headerN 0x01#8]
  | .rdreg r => [headerI 0x02#8 r]
  | .sym x => [headerS 0x10#8 x]
  | .rdcnt x => [headerS 0x11#8 x]
  | .build => [headerN 0x20#8]
  | .rdnode n => [headerI 0x21#8 n]
  | .rdcode x => [headerS 0x28#8 x]
  | .enc x => [headerS 0x30#8 x]
  | .tblout => [headerN 0x31#8]
  | .ldsize n => [headerI 0x40#8 n]
  | .ldrow x len m code => headerR 0x41#8 len x :: m :: codeWords code
  | .dbit b => [headerB 0x48#8 b]
  | .dend => [headerN 0x49#8]

/-- The words of a command given as one number whose bit 0 is the least significant bit of the first word, a later
word's bits counting on from it, every bit at or above `nbits` zero. The first word's opcode says how many there are. -/
def tableWords (nbits w : Nat) : List Word :=
  let v := w % 2 ^ nbits
  (List.range (lengthOf (BitVec.ofNat 32 v))).map fun k => BitVec.ofNat 32 (v >>> (32 * k))

/-- What the decoder reads from an instruction numbered as spec/opcode_table.json numbers its bits. -/
def decodeTableWord (nbits w : Nat) : Option Instr :=
  match decode (tableWords nbits w) with
  | .ok i => some i
  | .error _ => none

end Sys2Proof
end

