-- ==== Sys2Proof/Config.lean ====
section
/-! DEFINITION. The parameters of 00_scope.md R8. All are constants of this hardware, none is left open:
the spec's one open parameter, P_FMT_PROB, belongs to the host and is an argument of Machine/TextLayout.lean. -/

namespace Sys2Proof.Config

/-- NSYM, the alphabet size (R8). -/
def nsym : Nat := 256

/-- CNT_MAX, the largest count and the largest TOTAL (R8). -/
def cntMax : Word := 0xFFFFFFFF#32

/-- CODE_MAX, the largest codeword length and the capacity of BUF (R8, R35). -/
def codeMax : BitVec 8 := 255#8

/-- NODE_N, the number of entries of the node memory (R8). -/
def nodeN : Nat := 511

/-- NIL, the null node index (R8). -/
def nil : Index := 0x1FF#9

/-- The number of words CW holds (10_state.md R44). -/
def cwWords : Nat := 10

end Sys2Proof.Config
end

