-- ==== Sys2Proof/Machine/State.lean ====
section
/-! DEFINITION. Everything 10_state.md R20 gives the core, as plain data, and the state after reset (R47). -/

namespace Sys2Proof.Machine

/-- A stored bit string (00_scope.md R11): sequence position i is bit i of BITS, and BITS is zero at and above LEN. -/
structure BitString where
  len : BitVec 8
  bits : CodeBits
deriving DecidableEq, Repr

/-- The empty bit string "" (R10, R11). -/
def BitString.empty : BitString := ⟨0#8, 0#256⟩

/-- The five values of STATE; the values 4, 5 and 6 are not representable (10_state.md R24, 93 U18). -/
inductive Phase where
  | idle
  | count
  | load
  | ready
  | err
deriving DecidableEq, Repr

/-- The thirteen errors of 60_exceptions.md R190 and no other. -/
inductive ErrorKind where
  /-- E_EMPTY: BUILD with nothing counted. -/
  | empty
  /-- E_SINGLE: BUILD over one distinct symbol. -/
  | single
  /-- E_CNTOVF: SYM with TOTAL = CNT_MAX. -/
  | cntovf
  /-- E_NOTABLE: DBIT or DEND without a complete code book. -/
  | notable
  /-- E_TSIZE: LDSIZE of 0 or more than 256. -/
  | tsize
  /-- E_BADROW: LDROW with LEN = 0 or a CODE bit at or above LEN. -/
  | badrow
  /-- E_DUPSYM: LDROW of a symbol that has a row. -/
  | dupsym
  /-- E_COLLIDE: LDROW of a codeword prefix-related to a loaded one. -/
  | collide
  /-- E_TRUNC: DEND with bits in BUF. -/
  | trunc
  /-- E_BUFOVF: DBIT with 255 bits in BUF. -/
  | bufovf
  /-- E_NOCODE: ENC of a symbol without a codeword. -/
  | nocode
  /-- E_ILLCMD: an illegal encoding. -/
  | illcmd
  /-- E_SEQ: a command the phase forbids. -/
  | seq
deriving DecidableEq, Repr

/-- The fields of the ERR register (10_state.md R30); bits [15:14] are not stored, they read 0. -/
structure ErrReg where
  info : BitVec 16
  cls : BitVec 3
  errPhase : BitVec 3
  code : BitVec 8
deriving DecidableEq, Repr

/-- ERR with every field 0 (R30, R47). -/
def ErrReg.none : ErrReg := ⟨0#16, 0#3, 0#3, 0#8⟩

/-- An entry of TBL (10_state.md R39). -/
structure Row where
  sym : Symbol
  metaWord : Word
deriving DecidableEq, Repr

/-- What an unlisted entry of TBL reads as (DESIGN CHOICE, log entry 1). -/
def Row.zero : Row := ⟨0#8, 0#32⟩

/-- An entry of NODE (10_state.md R40). -/
structure Node where
  leaf : Bool
  sym : Symbol
  w : Word
  left : Index
  right : Index
  lbit : Bool
  rbit : Bool
deriving DecidableEq, Repr

/-- What an unlisted entry of NODE reads as (DESIGN CHOICE, log entry 1). -/
def Node.zero : Node := ⟨false, 0#8, 0#32, 0#9, 0#9, false, false⟩

/-- An entry of CB (10_state.md R42): VALID, and LEN and BITS as one stored bit string. -/
structure Code where
  valid : Bool
  word : BitString
deriving DecidableEq, Repr

/-- What an unlisted entry of CB reads as: VALID = 0 is R47's; the rest is a DESIGN CHOICE, log entry 1. -/
def Code.zero : Code := ⟨false, BitString.empty⟩

/-- A table memory (20_memory.md R60): (index, entry) pairs in one canonical form, indices strictly rising and no entry
equal to what an unlisted index reads as. -/
abbrev Table (α : Type) := List (Nat × α)

/-- What the outside presents to the core: a word on the command port (20_memory.md R69) or the reset input
(70_reset_and_hazards.md R220). -/
inductive PortEvent where
  | word (w : Word)
  | reset
deriving DecidableEq, Repr

/-- The counters whose range the spec bounds below their width's (10_state.md R32, R44). -/
inductive Counter where
  | nseen
  | tsize
  | nrow
  | cwn
deriving DecidableEq, Repr

/-- Why the model stops where the spec gives no next state. -/
inductive Fault where
  /-- Raised by SYM, BUILD, TBLOUT, LDROW and the command assembler when the named counter lies outside the range R32 or
  R44 gives it, so that the access that follows would index an entry the memory does not have (20_memory.md R60, R61).
  SAFE: R46 and R61 say no command sequence reaches such a state; log entry 2. -/
  | counterOutOfRange (c : Counter)
deriving DecidableEq, Repr

/-- Why an instruction has no meaning in this model. -/
inductive Refusal where
  /-- Raised by exec's arm of an instruction not modelled yet. SAFE: the run stops. No arm raises it. -/
  | notModelled (mnemonic : String)
deriving DecidableEq, Repr

/-- A cell of the legality matrix of 60_exceptions.md R212. -/
inductive Legality where
  /-- "ok": the command executes its own rule. -/
  | ok
  /-- An error name: the command raises it and does nothing else. -/
  | error (e : ErrorKind)
  /-- "drop": the command is discarded (R198). -/
  | drop
deriving DecidableEq, Repr

/-- The complete state of the core (10_state.md R20) and, last, the port events not yet taken. STATUS and the err line
are views of these fields (Machine/Flags.lean), as R23 and R45 define them. -/
structure State where
  /-- STATE, 3 bits (R24). -/
  phase : Phase
  /-- CB_VALID (R25). -/
  cbValid : Bool
  /-- TREE_VALID (R26). -/
  treeValid : Bool
  /-- SRC: false = by BUILD, true = by LDSIZE and LDROW (R27). -/
  src : Bool
  /-- PSTATE, 3 bits (R29). -/
  pstate : Phase
  /-- ERR, 32 bits (R30). -/
  err : ErrReg
  /-- TOTAL, 32 bits (R31). -/
  total : Word
  /-- TSIZE, 9 bits (R32). -/
  tsize : Index
  /-- NSEEN, 9 bits (R32). -/
  nseen : Index
  /-- NROW, 9 bits (R32). -/
  nrow : Index
  /-- NNODE, 9 bits (R33). -/
  nnode : Index
  /-- NTOP, 9 bits (R33). -/
  ntop : Index
  /-- ROOT, 9 bits (R33). -/
  root : Index
  /-- ACC, 8 + 256 bits (R34). -/
  acc : BitString
  /-- BUF, 8 + 256 bits (R35). -/
  buf : BitString
  /-- CNT, 256 entries of 32 bits (R37). -/
  cnt : Table Word
  /-- FSEEN, 256 entries of 8 bits (R38). -/
  fseen : Table Symbol
  /-- TBL, 256 entries (R39). -/
  tbl : Table Row
  /-- NODE, 511 entries (R40). -/
  node : Table Node
  /-- TOPS, 256 entries of 9 bits (R41). -/
  tops : Table Index
  /-- CB, 256 entries (R42). -/
  cb : Table Code
  /-- CW, ten words of 32 bits (R44). -/
  cw : Table Word
  /-- CWN, 0 to 9 (R44). -/
  cwn : Fin 10
  /-- RSP, oldest word first (R43, R66). -/
  rsp : List Word
  /-- BOUT, oldest bit first (R43, R67). -/
  bout : List Bool
  /-- SOUT, oldest symbol first (R43, R68). -/
  sout : List Symbol
  /-- The command port and the reset input, next event first: an input, not the core's state (R48, R69); log entry 3. -/
  port : List PortEvent
deriving DecidableEq, Repr

/-- The state after reset (10_state.md R47); the contents R47 leaves unspecified are zero (log entry 1). -/
def State.reset : State where
  phase := .idle
  cbValid := false
  treeValid := false
  src := false
  pstate := .idle
  err := ErrReg.none
  total := 0#32
  tsize := 0#9
  nseen := 0#9
  nrow := 0#9
  nnode := 0#9
  ntop := 0#9
  root := Config.nil
  acc := BitString.empty
  buf := BitString.empty
  cnt := []
  fseen := []
  tbl := []
  node := []
  tops := []
  cb := []
  cw := []
  cwn := 0
  rsp := []
  bout := []
  sout := []
  port := []

end Sys2Proof.Machine
end

