-- ==== Sys2Proof/Machine/BitStrings.lean ====
section
/-! DEFINITION. The operations on stored bit strings (00_scope.md R10, R11): append, pop, prefix. -/

namespace Sys2Proof.Machine

/-- `v` with bit `i` set to `b`. -/
def setBit (v : CodeBits) (i : Nat) (b : Bool) : CodeBits :=
  (v &&& ~~~(1#256 <<< i)) ||| (if b then 1#256 <<< i else 0#256)

/-- c ++ b: the bit goes to sequence position len(c) (R10, R11). -/
def BitString.snoc (c : BitString) (b : Bool) : BitString :=
  ⟨c.len + 1#8, setBit c.bits c.len.toNat b⟩

/-- pop(c): the last bit is removed and its position cleared (R10, 42_codebook.md R141); "" stays "". -/
def BitString.pop (c : BitString) : BitString :=
  if c.len = 0#8 then c else ⟨c.len - 1#8, setBit c.bits (c.len.toNat - 1) false⟩

/-- c[i] (R10). -/
def BitString.bit (c : BitString) (i : Nat) : Bool := c.bits.getLsbD i

/-- The sequence of bits c[0], ..., c[len(c) − 1] (R10). -/
def BitString.toList (c : BitString) : List Bool := (List.range c.len.toNat).map c.bit

/-- c is a prefix of d (R10). -/
def BitString.isPrefixOf (c d : BitString) : Bool :=
  decide (c.len ≤ d.len) && (List.range c.len.toNat).all fun i => c.bit i == d.bit i

/-- One of the two is a prefix of the other (R10). -/
def BitString.prefixRelated (c d : BitString) : Bool := c.isPrefixOf d || d.isPrefixOf c

/-- CODE has a bit set at or above LEN (44_decoder.md R162 check 2). -/
def hasStrayBits (len : BitVec 8) (code : CodeBits) : Bool :=
  (List.range 256).any fun i => decide (len.toNat ≤ i) && code.getLsbD i

/-- The stored form of R11: every bit of BITS at or above LEN is zero. -/
def BitString.stored (c : BitString) : Bool := !hasStrayBits c.len c.bits

end Sys2Proof.Machine
end

