-- ==== Sys2Proof/Machine/Flags.lean ====
section
/-! DEFINITION. The status word, the error word and the err line: the numbers of phases, classes and codes
(10_state.md R23 to R30, R45; 60_exceptions.md R190 to R192). -/

namespace Sys2Proof.Machine

/-- The value of STATE (and of PSTATE) for a phase (10_state.md R24). -/
def Phase.number : Phase → BitVec 3
  | .idle => 0#3
  | .count => 1#3
  | .load => 2#3
  | .ready => 3#3
  | .err => 7#3

/-- CODE of an error (60_exceptions.md R190). -/
def ErrorKind.code : ErrorKind → BitVec 8
  | .empty => 0x01#8
  | .single => 0x02#8
  | .cntovf => 0x03#8
  | .notable => 0x04#8
  | .tsize => 0x10#8
  | .badrow => 0x11#8
  | .dupsym => 0x12#8
  | .collide => 0x13#8
  | .trunc => 0x14#8
  | .bufovf => 0x15#8
  | .nocode => 0x20#8
  | .illcmd => 0x30#8
  | .seq => 0x31#8

/-- CLASS of an error: 1 PreconditionError, 2 FormatError, 3 InternalInvariantError, 4 ProtocolError (R190, R191). -/
def ErrorKind.cls : ErrorKind → BitVec 3
  | .empty => 1#3
  | .single => 1#3
  | .cntovf => 1#3
  | .notable => 1#3
  | .tsize => 2#3
  | .badrow => 2#3
  | .dupsym => 2#3
  | .collide => 2#3
  | .trunc => 2#3
  | .bufovf => 2#3
  | .nocode => 3#3
  | .illcmd => 4#3
  | .seq => 4#3

/-- PHASE of an error: 1 counting, 2 tree build, 3 table parse, 4 bit match, 5 encode, 6 command decode (R190, R192). -/
def ErrorKind.errPhase : ErrorKind → BitVec 3
  | .empty => 1#3
  | .single => 2#3
  | .cntovf => 1#3
  | .notable => 3#3
  | .tsize => 3#3
  | .badrow => 3#3
  | .dupsym => 3#3
  | .collide => 3#3
  | .trunc => 4#3
  | .bufovf => 4#3
  | .nocode => 5#3
  | .illcmd => 6#3
  | .seq => 6#3

/-- The record error entry writes (60_exceptions.md R196). -/
def errRecord (e : ErrorKind) (info : BitVec 16) : ErrReg := ⟨info, e.cls, e.errPhase, e.code⟩

/-- ERR read as a word: INFO [31:16], CLASS [13:11], PHASE [10:8], CODE [7:0], bits [15:14] zero (10_state.md R30). -/
def ErrReg.toWord (r : ErrReg) : Word :=
  place 32 r.info 16 ||| place 32 r.cls 11 ||| place 32 r.errPhase 8 ||| place 32 r.code 0

/-- BUFLEN = len(BUF) (10_state.md R28). -/
def State.bufLen (s : State) : BitVec 8 := s.buf.len

/-- BUF_NE = 1 when len(BUF) ≠ 0 (10_state.md R28). -/
def State.bufNe (s : State) : Bool := !decide (s.buf.len = 0#8)

/-- STATUS: PSTATE [27:25], TSIZE [24:16], BUFLEN [15:8], BUF_NE [6], SRC [5], TREE_VALID [4], CB_VALID [3], STATE [2:0],
bits [31:28] and [7] zero (10_state.md R23). -/
def State.status (s : State) : Word :=
  place 32 s.pstate.number 25 ||| place 32 s.tsize 16 ||| place 32 s.bufLen 8 ||| place 32 (BitVec.ofBool s.bufNe) 6 |||
    place 32 (BitVec.ofBool s.src) 5 ||| place 32 (BitVec.ofBool s.treeValid) 4 |||
    place 32 (BitVec.ofBool s.cbValid) 3 ||| place 32 s.phase.number 0

/-- The err output line: 1 exactly when STATE = ERR (10_state.md R45, 60_exceptions.md R195). -/
def State.errLine (s : State) : Bool := decide (s.phase = .err)

end Sys2Proof.Machine
end

