-- ==== Sys2Proof/Machine/Ops.lean ====
section
/-! DEFINITION. The shared operations: one entry of one table memory read or written (20_memory.md R63), the three
streams (00_scope.md R12), error entry (60_exceptions.md R196) and its return (R199), the legality matrix (R212). -/

namespace Sys2Proof.Machine

/-! ### Table memories -/

/-- The entry at index `i`, `d` where none is listed. -/
def Table.read {α : Type} (d : α) (t : Table α) (i : Nat) : α :=
  match t with
  | [] => d
  | (k, a) :: rest => if k = i then a else Table.read d rest i

/-- `t` without the entries of index `i`. -/
def Table.erase {α : Type} (t : Table α) (i : Nat) : Table α := t.filter fun p => !decide (p.1 = i)

/-- `t` with the entry (i, a) before the first entry of a greater index. -/
def Table.insert {α : Type} (t : Table α) (i : Nat) (a : α) : Table α :=
  match t with
  | [] => [(i, a)]
  | p :: rest => if i < p.1 then (i, a) :: p :: rest else p :: Table.insert rest i a

/-- One whole entry written (R63); writing `d`, what an unlisted entry reads as, removes the entry. -/
def Table.write {α : Type} [DecidableEq α] (d : α) (t : Table α) (i : Nat) (a : α) : Table α :=
  if a = d then Table.erase t i else Table.insert (Table.erase t i) i a

/-- The entries from index `i` on written in order. -/
def Table.writeList {α : Type} [DecidableEq α] (d : α) (t : Table α) (i : Nat) : List α → Table α
  | [] => t
  | a :: rest => Table.writeList d (Table.write d t i a) (i + 1) rest

/-- CNT[x] (10_state.md R37). -/
def State.cntAt (s : State) (x : Symbol) : Word := Table.read 0#32 s.cnt x.toNat

/-- FSEEN[j] (10_state.md R38). -/
def State.fseenAt (s : State) (j : Nat) : Symbol := Table.read 0#8 s.fseen j

/-- TBL[i] (10_state.md R39). -/
def State.tblAt (s : State) (i : Nat) : Row := Table.read Row.zero s.tbl i

/-- NODE[n] (10_state.md R40). -/
def State.nodeAt (s : State) (n : Nat) : Node := Table.read Node.zero s.node n

/-- TOPS[j] (10_state.md R41). -/
def State.topsAt (s : State) (j : Nat) : Index := Table.read 0#9 s.tops j

/-- CB[x] (10_state.md R42). -/
def State.cbAt (s : State) (x : Symbol) : Code := Table.read Code.zero s.cb x.toNat

/-- CW[k] (10_state.md R44). -/
def State.cwAt (s : State) (k : Nat) : Word := Table.read 0#32 s.cw k

/-- VALID <- 0 in every entry of CB; LEN and BITS stay (42_codebook.md R140, 45_system.md R181). -/
def invalidateAll (cb : Table Code) : Table Code :=
  cb.foldl (fun t p => Table.write Code.zero t p.1 { Table.read Code.zero t p.1 with valid := false }) cb

/-- The 256 symbols in rising order. -/
def allSymbols : List Symbol := (List.range Config.nsym).map (BitVec.ofNat 8)

/-- The least symbol with a property (44_decoder.md R162, R168). -/
def leastSymbol (p : Symbol → Bool) : Option Symbol := allSymbols.find? p

/-! ### Streams -/

/-- emit RSP(w) for each word of a record, in order (R12, 20_memory.md R66). -/
def State.emitRsp (s : State) (ws : List Word) : State := { s with rsp := s.rsp ++ ws }

/-- emit BOUT(b) for each bit, in order (R12, 20_memory.md R67). -/
def State.emitBout (s : State) (bs : List Bool) : State := { s with bout := s.bout ++ bs }

/-- emit SOUT(x) (R12, 20_memory.md R68). -/
def State.emitSout (s : State) (x : Symbol) : State := { s with sout := s.sout ++ [x] }

/-! ### Error entry and return -/

/-- Error entry, the whole of it (60_exceptions.md R196). -/
def State.raise (s : State) (e : ErrorKind) (info : BitVec 16) : State :=
  { s with pstate := s.phase, err := errRecord e info, phase := .err }

/-- CLEAR, the only command that leaves ERR: it restores nothing that error entry saved (45_system.md R181,
60_exceptions.md R199). -/
def State.clearSession (s : State) : State :=
  { s with
    phase := .idle, cbValid := false, treeValid := false, src := false, pstate := .idle, err := ErrReg.none
    total := 0#32, tsize := 0#9, nseen := 0#9, nrow := 0#9, nnode := 0#9, ntop := 0#9, root := Config.nil
    acc := BitString.empty, buf := BitString.empty, cnt := [], cb := invalidateAll s.cb }

/-- What an illegal encoding does: discarded in ERR, else E_ILLCMD with bits [31:16] of the header (30_encoding.md R90
steps 2 and 3). -/
def illegalCommand (info : BitVec 16) (s : State) : Host.Outcome State Fault Refusal :=
  match s.phase with
  | .err => .next s
  | _ => .next (s.raise .illcmd info)

/-! ### Legality of a command in a phase -/

/-- One row of the matrix of R212, the cells in the order of its columns. -/
def legalityRow (idle count load ready err : Legality) : Phase → Legality
  | .idle => idle
  | .count => count
  | .load => load
  | .ready => ready
  | .err => err

/-- The legality matrix of 60_exceptions.md R212. -/
def legality : Instr → Phase → Legality
  | .nop => legalityRow .ok .ok .ok .ok .ok
  | .clear => legalityRow .ok .ok .ok .ok .ok
  | .rdreg _ => legalityRow .ok .ok .ok .ok .ok
  | .rdcnt _ => legalityRow .ok .ok .ok .ok .ok
  | .rdnode _ => legalityRow .ok .ok .ok .ok .ok
  | .rdcode _ => legalityRow .ok .ok .ok .ok .ok
  | .sym _ => legalityRow .ok .ok (.error .seq) (.error .seq) .drop
  | .build => legalityRow (.error .empty) .ok (.error .seq) (.error .seq) .drop
  | .enc _ => legalityRow (.error .seq) (.error .seq) (.error .seq) .ok .drop
  | .tblout => legalityRow (.error .seq) (.error .seq) (.error .seq) .ok .drop
  | .ldsize _ => legalityRow .ok (.error .seq) (.error .seq) (.error .seq) .drop
  | .ldrow _ _ _ _ => legalityRow (.error .seq) (.error .seq) .ok (.error .seq) .drop
  | .dbit _ => legalityRow (.error .notable) (.error .notable) (.error .notable) .ok .drop
  | .dend => legalityRow (.error .notable) (.error .notable) (.error .notable) .ok .drop

/-- INFO of a phase error: the opcode and the phase for E_SEQ, the opcode for E_NOTABLE, 0 for E_EMPTY (R190, R212). -/
def phaseErrorInfo (e : ErrorKind) (opc : BitVec 8) (p : Phase) : BitVec 16 :=
  match e with
  | .seq => place 16 opc 8 ||| place 16 p.number 0
  | .notable => opc.setWidth 16
  | _ => 0#16

/-- Steps 2, 4 and 5 of the dispatch of 30_encoding.md R90 for a legally encoded command: discarded, the phase's error,
or the command's own rule. -/
def gate (i : Instr) (s : State) (rule : State → Host.Outcome State Fault Refusal) :
    Host.Outcome State Fault Refusal :=
  match legality i s.phase with
  | .ok => rule s
  | .error e => .next (s.raise e (phaseErrorInfo e (opcode i) s.phase))
  | .drop => .next s

end Sys2Proof.Machine
end

