-- ==== Sys2Proof/Machine/Operands.lean ====
section
/-! DEFINITION. What an operand names: the register a number names (10_state.md R36), the record of a node, of a
codeword and of a table row (30_encoding.md R95), the codeword of an LDROW (R88). -/

namespace Sys2Proof.Machine

/-- INFO with `hi` in [15:8] and `lo` in [7:0] (60_exceptions.md R190). -/
def infoPair (hi lo : BitVec 8) : BitVec 16 := place 16 hi 8 ||| place 16 lo 0

/-- BUFWk = BUF.BITS[32k+31 : 32k] (10_state.md R35). -/
def State.bufWord (s : State) (k : Nat) : Word := codeWord s.buf.bits k

/-- The value of register `r`, zero-extended; `none` for a reserved number (10_state.md R36, 45_system.md R183). -/
def State.readRegister (s : State) (r : Index) : Option Word :=
  match r.toNat with
  | 0x00 => some s.status
  | 0x01 => some s.err.toWord
  | 0x02 => some s.total
  | 0x03 => some (s.tsize.setWidth 32)
  | 0x04 => some (s.nseen.setWidth 32)
  | 0x05 => some (s.nrow.setWidth 32)
  | 0x06 => some (s.nnode.setWidth 32)
  | 0x07 => some (s.ntop.setWidth 32)
  | 0x08 => some (s.root.setWidth 32)
  | 0x10 => some (s.bufWord 0)
  | 0x11 => some (s.bufWord 1)
  | 0x12 => some (s.bufWord 2)
  | 0x13 => some (s.bufWord 3)
  | 0x14 => some (s.bufWord 4)
  | 0x15 => some (s.bufWord 5)
  | 0x16 => some (s.bufWord 6)
  | 0x17 => some (s.bufWord 7)
  | _ => none

/-- The three words that show node `n` (41_tree_build.md R134). -/
def nodeRecord (n : Node) : List Word :=
  [place 32 1#1 31 ||| place 32 (BitVec.ofBool n.leaf) 30 ||| place 32 (BitVec.ofBool n.lbit) 29 |||
     place 32 (BitVec.ofBool n.rbit) 28 ||| place 32 n.sym 0,
   n.w,
   place 32 n.right 16 ||| place 32 n.left 0]

/-- The three words RDNODE i appends: all zero where there is no node (41_tree_build.md R134). -/
def State.nodeWords (s : State) (n : Index) : List Word :=
  if s.treeValid && decide (n < s.nnode) then nodeRecord (s.nodeAt n.toNat) else [0#32, 0#32, 0#32]

/-- The nine words RDCODE x appends: V, LEN and SYM, then BITS; an entry with VALID = 0 shows only SYM (42_codebook.md
R145). -/
def State.codeRecord (s : State) (x : Symbol) : List Word :=
  let c := s.cbAt x
  if c.valid then (place 32 1#1 31 ||| place 32 c.word.len 16 ||| place 32 x 0) :: codeWords c.word.bits
  else place 32 x 0 :: List.replicate 8 0#32

/-- The ten words TBLOUT appends for table row `i` (43_encoder.md R151). -/
def State.rowRecord (s : State) (i : Nat) : List Word :=
  let r := s.tblAt i
  let c := s.cbAt r.sym
  (0x41000000#32 ||| place 32 c.word.len 16 ||| place 32 r.sym 0) :: r.metaWord :: codeWords c.word.bits

/-- The record TBLOUT appends: an LDSIZE word, then ten words a row (43_encoder.md R151). -/
def State.tableRecord (s : State) : List Word :=
  (0x40000000#32 ||| place 32 s.tsize 0) :: (List.range s.tsize.toNat).flatMap s.rowRecord

/-- The codeword of an LDROW as it is stored: LEN and CODE (30_encoding.md R88, 44_decoder.md R161). -/
def rowCodeword (len : BitVec 8) (code : CodeBits) : BitString := ⟨len, code⟩

/-- The symbol whose codeword is exactly the bit string `c` (44_decoder.md R167, R168). -/
def State.matchSymbol (s : State) (c : BitString) : Option Symbol :=
  leastSymbol fun x => (s.cbAt x).valid && decide ((s.cbAt x).word.len = c.len) && decide ((s.cbAt x).word.bits = c.bits)

/-- The least symbol whose valid codeword is prefix-related to `c` (44_decoder.md R162 check 4). -/
def State.collidingSymbol (s : State) (c : BitString) : Option Symbol :=
  leastSymbol fun x => (s.cbAt x).valid && (s.cbAt x).word.prefixRelated c

end Sys2Proof.Machine
end

