-- ==== Sys2Proof/Machine/Tree.lean ====
section
/-! DEFINITION. The HuffmanTree unit: the sort, the seed and the merge inside BUILD, and RDNODE (41_tree_build.md). -/

namespace Sys2Proof.Machine

/-- The j'-th symbol in first-occurrence order comes before the j-th in the sorted table: a greater count, or the same
count and seen earlier (41_tree_build.md R122). -/
def State.outranks (s : State) (j' j : Nat) : Bool :=
  decide (s.cntAt (s.fseenAt j) < s.cntAt (s.fseenAt j')) ||
    (decide (s.cntAt (s.fseenAt j') = s.cntAt (s.fseenAt j)) && decide (j' < j))

/-- rank(FSEEN[j]) among the first `k` symbols seen (41_tree_build.md R122). -/
def State.rank (s : State) (k j : Nat) : Nat := (List.range k).countP fun j' => s.outranks j' j

/-- The sort: row rank(s) is (s, CNT[s]) for each of the `k` counted symbols (41_tree_build.md R122). -/
def State.sortTable (k : Nat) (s : State) : State :=
  { s with
    tbl := (List.range k).foldl
      (fun t j => Table.write Row.zero t (s.rank k j) ⟨s.fseenAt j, s.cntAt (s.fseenAt j)⟩) s.tbl
    tsize := BitVec.ofNat 9 k
    nrow := BitVec.ofNat 9 k }

/-- The leaf of a table row (41_tree_build.md R124). -/
def leafOf (r : Row) : Node := ⟨true, r.sym, r.metaWord, Config.nil, Config.nil, false, false⟩

/-- The seed: one leaf a row, in table order (41_tree_build.md R124). -/
def State.seedTree (k : Nat) (s : State) : State :=
  { s with
    node := Table.writeList Node.zero s.node 0 ((List.range k).map fun i => leafOf (s.tblAt i))
    tops := Table.writeList 0#9 s.tops 0 ((List.range k).map (BitVec.ofNat 9))
    nnode := BitVec.ofNat 9 k
    ntop := BitVec.ofNat 9 k }

/-- The internal node over the children `l` and `r` of weights `wl` and `wr`: the smaller weight gets bit 1, on equal
weights the right child (41_tree_build.md R127, R128). -/
def mergedNode (l r : Index) (wl wr : Word) : Node :=
  ⟨false, 0#8, wl + wr, l, r, decide (wl < wr), !decide (wl < wr)⟩

/-- Insert `n` before the first element whose weight is smaller than `w`, at the end if there is none
(41_tree_build.md R129). -/
def insertTop (weight : Index → Word) (w : Word) (n : Index) : List Index → List Index
  | [] => [n]
  | t :: ts => if weight t < w then n :: t :: ts else t :: insertTop weight w n ts

/-- TOPS[0 .. k−1] as a list (10_state.md R41). -/
def State.topsList (s : State) (k : Nat) : List Index := (List.range k).map s.topsAt

/-- One merge step: selection, new node, edge bits, re-insertion (41_tree_build.md R126 to R129). The entries of TOPS
from the new NTOP on keep what the shift of R129 leaves there. -/
def State.mergeStep (s : State) : State :=
  let k := s.ntop.toNat
  let l := s.topsAt (k - 2)
  let r := s.topsAt (k - 1)
  let m := mergedNode l r (s.nodeAt l.toNat).w (s.nodeAt r.toNat).w
  { s with
    node := Table.write Node.zero s.node s.nnode.toNat m
    nnode := s.nnode + 1#9
    tops := Table.writeList 0#9 s.tops 0
      (insertTop (fun t => (s.nodeAt t.toNat).w) m.w s.nnode (s.topsList (k - 2)))
    ntop := s.ntop - 1#9 }

/-- while NTOP > 1 do merge_step, at most `fuel` times (41_tree_build.md R120, R125; K − 1 ≤ 255 steps, R130). -/
def State.mergeLoop : Nat → State → State
  | 0, s => s
  | fuel + 1, s => if 1 < s.ntop.toNat then State.mergeLoop fuel s.mergeStep else s

/-- RDNODE n: read one tree node (41_tree_build.md R134). -/
def execRdnode (n : Index) (s : State) : Host.Outcome State Fault Refusal :=
  gate (.rdnode n) s fun s => .next (s.emitRsp (s.nodeWords n))

end Sys2Proof.Machine
end

