-- ==== Sys2Proof/Machine/CodeBook.lean ====
section
/-! DEFINITION. The CodeBook unit: the walk inside BUILD, BUILD itself, and RDCODE (42_codebook.md, 41_tree_build.md R120). -/

namespace Sys2Proof.Machine

/-- visit(n): depth first, left before right, with the one accumulator appended to on the way down and popped on the way
back (42_codebook.md R141). A child's index is below its parent's (41_tree_build.md R132), so 511 levels suffice. -/
def visit (node : Table Node) : Nat → Index → BitString × Table Code → BitString × Table Code
  | 0, _, st => st
  | fuel + 1, n, (acc, cb) =>
    let nd := Table.read Node.zero node n.toNat
    if nd.leaf then (acc, Table.write Code.zero cb nd.sym.toNat ⟨true, acc⟩)
    else
      let l := visit node fuel nd.left (acc.snoc nd.lbit, cb)
      let r := visit node fuel nd.right (l.1.pop.snoc nd.rbit, l.2)
      (r.1.pop, r.2)

/-- The walk: every VALID cleared, ACC emptied, then visit(ROOT) (42_codebook.md R140). -/
def State.walk (s : State) : State :=
  let r := visit s.node Config.nodeN s.root (BitString.empty, invalidateAll s.cb)
  { s with acc := r.1, cb := r.2 }

/-- ROOT <- TOPS[0] ; TREE_VALID <- 1 (41_tree_build.md R120, R130). -/
def State.finishTree (s : State) : State := { s with root := s.topsAt 0, treeValid := true }

/-- BUF <- "" ; CB_VALID <- 1 ; STATE <- READY (41_tree_build.md R120, 44_decoder.md R163). -/
def State.becomeReady (s : State) : State :=
  { s with buf := BitString.empty, cbValid := true, phase := .ready }

/-- BUILD over `k` distinct symbols, after its check (41_tree_build.md R120). -/
def State.buildAll (k : Nat) (s : State) : State :=
  ((((s.sortTable k).seedTree k).mergeLoop 255).finishTree.walk).becomeReady

/-- BUILD (41_tree_build.md R120, R121). Its K is 2 to 256; another NSEEN is no state the spec gives: log entry 2. -/
def execBuild (s : State) : Host.Outcome State Fault Refusal :=
  gate .build s fun s =>
    if s.nseen = 1#9 then .next (s.raise .single ((s.fseenAt 0).setWidth 16))
    else if 2 ≤ s.nseen.toNat ∧ s.nseen.toNat ≤ Config.nsym then .next (s.buildAll s.nseen.toNat)
    else .fault (.counterOutOfRange .nseen)

/-- RDCODE x: read the code-book entry of symbol x (42_codebook.md R145). -/
def execRdcode (x : Symbol) (s : State) : Host.Outcome State Fault Refusal :=
  gate (.rdcode x) s fun s => .next (s.emitRsp (s.codeRecord x))

end Sys2Proof.Machine
end

