-- ==== Sys2Proof/Machine/Decoder.lean ====
section
/-! DEFINITION. The Decoder: LDSIZE, LDROW, DBIT and DEND (44_decoder.md). -/

namespace Sys2Proof.Machine

/-- LDSIZE n: begin loading a table of n rows (44_decoder.md R160). -/
def execLdsize (n : Index) (s : State) : Host.Outcome State Fault Refusal :=
  gate (.ldsize n) s fun s =>
    if n = 0#9 ∨ Config.nsym < n.toNat then .next (s.raise .tsize (n.setWidth 16))
    else .next { s with tsize := n, nrow := 0#9, src := true, phase := .load }

/-- The first check of 44_decoder.md R162 that a row fails, with its INFO; `none` when all pass. -/
def State.rowError (s : State) (x : Symbol) (len : BitVec 8) (code : CodeBits) : Option (ErrorKind × BitVec 16) :=
  if len = 0#8 then some (.badrow, infoPair len x)
  else if hasStrayBits len code then some (.badrow, infoPair len x)
  else if (s.cbAt x).valid then some (.dupsym, x.setWidth 16)
  else
    match s.collidingSymbol (rowCodeword len code) with
    | some t => some (.collide, infoPair t x)
    | none => none

/-- The row written (44_decoder.md R163, its first three lines). -/
def State.storeRow (s : State) (x : Symbol) (len : BitVec 8) (m : Word) (code : CodeBits) : State :=
  { s with
    cb := Table.write Code.zero s.cb x.toNat ⟨true, rowCodeword len code⟩
    tbl := Table.write Row.zero s.tbl s.nrow.toNat ⟨x, m⟩
    nrow := s.nrow + 1#9 }

/-- LDROW commit: the row, and READY with it when it is the last (44_decoder.md R163). -/
def State.commitRow (s : State) (x : Symbol) (len : BitVec 8) (m : Word) (code : CodeBits) : State :=
  let s' := s.storeRow x len m code
  if s'.nrow = s'.tsize then s'.becomeReady else s'

/-- LDROW x, len, m, code: load one table row (44_decoder.md R161 to R163). TBL has no entry at 256: log entry 2. -/
def execLdrow (x : Symbol) (len : BitVec 8) (m : Word) (code : CodeBits) (s : State) :
    Host.Outcome State Fault Refusal :=
  gate (.ldrow x len m code) s fun s =>
    match s.rowError x len code with
    | some (e, info) => .next (s.raise e info)
    | none =>
      if Config.nsym ≤ s.nrow.toNat then .fault (.counterOutOfRange .nrow)
      else .next (s.commitRow x len m code)

/-- The code-match engine after a bit was appended: on a match emit the symbol and empty BUF (44_decoder.md R167). -/
def State.acceptBit (s : State) (b : Bool) : State :=
  let c := s.buf.snoc b
  match s.matchSymbol c with
  | some x => { s with buf := BitString.empty }.emitSout x
  | none => { s with buf := c }

/-- DBIT b: accept one coded bit (44_decoder.md R167, R170). -/
def execDbit (b : Bool) (s : State) : Host.Outcome State Fault Refusal :=
  gate (.dbit b) s fun s =>
    if s.buf.len = Config.codeMax then .next (s.raise .bufovf 255#16)
    else .next (s.acceptBit b)

/-- DEND: end of the coded stream (44_decoder.md R169). -/
def execDend (s : State) : Host.Outcome State Fault Refusal :=
  gate .dend s fun s =>
    if s.buf.len = 0#8 then .next s else .next (s.raise .trunc (s.buf.len.setWidth 16))

end Sys2Proof.Machine
end

