-- ==== Sys2Proof/Machine/Encoder.lean ====
section
/-! DEFINITION. The Encoder: ENC and TBLOUT (43_encoder.md). -/

namespace Sys2Proof.Machine

/-- ENC x: emit the codeword of symbol x, position 0 first (43_encoder.md R150). -/
def execEnc (x : Symbol) (s : State) : Host.Outcome State Fault Refusal :=
  gate (.enc x) s fun s =>
    if (s.cbAt x).valid then .next (s.emitBout (s.cbAt x).word.toList)
    else .next (s.raise .nocode (x.setWidth 16))

/-- TBLOUT: emit the table (43_encoder.md R151). TBL has no entry at 256: log entry 2. -/
def execTblout (s : State) : Host.Outcome State Fault Refusal :=
  gate .tblout s fun s =>
    if s.tsize.toNat ≤ Config.nsym then .next (s.emitRsp s.tableRecord)
    else .fault (.counterOutOfRange .tsize)

end Sys2Proof.Machine
end

