-- ==== Sys2Proof/Machine/Frequency.lean ====
section
/-! DEFINITION. The FrequencyTable unit: SYM and RDCNT (40_frequency.md). -/

namespace Sys2Proof.Machine

/-- The state writes of an accepted SYM (40_frequency.md R110). -/
def State.countSymbol (s : State) (x : Symbol) : State :=
  let first := decide (s.cntAt x = 0#32)
  { s with
    fseen := if first then Table.write 0#8 s.fseen s.nseen.toNat x else s.fseen
    nseen := if first then s.nseen + 1#9 else s.nseen
    cnt := Table.write 0#32 s.cnt x.toNat (s.cntAt x + 1#32)
    total := s.total + 1#32
    phase := .count }

/-- SYM x: count one occurrence of symbol x (40_frequency.md R110). FSEEN has no entry at 256: log entry 2. -/
def execSym (x : Symbol) (s : State) : Host.Outcome State Fault Refusal :=
  gate (.sym x) s fun s =>
    if s.total = Config.cntMax then .next (s.raise .cntovf (x.setWidth 16))
    else if s.cntAt x = 0#32 ∧ Config.nsym ≤ s.nseen.toNat then .fault (.counterOutOfRange .nseen)
    else .next (s.countSymbol x)

/-- RDCNT x: read the count of symbol x (40_frequency.md R111). -/
def execRdcnt (x : Symbol) (s : State) : Host.Outcome State Fault Refusal :=
  gate (.rdcnt x) s fun s => .next (s.emitRsp [s.cntAt x])

end Sys2Proof.Machine
end

