-- ==== Sys2Proof/Machine/System.lean ====
section
/-! DEFINITION. The system commands NOP, CLEAR and RDREG (45_system.md). -/

namespace Sys2Proof.Machine

/-- NOP: no action (45_system.md R180). -/
def execNop (s : State) : Host.Outcome State Fault Refusal :=
  gate .nop s fun s => .next s

/-- CLEAR: start a new session (45_system.md R181). -/
def execClear (s : State) : Host.Outcome State Fault Refusal :=
  gate .clear s fun s => .next s.clearSession

/-- RDREG r: read register r; a reserved number makes the word an illegal command, whose bits [31:16] are 0x0200
(45_system.md R183, 30_encoding.md R93). -/
def execRdreg (r : Index) (s : State) : Host.Outcome State Fault Refusal :=
  gate (.rdreg r) s fun s =>
    match s.readRegister r with
    | some v => .next (s.emitRsp [v])
    | none => illegalCommand 0x0200#16 s

end Sys2Proof.Machine
end

