-- ==== Sys2Proof/Machine/Dispatch.lean ====
section
/-! DEFINITION. One arm per command (30_encoding.md R90 step 5). -/

namespace Sys2Proof.Machine

def exec (i : Instr) (s : State) : Host.Outcome State Fault Refusal :=
  match i with
  | .nop => Sys2Proof.Machine.execNop s
  | .clear => Sys2Proof.Machine.execClear s
  | .rdreg r => Sys2Proof.Machine.execRdreg r s
  | .sym x => Sys2Proof.Machine.execSym x s
  | .rdcnt x => Sys2Proof.Machine.execRdcnt x s
  | .build => Sys2Proof.Machine.execBuild s
  | .rdnode n => Sys2Proof.Machine.execRdnode n s
  | .rdcode x => Sys2Proof.Machine.execRdcode x s
  | .enc x => Sys2Proof.Machine.execEnc x s
  | .tblout => Sys2Proof.Machine.execTblout s
  | .ldsize n => Sys2Proof.Machine.execLdsize n s
  | .ldrow x len m code => Sys2Proof.Machine.execLdrow x len m code s
  | .dbit b => Sys2Proof.Machine.execDbit b s
  | .dend => Sys2Proof.Machine.execDend s

end Sys2Proof.Machine
end

