-- ==== Sys2Proof/Machine/Fetch.lean ====
section
/-! DEFINITION. The command port: assembling a command from words (30_encoding.md R80 to R82) and running it (R90). -/

namespace Sys2Proof.Machine

/-- INFO of E_ILLCMD: bits [31:16] of the header word (30_encoding.md R90, R91). -/
def headerInfo (ws : List Word) : BitVec 16 :=
  match ws with
  | [] => 0#16
  | h :: _ => h.extractLsb' 16 16

/-- Run the complete command held in `ws` (30_encoding.md R90). -/
def runCommand (ws : List Word) (s : State) : Host.Outcome State Fault Refusal :=
  match decode ws with
  | .ok i => exec i s
  | .error _ => illegalCommand (headerInfo ws) s

/-- CW[0 .. n−1] as a list. -/
def State.cwList (s : State) (n : Nat) : List Word := (List.range n).map s.cwAt

/-- A word arrives: it is stored, and when it completes a command the command runs, else CWN counts it
(30_encoding.md R81). CWN is 0 when the command runs (45_system.md R181; log entry 4). -/
def receiveWord (w : Word) (s : State) : Host.Outcome State Fault Refusal :=
  let n := s.cwn.val + 1
  let s' := { s with cw := Table.write 0#32 s.cw s.cwn.val w, cwn := 0 }
  if n = lengthOf (s'.cwAt 0) then runCommand (s'.cwList n) s'
  else if h : n < Config.cwWords then .next { s' with cwn := ⟨n, h⟩ }
  else .fault (.counterOutOfRange .cwn)

/-- The next event taken from the port (20_memory.md R69, 70_reset_and_hazards.md R220): with none the core waits, a
word is received, reset puts every piece of state at its reset value. -/
def takeEvent (s : State) : Host.Outcome State Fault Refusal :=
  match s.port with
  | [] => .next s
  | .reset :: rest => .next { State.reset with port := rest }
  | .word w :: rest => receiveWord w { s with port := rest }

/-- `s` about to receive the last word of the command `ws`: its earlier words are in CW, the last is next on the port. -/
def State.presentCommand (s : State) (ws : List Word) : State :=
  { s with
    cw := Table.writeList 0#32 s.cw 0 ws.dropLast
    cwn := Fin.ofNat 10 (ws.length - 1)
    port := (ws.getLast?.map PortEvent.word).toList ++ s.port }

end Sys2Proof.Machine
end

