-- ==== Sys2Proof/Machine/Step.lean ====
section
/-! DEFINITION. One step of the machine: the next event of the port, that is one arriving word (30_encoding.md R81) or
the reset input (70_reset_and_hazards.md R220). A command executes, whole, in the step of its last word (R22, R231). -/

namespace Sys2Proof.Machine

/-- One step. -/
def step (s : State) : Host.Outcome State Fault Refusal := takeEvent s

/-- `s` whose very next step runs the instruction numbered as spec/opcode_table.json numbers its bits. -/
def State.withFetchWord (s : State) (nbits w : Nat) : State := s.presentCommand (tableWords nbits w)

end Sys2Proof.Machine
end

