-- ==== Sys2Proof/Machine/Session.lean ====
section
/-! DEFINITION. Sequences of commands: the pseudo-instructions of 30_encoding.md R97 and the run of a command list
(20_memory.md R71). The host's side; no State holds any of it. -/

namespace Sys2Proof.Machine

/-- COUNT "text": the first pass (30_encoding.md R97). -/
def countText (text : List Symbol) : List Instr := text.map Instr.sym

/-- ENCODE "text": the second pass (30_encoding.md R97). -/
def encodeText (text : List Symbol) : List Instr := text.map Instr.enc

/-- DBITS "bits" (30_encoding.md R97). -/
def decodeBits (bits : List Bool) : List Instr := bits.map Instr.dbit

/-- COMPRESS "text" (30_encoding.md R97). -/
def compressText (text : List Symbol) : List Instr :=
  [.clear] ++ countText text ++ [.build, .tblout] ++ encodeText text

/-- EXPAND "bits" (30_encoding.md R97). -/
def expandBits (bits : List Bool) : List Instr := decodeBits bits ++ [.dend]

/-- The words of a command list, in the order they go to the command port. -/
def commandWords (is : List Instr) : List Word := is.flatMap encode

/-- The commands executed one after another, each on the state the one before it left (20_memory.md R71). -/
def execAll : List Instr → State → Host.Outcome State Fault Refusal
  | [], s => .next s
  | i :: is, s =>
    match exec i s with
    | .next t => execAll is t
    | .fault f => .fault f
    | .refused r => .refused r

/-- `s` with words next on its command port. -/
def State.withWords (s : State) (ws : List Word) : State := { s with port := ws.map PortEvent.word }

end Sys2Proof.Machine
end

