-- ==== Sys2Proof/Machine/TextLayout.lean ====
section
/-! DEFINITION. The table-plus-payload text of 30_encoding.md R100 to R105: what a host writes from a TBLOUT record and
the BOUT bits, and the commands it sends after reading such a text. P_FMT_PROB is an argument, as R105 requires. -/

namespace Sys2Proof.Machine

/-- A character of the text, as its byte. -/
abbrev TextByte := BitVec 8

/-- TAB (R102). -/
def tabByte : TextByte := 0x09#8

/-- The line terminator (R101). -/
def lineByte : TextByte := 0x0A#8

/-- The character of a bit: '0' is 0x30, '1' is 0x31 (R103). -/
def bitByte (b : Bool) : TextByte := if b then 0x31#8 else 0x30#8

/-- The bit of a character, where it is one (R104). -/
def byteBit (c : TextByte) : Option Bool :=
  if c = 0x30#8 then some false else if c = 0x31#8 then some true else none

/-- The bits of a string of '0' and '1' characters (R104). -/
def bytesBits : List TextByte → Option (List Bool)
  | [] => some []
  | c :: cs =>
    match byteBit c, bytesBits cs with
    | some b, some bs => some (b :: bs)
    | _, _ => none

/-- A bit string of at most 255 bits in stored form (00_scope.md R11). -/
def bitStringOf (bs : List Bool) : BitString := bs.foldl BitString.snoc BitString.empty

/-- A number in decimal, no leading zeros, no sign, no padding (R101). -/
def decimalBytes (n : Nat) : List TextByte := (Nat.toDigits 10 n).map fun c => BitVec.ofNat 8 c.toNat

/-- The number a string of decimal digits writes; `acc` is the value of the digits before it. -/
def decimalValue (acc : Nat) : List TextByte → Option Nat
  | [] => some acc
  | c :: cs =>
    if 0x30 ≤ c.toNat ∧ c.toNat ≤ 0x39 then decimalValue (acc * 10 + (c.toNat - 0x30)) cs else none

/-- The META words of the rows of a record without its LDSIZE word (R102). -/
def recordMetas : List Word → List Word
  | _ :: m :: _ :: _ :: _ :: _ :: _ :: _ :: _ :: _ :: rest => m :: recordMetas rest
  | _ => []

/-- The text of the rows: symbol, TAB, probability, TAB, codeword, line terminator (R102). -/
def rowsText (fmt : Word → Nat → List TextByte) (total : Nat) : List Word → List TextByte
  | h :: m :: c0 :: c1 :: c2 :: c3 :: c4 :: c5 :: c6 :: c7 :: rest =>
    let code : BitString := ⟨h.extractLsb' 16 8, codeOfWords c0 c1 c2 c3 c4 c5 c6 c7⟩
    [h.extractLsb' 0 8, tabByte] ++ fmt m total ++ [tabByte] ++ code.toList.map bitByte ++ [lineByte] ++
      rowsText fmt total rest
  | _ => []

/-- The whole text of a TBLOUT record and a payload (R100 to R103); `fmt` is P_FMT_PROB (R105). -/
def renderText (fmt : Word → Nat → List TextByte) (record : List Word) (payload : List Bool) : List TextByte :=
  match record with
  | [] => []
  | h :: rows =>
    decimalBytes (h.extractLsb' 0 9).toNat ++ [lineByte] ++
      rowsText fmt ((recordMetas rows).map BitVec.toNat).sum rows ++ [lineByte] ++ payload.map bitByte

/-- The bytes before the first `stop` and those after it, where there is one. -/
def splitAtByte (stop : TextByte) : List TextByte → Option (List TextByte × List TextByte)
  | [] => none
  | c :: cs =>
    if c = stop then some ([], cs)
    else
      match splitAtByte stop cs with
      | some (a, b) => some (c :: a, b)
      | none => none

/-- One row read: its first byte is the symbol whatever it is, the next must be TAB (R104). A codeword of more than 255
characters is no row (log entry 8). `metaOf` is the host's choice of META from the probability text. -/
def readRow (metaOf : List TextByte → Word) (text : List TextByte) : Option (Instr × List TextByte) :=
  match text with
  | x :: t :: rest =>
    if t = tabByte then
      match splitAtByte tabByte rest with
      | none => none
      | some (prob, rest') =>
        match splitAtByte lineByte rest' with
        | none => none
        | some (codeText, rest'') =>
          match bytesBits codeText with
          | none => none
          | some bs =>
            if bs.length ≤ 255 then
              some (.ldrow x (bitStringOf bs).len (metaOf prob) (bitStringOf bs).bits, rest'')
            else none
    else none
  | _ => none

/-- `n` rows read (R104). -/
def readRows (metaOf : List TextByte → Word) : Nat → List TextByte → Option (List Instr × List TextByte)
  | 0, text => some ([], text)
  | n + 1, text =>
    match readRow metaOf text with
    | none => none
    | some (i, rest) =>
      match readRows metaOf n rest with
      | none => none
      | some (is, rest') => some (i :: is, rest')

/-- The commands a host sends to decode a text in the layout; `none` is its FormatError (R104). A tsize of more than 511
has no LDSIZE word (log entry 8). A malformed text gives no command at all: R104 does not say whether the host has sent the
commands read before the malformed part (DESIGN CHOICE, log entry 8). -/
def readText (metaOf : List TextByte → Word) (text : List TextByte) : Option (List Instr) :=
  match splitAtByte lineByte text with
  | none => none
  | some ([], _) => none
  | some (digits, rest) =>
    match decimalValue 0 digits with
    | none => none
    | some n =>
      if 511 < n then none
      else
        match readRows metaOf n rest with
        | none => none
        | some (rows, rest') =>
          match rest' with
          | [] => none
          | c :: payload =>
            if c = lineByte then
              match bytesBits payload with
              | none => none
              | some bits => some ([.clear, .ldsize (BitVec.ofNat 9 n)] ++ rows ++ expandBits bits)
            else none

end Sys2Proof.Machine
end

