-- ==== Sys2Proof/Safety.lean ====
section
/-! DEFINITION. What the claims are stated in: the canonical form of the memories, the invariants of 10_state.md R46,
what two states share (frames), indistinguishable states (70_reset_and_hazards.md R220), tree paths. -/

namespace Sys2Proof.Machine

/-! ### The canonical form of a table memory -/

/-- Every index is at least `lo`, below `size`, above the one before it, and no entry is `d`. -/
def Table.wfFrom {α : Type} [DecidableEq α] (d : α) (size lo : Nat) : Table α → Bool
  | [] => true
  | (k, a) :: rest => decide (lo ≤ k) && decide (k < size) && !decide (a = d) && Table.wfFrom d size (k + 1) rest

/-- The canonical form of a table memory of `size` entries: indices strictly rising and inside the memory (20_memory.md
R60), no entry equal to what an unlisted index reads as. -/
def Table.wf {α : Type} [DecidableEq α] (d : α) (size : Nat) (t : Table α) : Bool := Table.wfFrom d size 0 t

/-- All six table memories of R60, and CW, are in canonical form. -/
def Memory.wf (s : State) : Bool :=
  Table.wf 0#32 256 s.cnt && Table.wf 0#8 256 s.fseen && Table.wf Row.zero 256 s.tbl &&
    Table.wf Node.zero 511 s.node && Table.wf 0#9 256 s.tops && Table.wf Code.zero 256 s.cb && Table.wf 0#32 10 s.cw

/-! ### The invariants of 10_state.md R46 -/

/-- Σ over s of CNT[s], as a number that does not wrap (R46 item 1). -/
def State.sumCounts (s : State) : Nat := (allSymbols.map fun x => (s.cntAt x).toNat).sum

/-- The symbols with CNT[s] > 0, in rising order. -/
def State.countedSymbols (s : State) : List Symbol := allSymbols.filter fun x => !decide (s.cntAt x = 0#32)

/-- FSEEN[0 .. NSEEN−1]. -/
def State.seenSymbols (s : State) : List Symbol := (List.range s.nseen.toNat).map s.fseenAt

/-- The symbols with a valid code-book entry, in rising order. -/
def State.validSymbols (s : State) : List Symbol := allSymbols.filter fun x => (s.cbAt x).valid

/-- The symbols of TBL rows 0 .. NROW−1. -/
def State.rowSymbols (s : State) : List Symbol := (List.range s.nrow.toNat).map fun i => (s.tblAt i).sym

/-- Σ of META over rows 0 .. TSIZE−1, as a number that does not wrap. -/
def State.sumMetas (s : State) : Nat := ((List.range s.tsize.toNat).map fun i => (s.tblAt i).metaWord.toNat).sum

/-- R46 item 1: TOTAL is the sum of the counts, and FSEEN lists exactly the counted symbols, each once. -/
abbrev State.CountingInv (s : State) : Prop :=
  s.total.toNat = s.sumCounts ∧ s.seenSymbols.Perm s.countedSymbols

/-- R46 item 2. -/
abbrev State.IdleInv (s : State) : Prop :=
  s.phase = .idle →
    (s.cbValid = false ∧ s.treeValid = false ∧ s.src = false ∧ s.pstate = .idle ∧ s.err = ErrReg.none) ∧
    (s.total = 0#32 ∧ s.tsize = 0#9 ∧ s.nseen = 0#9 ∧ s.nrow = 0#9 ∧ s.nnode = 0#9 ∧ s.ntop = 0#9) ∧
    (s.root = Config.nil ∧ s.acc = BitString.empty ∧ s.buf = BitString.empty) ∧
    (∀ x : Symbol, s.cntAt x = 0#32 ∧ (s.cbAt x).valid = false)

/-- R46 item 3. -/
abbrev State.CountInv (s : State) : Prop :=
  s.phase = .count →
    (1 ≤ s.total.toNat ∧ 1 ≤ s.nseen.toNat) ∧
    (s.cbValid = false ∧ s.treeValid = false ∧ s.src = false) ∧
    (s.tsize = 0#9 ∧ s.nrow = 0#9 ∧ s.nnode = 0#9 ∧ s.ntop = 0#9 ∧ s.root = Config.nil) ∧
    (s.buf = BitString.empty ∧ ∀ x : Symbol, (s.cbAt x).valid = false)

/-- R46 item 4; NNODE, NTOP and ROOT, which item 5 needs after the last row, are added. -/
abbrev State.LoadInv (s : State) : Prop :=
  s.phase = .load →
    (s.src = true ∧ 1 ≤ s.tsize.toNat ∧ s.tsize.toNat ≤ 256 ∧ s.nrow.toNat < s.tsize.toNat) ∧
    (s.cbValid = false ∧ s.treeValid = false ∧ s.total = 0#32 ∧ s.nseen = 0#9) ∧
    (s.nnode = 0#9 ∧ s.ntop = 0#9 ∧ s.root = Config.nil) ∧
    (s.buf = BitString.empty ∧ s.rowSymbols.Perm s.validSymbols)

/-- R46 item 5. -/
abbrev State.ReadyInv (s : State) : Prop :=
  s.phase = .ready →
    (s.cbValid = true ∧ s.nrow = s.tsize ∧ 1 ≤ s.tsize.toNat ∧ s.rowSymbols.Perm s.validSymbols) ∧
    (s.src = false →
      (s.treeValid = true ∧ s.tsize = s.nseen ∧ 2 ≤ s.tsize.toNat) ∧
      (s.nnode.toNat = 2 * s.tsize.toNat - 1 ∧ s.ntop = 1#9 ∧ s.root.toNat = s.nnode.toNat - 1) ∧
      ((s.nodeAt s.root.toNat).w = s.total ∧ s.total.toNat = s.sumMetas)) ∧
    (s.src = true → s.treeValid = false ∧ s.nnode = 0#9 ∧ s.ntop = 0#9 ∧ s.root = Config.nil)

/-- R46 item 6, with the stored form of R11: the valid codewords are non-empty and pairwise not prefix-related. -/
abbrev State.PrefixFree (s : State) : Prop :=
  ∀ x : Symbol, (s.cbAt x).valid = true →
    ((s.cbAt x).word.len ≠ 0#8 ∧ (s.cbAt x).word.stored = true) ∧
    ∀ y : Symbol, (s.cbAt y).valid = true → x ≠ y → (s.cbAt x).word.prefixRelated (s.cbAt y).word = false

/-- R46 item 7, with the stored form of R11. -/
abbrev State.BufferInv (s : State) : Prop :=
  s.buf.stored = true ∧
    (∀ x : Symbol, (s.cbAt x).valid = true → (s.cbAt x).word.isPrefixOf s.buf = false) ∧
    (s.buf.len ≠ 0#8 → s.phase = .ready ∨ (s.phase = .err ∧ s.pstate = .ready))

/-- R46 item 8, and what R25 and R29 add: CB_VALID and PSTATE by phase. -/
abbrev State.ErrorInv (s : State) : Prop :=
  (s.phase = .err ↔ s.err.code ≠ 0#8) ∧ (s.phase ≠ .err → s.err = ErrReg.none ∧ s.pstate = .idle) ∧
    (s.phase = .err → s.pstate ≠ .err) ∧
    (s.cbValid = true ↔ s.phase = .ready ∨ (s.phase = .err ∧ s.pstate = .ready))

/-- R44 (R46 item 9 between words): an incomplete command is an LDROW. -/
abbrev State.AssemblerInv (s : State) : Prop := s.cwn ≠ 0 → opcodeOf (s.cwAt 0) = 0x41#8

/-- 42_codebook.md R146 for a built code book: every 255-bit sequence has a codeword as a prefix. -/
def State.CompleteInv (s : State) : Prop :=
  s.phase = .ready → s.src = false →
    ∀ bits : List Bool, bits.length = 255 → ∃ x : Symbol, (s.cbAt x).valid = true ∧ (s.cbAt x).word.toList <+: bits

/-- The invariants of 10_state.md R46 between commands and between words, with R34 (ACC is empty) and R146. -/
structure State.Inv (s : State) : Prop where
  counting : s.CountingInv
  idle : s.IdleInv
  count : s.CountInv
  load : s.LoadInv
  ready : s.ReadyInv
  prefixFree : s.PrefixFree
  buffer : s.BufferInv
  error : s.ErrorInv
  assembler : s.AssemblerInv
  accEmpty : s.acc = BitString.empty
  complete : s.CompleteInv

/-! ### Frames: what two states share -/

/-- STATE, the flags, PSTATE and ERR. -/
abbrev State.SameStatus (s t : State) : Prop :=
  t.phase = s.phase ∧ t.cbValid = s.cbValid ∧ t.treeValid = s.treeValid ∧ t.src = s.src ∧ t.pstate = s.pstate ∧
    t.err = s.err

/-- The seven counters and indices. -/
abbrev State.SameCounters (s t : State) : Prop :=
  t.total = s.total ∧ t.tsize = s.tsize ∧ t.nseen = s.nseen ∧ t.nrow = s.nrow ∧ t.nnode = s.nnode ∧
    t.ntop = s.ntop ∧ t.root = s.root

/-- ACC and BUF. -/
abbrev State.SameStrings (s t : State) : Prop := t.acc = s.acc ∧ t.buf = s.buf

/-- Every entry of CNT and FSEEN reads as before. -/
def State.SameCounts (s t : State) : Prop :=
  (∀ x : Symbol, t.cntAt x = s.cntAt x) ∧ ∀ j : Nat, t.fseenAt j = s.fseenAt j

/-- Every entry of NODE and TOPS reads as before. -/
def State.SameTree (s t : State) : Prop :=
  (∀ n : Nat, t.nodeAt n = s.nodeAt n) ∧ ∀ j : Nat, t.topsAt j = s.topsAt j

/-- Every entry of TBL and CB reads as before. -/
def State.SameBook (s t : State) : Prop :=
  (∀ i : Nat, t.tblAt i = s.tblAt i) ∧ ∀ x : Symbol, t.cbAt x = s.cbAt x

/-- Every entry of the six table memories reads as before. -/
def State.SameMemories (s t : State) : Prop := s.SameCounts t ∧ s.SameTree t ∧ s.SameBook t

/-- The three output streams. -/
abbrev State.SameStreams (s t : State) : Prop := t.rsp = s.rsp ∧ t.bout = s.bout ∧ t.sout = s.sout

/-- The command assembler and the port. -/
def State.SameAssembler (s t : State) : Prop := (∀ k : Nat, t.cwAt k = s.cwAt k) ∧ t.cwn = s.cwn ∧ t.port = s.port

/-- Everything but the command assembler and the port. -/
def State.SameCore (s t : State) : Prop :=
  s.SameStatus t ∧ s.SameCounters t ∧ s.SameStrings t ∧ s.SameMemories t ∧ s.SameStreams t

/-- The words of the command `w` completes: CW[0 .. CWN−1], then `w` (30_encoding.md R81). -/
def State.wordsWith (s : State) (w : Word) : List Word := s.cwList s.cwn.val ++ [w]

/-- `t` is `s` with the word `w` stored at CW[CWN], CWN set back to 0 and the port at `rest`: the state a completed
command runs on (30_encoding.md R81). -/
def State.TakesWord (s : State) (w : Word) (rest : List PortEvent) (t : State) : Prop :=
  s.SameCore t ∧ (∀ k : Nat, t.cwAt k = if k = s.cwn.val then w else s.cwAt k) ∧ t.cwn = 0 ∧ t.port = rest

/-- Everything but RSP: `t` is `s` with the record `ws` appended to RSP (20_memory.md R63: a read has no side effect). -/
def State.OnlyAppendsRsp (s : State) (ws : List Word) (t : State) : Prop :=
  t.rsp = s.rsp ++ ws ∧ t.bout = s.bout ∧ t.sout = s.sout ∧ s.SameStatus t ∧ s.SameCounters t ∧ s.SameStrings t ∧
    s.SameMemories t ∧ s.SameAssembler t

/-- `t` is `s` after error entry with the error `e` and INFO `info`: the error record and nothing else (60_exceptions.md
R196, R197). -/
def State.ErrorEntered (s : State) (e : ErrorKind) (info : BitVec 16) (t : State) : Prop :=
  t.phase = .err ∧ t.pstate = s.phase ∧
    (t.err.code = e.code ∧ t.err.cls = e.cls ∧ t.err.errPhase = e.errPhase ∧ t.err.info = info) ∧
    (t.cbValid = s.cbValid ∧ t.treeValid = s.treeValid ∧ t.src = s.src) ∧
    s.SameCounters t ∧ s.SameStrings t ∧ s.SameMemories t ∧ s.SameStreams t ∧ s.SameAssembler t

/-- `exec` answers a next state that is `s` after error entry. -/
def State.Raises (s : State) (i : Instr) (e : ErrorKind) (info : BitVec 16) : Prop :=
  ∃ t, exec i s = .next t ∧ s.ErrorEntered e info t

/-! ### States no command sequence tells apart -/

/-- Equal but for the contents 10_state.md R47 leaves unspecified: entries at or above the fill counts, NODE without a
finished tree, LEN and BITS of invalid codewords, TOPS, and CW at or above CWN (70_reset_and_hazards.md R220, 93 U19). -/
structure State.Indistinguishable (a b : State) : Prop where
  status : a.SameStatus b
  counters : a.SameCounters b
  strings : a.SameStrings b
  streams : a.SameStreams b
  cwn : b.cwn = a.cwn
  port : b.port = a.port
  cnt : ∀ x : Symbol, b.cntAt x = a.cntAt x
  fseen : ∀ j : Nat, j < a.nseen.toNat → b.fseenAt j = a.fseenAt j
  tbl : ∀ i : Nat, i < a.nrow.toNat → b.tblAt i = a.tblAt i
  node : a.treeValid = true → ∀ n : Nat, n < a.nnode.toNat → b.nodeAt n = a.nodeAt n
  valid : ∀ x : Symbol, (b.cbAt x).valid = (a.cbAt x).valid
  word : ∀ x : Symbol, (a.cbAt x).valid = true → (b.cbAt x).word = (a.cbAt x).word
  cw : ∀ k : Nat, k < a.cwn.val → b.cwAt k = a.cwAt k

/-! ### Paths in the tree -/

/-- The node reached from `n` by taking, for each bit, the edge with that label (42_codebook.md R142); `none` at a leaf. -/
def State.follow (s : State) (n : Index) : List Bool → Option Index
  | [] => some n
  | b :: bs =>
    let nd := s.nodeAt n.toNat
    if nd.leaf then none
    else if b = nd.lbit then s.follow nd.left bs
    else if b = nd.rbit then s.follow nd.right bs
    else none

/-- The LDROW that reloads table row `i` (43_encoder.md R151). -/
def State.rowCommand (s : State) (i : Nat) : Instr :=
  let r := s.tblAt i
  let c := s.cbAt r.sym
  .ldrow r.sym c.word.len r.metaWord c.word.bits

/-- The commands that reload the table: LDSIZE TSIZE, then LDROW, TSIZE times (43_encoder.md R151). -/
def State.reloadCommands (s : State) : List Instr :=
  .ldsize s.tsize :: (List.range s.tsize.toNat).map s.rowCommand

end Sys2Proof.Machine
end

