-- ==== Sys2Proof/Certificates/Slice0/Obligations.lean ====
section
/-! DEFINITION. The statements for the provers. Each docstring names the rules of spec/ the statement comes from. -/

open Sys2Proof Sys2Proof.Machine

/-! ### Encoding -/

/-- Decoding the words of a well-formed command gives the command back, whatever its operands (30_encoding.md R83 to R89). -/
def Obligations.DecodeOfEncode : Prop :=
  ∀ i : Instr, i.WellFormed = true → decode (encode i) = .ok i

/-- Each legal sequence of words has one meaning: what decodes is well formed and its encoding is those words (R83 to R93). -/
def Obligations.EncodeOfDecode : Prop :=
  ∀ (ws : List Word) (i : Instr), decode ws = .ok i → i.WellFormed = true ∧ encode i = ws

/-- The columns match, mask and words of the opcode map (R89). -/
def opcodeMap : List (Word × Word × Nat) :=
  [(0x00000000#32, 0xFFFFFFFF#32, 1), (0x01000000#32, 0xFFFFFFFF#32, 1), (0x02000000#32, 0xFFFFFE00#32, 1),
   (0x10000000#32, 0xFFFFFF00#32, 1), (0x11000000#32, 0xFFFFFF00#32, 1), (0x20000000#32, 0xFFFFFFFF#32, 1),
   (0x21000000#32, 0xFFFFFE00#32, 1), (0x28000000#32, 0xFFFFFF00#32, 1), (0x30000000#32, 0xFFFFFF00#32, 1),
   (0x31000000#32, 0xFFFFFFFF#32, 1), (0x40000000#32, 0xFFFFFE00#32, 1), (0x41000000#32, 0xFF00FF00#32, 10),
   (0x48000000#32, 0xFFFFFFFE#32, 1), (0x49000000#32, 0xFFFFFFFF#32, 1)]

/-- A header selects a row exactly when (w AND mask) = match, RDREG's IDX being a register number as well, and what is
decoded is the command of that row and takes that row's number of words (R80, R89). -/
def Obligations.HeaderSelectsRowByMask : Prop :=
  ∀ (h : Word) (data : List Word), data.length + 1 = lengthOf h →
    ((∃ i, decode (h :: data) = .ok i) ↔
      ∃ r ∈ opcodeMap, h &&& r.2.1 = r.1 ∧ (r.1 = 0x02000000#32 → Index.NamesRegister (h.extractLsb' 0 9) = true)) ∧
    ∀ i, decode (h :: data) = .ok i →
      ∃ r ∈ opcodeMap, h &&& r.2.1 = r.1 ∧ r.1 = (opcode i).setWidth 32 <<< 24 ∧ r.2.2 = data.length + 1

/-- The example words of R96 decode to the commands they stand for. -/
def Obligations.SampleWordsDecode : Prop :=
  decode [0x10000061#32] = .ok (.sym 0x61#8) ∧ decode [0x02000001#32] = .ok (.rdreg 1#9) ∧
    decode [0x40000005#32] = .ok (.ldsize 5#9) ∧ decode [0x48000001#32] = .ok (.dbit true) ∧
    decode [0x41040063#32, 0x00000001#32, 0x00000004#32, 0#32, 0#32, 0#32, 0#32, 0#32, 0#32, 0#32] =
      .ok (.ldrow 0x63#8 4#8 1#32 4#256)

/-! ### The command port -/

/-- R81: an arriving word is stored at CW[CWN]; if the words then are as many as the first word's opcode says, the
command they hold runs and CWN is 0, else nothing changes but CW and CWN. That CWN is 0 already while the command runs is
log entry 4. -/
def Obligations.ArrivingWordIsAssembled : Prop :=
  ∀ (s : State) (w : Word) (rest : List PortEvent) (h : Word), s.port = .word w :: rest →
    h = (if s.cwn = 0 then w else s.cwAt 0) →
    (s.cwn.val + 1 = (if h.extractLsb' 24 8 = 0x41#8 then 10 else 1) →
      ∃ s', s.TakesWord w rest s' ∧ step s = runCommand (s.wordsWith w) s') ∧
    (s.cwn.val + 1 < (if h.extractLsb' 24 8 = 0x41#8 then 10 else 1) →
      ∃ t, step s = .next t ∧ s.SameCore t ∧ (∀ k : Nat, t.cwAt k = if k = s.cwn.val then w else s.cwAt k) ∧
        t.cwn.val = s.cwn.val + 1 ∧ t.port = rest)

/-- A step runs the decoded command: when the words held and the next word of the port decode to `i`, the step is `exec i`
on the state that has taken the word; and with nothing on the port the core waits (R90, 60_exceptions.md R213). -/
def Obligations.StepRunsTheDecodedCommand : Prop :=
  (∀ (s : State) (w : Word) (rest : List PortEvent) (i : Instr), s.port = .word w :: rest →
    decode (s.wordsWith w) = .ok i → ∃ s', s.TakesWord w rest s' ∧ step s = exec i s') ∧
  ∀ s : State, s.port = [] → step s = .next s

/-- R82: in every phase the ten words of an LDROW header are taken as one command; after nine nothing of it has executed. -/
def Obligations.LdrowTakesTenWordsInEveryPhase : Prop :=
  ∀ (s : State) (w0 w1 w2 w3 w4 w5 w6 w7 w8 w9 : Word) (rest : List PortEvent),
    opcodeOf w0 = 0x41#8 → s.cwn = 0 →
    s.port = [w0, w1, w2, w3, w4, w5, w6, w7, w8, w9].map PortEvent.word ++ rest →
    (∃ t : State, Host.Core.run Sys2Proof.core 9 s = .next t ∧ s.SameCore t ∧ t.cwn = 9 ∧ t.port = .word w9 :: rest) ∧
    ∃ s' : State, s.SameCore s' ∧ s'.cwn = 0 ∧ s'.port = rest ∧
      Host.Core.run Sys2Proof.core 10 s = runCommand [w0, w1, w2, w3, w4, w5, w6, w7, w8, w9] s'

/-- R47: what the reset input leaves. The contents R47 calls unspecified are not named here. -/
def Obligations.ResetPutsStateAtItsValues : Prop :=
  ∀ (s : State) (rest : List PortEvent), s.port = .reset :: rest →
    ∃ t, step s = .next t ∧ t.phase = .idle ∧ t.cbValid = false ∧ t.treeValid = false ∧ t.src = false ∧
      t.pstate = .idle ∧ t.err = ⟨0#16, 0#3, 0#3, 0#8⟩ ∧ t.total = 0#32 ∧ t.tsize = 0#9 ∧ t.nseen = 0#9 ∧ t.nrow = 0#9 ∧
      t.nnode = 0#9 ∧ t.ntop = 0#9 ∧ t.root = 0x1FF#9 ∧ t.acc = ⟨0#8, 0#256⟩ ∧ t.buf = ⟨0#8, 0#256⟩ ∧
      (∀ x : Symbol, t.cntAt x = 0#32 ∧ (t.cbAt x).valid = false) ∧ t.cwn = 0 ∧ t.rsp = [] ∧ t.bout = [] ∧
      t.sout = [] ∧ t.errLine = false ∧ t.port = rest

/-! ### Illegal commands -/

/-- The fourteen opcodes of R89. -/
def knownOpcodes : List (BitVec 8) :=
  [0x00#8, 0x01#8, 0x02#8, 0x10#8, 0x11#8, 0x20#8, 0x21#8, 0x28#8, 0x30#8, 0x31#8, 0x40#8, 0x41#8, 0x48#8, 0x49#8]

/-- R91: a word with a reserved opcode is a one-word illegal command: E_ILLCMD outside ERR, discarded in ERR. -/
def Obligations.ReservedOpcodeIsIllegal : Prop :=
  ∀ (s : State) (w : Word) (rest : List PortEvent), s.port = .word w :: rest → s.cwn = 0 →
    w.extractLsb' 24 8 ∉ knownOpcodes →
    ∃ s', s.TakesWord w rest s' ∧ (s.phase = .err → step s = .next s') ∧
      (s.phase ≠ .err → ∃ t, step s = .next t ∧ s'.ErrorEntered .illcmd (w.extractLsb' 16 16) t)

/-- The bits marked 0 in the format of an opcode's header (R83 to R87, R89). -/
def reservedBits (opc : BitVec 8) : Word :=
  if opc ∈ [0x00#8, 0x01#8, 0x20#8, 0x31#8, 0x49#8] then 0x00FFFFFF#32
  else if opc ∈ [0x10#8, 0x11#8, 0x28#8, 0x30#8] then 0x00FFFF00#32
  else if opc ∈ [0x02#8, 0x21#8, 0x40#8] then 0x00FFFE00#32
  else if opc = 0x48#8 then 0x00FFFFFE#32
  else if opc = 0x41#8 then 0x0000FF00#32
  else 0#32

/-- R92: a known opcode with a non-zero reserved bit is an illegal command, for LDROW when its tenth word arrives. -/
def Obligations.ReservedFieldIsIllegal : Prop :=
  ∀ (s : State) (w : Word) (rest : List PortEvent) (h : Word), s.port = .word w :: rest →
    h = (if s.cwn = 0 then w else s.cwAt 0) →
    s.cwn.val + 1 = (if h.extractLsb' 24 8 = 0x41#8 then 10 else 1) → h &&& reservedBits (h.extractLsb' 24 8) ≠ 0#32 →
    ∃ s', s.TakesWord w rest s' ∧ (s.phase = .err → step s = .next s') ∧
      (s.phase ≠ .err → ∃ t, step s = .next t ∧ s'.ErrorEntered .illcmd (h.extractLsb' 16 16) t)

/-- R93: RDREG of a number outside 0x00 to 0x08 and 0x10 to 0x17 is an illegal command and returns no register. -/
def Obligations.ReservedRegisterIsIllegal : Prop :=
  ∀ (s : State) (r : Index) (rest : List PortEvent), s.port = .word (0x02000000#32 ||| r.setWidth 32) :: rest →
    s.cwn = 0 → ¬ (r.toNat ≤ 0x08 ∨ (0x10 ≤ r.toNat ∧ r.toNat ≤ 0x17)) →
    ∃ s', s.TakesWord (0x02000000#32 ||| r.setWidth 32) rest s' ∧ (s.phase = .err → step s = .next s') ∧
      (s.phase ≠ .err → ∃ t, step s = .next t ∧ s'.ErrorEntered .illcmd 0x0200#16 t)

/-! ### Errors and phases -/

/-- R197: a command that takes the core to ERR has written the error record (R196) and nothing else, and has emitted
nothing. The same of a step: it has taken the last word of the command, legal or not in encoding, and no other word. -/
def Obligations.ErrorsArePrecise : Prop :=
  (∀ (i : Instr) (s t : State), s.phase ≠ .err → exec i s = .next t → t.phase = .err →
    ∃ e info, s.ErrorEntered e info t) ∧
  ∀ s t : State, s.phase ≠ .err → step s = .next t → t.phase = .err →
    ∃ (w : Word) (rest : List PortEvent) (s' : State) (e : ErrorKind) (info : BitVec 16),
      s.port = .word w :: rest ∧ s.TakesWord w rest s' ∧ s'.ErrorEntered e info t

/-- R190, R30: the ERR word of each of the thirteen errors, and 0 where there is no error. -/
def Obligations.ErrorWords : Prop :=
  ErrReg.none.toWord = 0#32 ∧ ∀ info : BitVec 16,
    let word (e : ErrorKind) : Word := (errRecord e info).toWord
    let hi : Word := info.setWidth 32 <<< 16
    word .empty = hi ||| 0x00000901#32 ∧ word .single = hi ||| 0x00000A02#32 ∧ word .cntovf = hi ||| 0x00000903#32 ∧
    word .notable = hi ||| 0x00000B04#32 ∧ word .tsize = hi ||| 0x00001310#32 ∧ word .badrow = hi ||| 0x00001311#32 ∧
    word .dupsym = hi ||| 0x00001312#32 ∧ word .collide = hi ||| 0x00001313#32 ∧ word .trunc = hi ||| 0x00001414#32 ∧
    word .bufovf = hi ||| 0x00001415#32 ∧ word .nocode = hi ||| 0x00001D20#32 ∧ word .illcmd = hi ||| 0x00002630#32 ∧
    word .seq = hi ||| 0x00002631#32

/-- R23, R24, R28: each field of STATUS is the value of its element, and the reserved bits read 0. -/
def Obligations.StatusWordFields : Prop :=
  ∀ s : State,
    s.status.extractLsb' 0 3 = (match s.phase with | .idle => 0#3 | .count => 1#3 | .load => 2#3 | .ready => 3#3 | .err => 7#3) ∧
    s.status.getLsbD 3 = s.cbValid ∧ s.status.getLsbD 4 = s.treeValid ∧ s.status.getLsbD 5 = s.src ∧
    (s.status.getLsbD 6 = true ↔ s.buf.len ≠ 0#8) ∧ s.status.getLsbD 7 = false ∧
    s.status.extractLsb' 8 8 = s.buf.len ∧ s.status.extractLsb' 16 9 = s.tsize ∧
    s.status.extractLsb' 25 3 = (match s.pstate with | .idle => 0#3 | .count => 1#3 | .load => 2#3 | .ready => 3#3 | .err => 7#3) ∧
    s.status.extractLsb' 28 4 = 0#4

/-- R198: in ERR the six read-out and system commands execute, every other command and every illegal encoding is
consumed and discarded. -/
def Obligations.ErrPhaseDiscardsWorkingCommands : Prop :=
  ∀ s : State, s.phase = .err →
    (exec .nop s = .next s ∧
      exec .clear s = .next s.clearSession ∧
      (∀ r : Index, Index.NamesRegister r = true →
        ∃ v t, s.readRegister r = some v ∧ exec (.rdreg r) s = .next t ∧ s.OnlyAppendsRsp [v] t) ∧
      (∀ x : Symbol, ∃ t, exec (.rdcnt x) s = .next t ∧ s.OnlyAppendsRsp [s.cntAt x] t) ∧
      (∀ n : Index, ∃ t, exec (.rdnode n) s = .next t ∧ s.OnlyAppendsRsp (s.nodeWords n) t) ∧
      (∀ x : Symbol, ∃ t, exec (.rdcode x) s = .next t ∧ s.OnlyAppendsRsp (s.codeRecord x) t)) ∧
    ((∀ x : Symbol, exec (.sym x) s = .next s) ∧ exec .build s = .next s ∧ (∀ x : Symbol, exec (.enc x) s = .next s) ∧
      exec .tblout s = .next s ∧ (∀ n : Index, exec (.ldsize n) s = .next s) ∧
      (∀ x len m code, exec (.ldrow x len m code) s = .next s) ∧ (∀ b : Bool, exec (.dbit b) s = .next s) ∧
      exec .dend s = .next s) ∧
    ∀ (w : Word) (rest : List PortEvent) (e : Reject), s.port = .word w :: rest →
      s.cwn.val + 1 = lengthOf (if s.cwn = 0 then w else s.cwAt 0) → decode (s.wordsWith w) = .error e →
      ∃ s', s.TakesWord w rest s' ∧ step s = .next s'

/-- R199: the only ways out of ERR are CLEAR and reset, both to IDLE with empty tables, and neither uses what error entry
saved. -/
def Obligations.OnlyClearAndResetLeaveErr : Prop :=
  ∀ s t : State, s.phase = .err → step s = .next t → t.phase ≠ .err →
    (t.phase = .idle ∧ t.pstate = .idle ∧ t.err = ErrReg.none) ∧
    (t.cbValid = false ∧ t.treeValid = false ∧ t.nseen = 0#9 ∧ t.tsize = 0#9 ∧ t.nrow = 0#9 ∧ t.nnode = 0#9 ∧
      t.ntop = 0#9 ∧ ∀ x : Symbol, t.cntAt x = 0#32 ∧ (t.cbAt x).valid = false) ∧
    ((∃ rest, s.port = .reset :: rest) ∨
      ∃ w rest, s.port = .word w :: rest ∧ decode (s.wordsWith w) = .ok .clear)

/-- R211: the phase transitions a command can make, and no other. -/
def Obligations.PhaseTransitions : Prop :=
  ∀ (i : Instr) (s t : State), exec i s = .next t → t.phase ≠ s.phase →
    (i = .clear ∧ t.phase = .idle) ∨
    (∃ x, i = .sym x ∧ s.phase = .idle ∧ t.phase = .count) ∨
    (i = .build ∧ s.phase = .count ∧ 2 ≤ s.nseen.toNat ∧ t.phase = .ready) ∨
    (∃ n : Index, i = .ldsize n ∧ 1 ≤ n.toNat ∧ n.toNat ≤ 256 ∧ s.phase = .idle ∧ t.phase = .load) ∨
    (∃ x len m code, i = .ldrow x len m code ∧ s.phase = .load ∧ t.nrow = t.tsize ∧ t.phase = .ready) ∨
    (t.phase = .err ∧ ∃ e info, s.ErrorEntered e info t)

/-- R212 with the INFO values of R190: every cell of the legality matrix that is an error or a drop. -/
def Obligations.LegalityMatrixErrors : Prop :=
  ∀ s : State,
    (∀ x : Symbol, (s.phase = .load → s.Raises (.sym x) .seq 0x1002#16) ∧
      (s.phase = .ready → s.Raises (.sym x) .seq 0x1003#16)) ∧
    ((s.phase = .idle → s.Raises .build .empty 0#16) ∧ (s.phase = .load → s.Raises .build .seq 0x2002#16) ∧
      (s.phase = .ready → s.Raises .build .seq 0x2003#16)) ∧
    (∀ x : Symbol, (s.phase = .idle → s.Raises (.enc x) .seq 0x3000#16) ∧
      (s.phase = .count → s.Raises (.enc x) .seq 0x3001#16) ∧ (s.phase = .load → s.Raises (.enc x) .seq 0x3002#16)) ∧
    ((s.phase = .idle → s.Raises .tblout .seq 0x3100#16) ∧ (s.phase = .count → s.Raises .tblout .seq 0x3101#16) ∧
      (s.phase = .load → s.Raises .tblout .seq 0x3102#16)) ∧
    (∀ n : Index, (s.phase = .count → s.Raises (.ldsize n) .seq 0x4001#16) ∧
      (s.phase = .load → s.Raises (.ldsize n) .seq 0x4002#16) ∧
      (s.phase = .ready → s.Raises (.ldsize n) .seq 0x4003#16)) ∧
    (∀ x len m code, (s.phase = .idle → s.Raises (.ldrow x len m code) .seq 0x4100#16) ∧
      (s.phase = .count → s.Raises (.ldrow x len m code) .seq 0x4101#16) ∧
      (s.phase = .ready → s.Raises (.ldrow x len m code) .seq 0x4103#16)) ∧
    (∀ b : Bool, s.phase = .idle ∨ s.phase = .count ∨ s.phase = .load → s.Raises (.dbit b) .notable 0x0048#16) ∧
    (s.phase = .idle ∨ s.phase = .count ∨ s.phase = .load → s.Raises .dend .notable 0x0049#16)

/-! ### System commands -/

/-- R180: NOP is the all-zero word and changes nothing in any phase; a zero word that arrives inside an LDROW is no NOP:
it is held as that LDROW's data, and as its tenth word it completes that LDROW. -/
def Obligations.NopDoesNothing : Prop :=
  encode .nop = [0x00000000#32] ∧ (∀ s : State, exec .nop s = .next s) ∧
    ∀ (s : State) (rest : List PortEvent), s.port = .word 0#32 :: rest → s.cwn ≠ 0 → opcodeOf (s.cwAt 0) = 0x41#8 →
      (s.cwn.val < 9 →
        ∃ t, step s = .next t ∧ s.SameCore t ∧ t.cwAt s.cwn.val = 0#32 ∧ t.cwn.val = s.cwn.val + 1) ∧
      (s.cwn.val = 9 → ∃ s', s.TakesWord 0#32 rest s' ∧ step s = runCommand (s.cwList 9 ++ [0#32]) s')

/-- R181: what CLEAR writes, in every phase, and everything it leaves alone. -/
def Obligations.ClearStartsANewSession : Prop :=
  encode .clear = [0x01000000#32] ∧ ∀ s : State, ∃ t, exec .clear s = .next t ∧
    (t.phase = .idle ∧ t.cbValid = false ∧ t.treeValid = false ∧ t.src = false ∧ t.pstate = .idle ∧
      t.err = ErrReg.none ∧ t.errLine = false) ∧
    (t.total = 0#32 ∧ t.tsize = 0#9 ∧ t.nseen = 0#9 ∧ t.nrow = 0#9 ∧ t.nnode = 0#9 ∧ t.ntop = 0#9 ∧ t.root = 0x1FF#9) ∧
    (t.acc = BitString.empty ∧ t.buf = BitString.empty) ∧
    (∀ x : Symbol, t.cntAt x = 0#32 ∧ (t.cbAt x).valid = false ∧ (t.cbAt x).word = (s.cbAt x).word) ∧
    ((∀ j : Nat, t.fseenAt j = s.fseenAt j) ∧ (∀ i : Nat, t.tblAt i = s.tblAt i) ∧ s.SameTree t) ∧
    s.SameStreams t ∧ s.SameAssembler t

/-- R182: after CLEAR the core is the reset state but for the streams and the command assembler, as far as any command
can tell. -/
def Obligations.ClearIsResetButForStreams : Prop :=
  ∀ s : State, ∃ t, exec .clear s = .next t ∧
    State.Indistinguishable t
      { State.reset with
        rsp := s.rsp, bout := s.bout, sout := s.sout, cw := s.cw, cwn := s.cwn, port := s.port }

/-- R183, R36, R35: RDREG of each register number appends that register's value, zero-extended, and does nothing else. -/
def Obligations.RdregReadsTheRegister : Prop :=
  ∀ (s : State) (r : Index), Index.NamesRegister r = true →
    ∃ v t, exec (.rdreg r) s = .next t ∧ s.OnlyAppendsRsp [v] t ∧
      (r = 0x00#9 → v = s.status) ∧ (r = 0x01#9 → v = s.err.toWord) ∧ (r = 0x02#9 → v = s.total) ∧
      (r = 0x03#9 → v.toNat = s.tsize.toNat) ∧ (r = 0x04#9 → v.toNat = s.nseen.toNat) ∧
      (r = 0x05#9 → v.toNat = s.nrow.toNat) ∧ (r = 0x06#9 → v.toNat = s.nnode.toNat) ∧
      (r = 0x07#9 → v.toNat = s.ntop.toNat) ∧ (r = 0x08#9 → v.toNat = s.root.toNat) ∧
      ∀ k : Nat, k < 8 → r.toNat = 0x10 + k → v = s.buf.bits.extractLsb' (32 * k) 32

/-! ### Read-out of the tables -/

/-- R111, R134, R145: RDCNT, RDNODE and RDCODE, in every phase, append one, three and nine words and do nothing else;
what the words hold, field by field. -/
def Obligations.ReadOutCommandsAppendTheirRecords : Prop :=
  ∀ s : State,
    (∀ x : Symbol, ∃ t, exec (.rdcnt x) s = .next t ∧ s.OnlyAppendsRsp [s.cntAt x] t) ∧
    (∀ n : Index, ∃ w0 w1 w2 t, exec (.rdnode n) s = .next t ∧ s.OnlyAppendsRsp [w0, w1, w2] t ∧
      (s.treeValid = true ∧ n.toNat < s.nnode.toNat →
        (w0.getLsbD 31 = true ∧ w0.getLsbD 30 = (s.nodeAt n.toNat).leaf ∧ w0.getLsbD 29 = (s.nodeAt n.toNat).lbit ∧
          w0.getLsbD 28 = (s.nodeAt n.toNat).rbit ∧ w0.extractLsb' 8 20 = 0#20 ∧
          w0.extractLsb' 0 8 = (s.nodeAt n.toNat).sym) ∧ w1 = (s.nodeAt n.toNat).w ∧
        (w2.extractLsb' 25 7 = 0#7 ∧ w2.extractLsb' 16 9 = (s.nodeAt n.toNat).right ∧ w2.extractLsb' 9 7 = 0#7 ∧
          w2.extractLsb' 0 9 = (s.nodeAt n.toNat).left)) ∧
      (¬ (s.treeValid = true ∧ n.toNat < s.nnode.toNat) → w0 = 0#32 ∧ w1 = 0#32 ∧ w2 = 0#32)) ∧
    ∀ x : Symbol, ∃ w0 ws t, exec (.rdcode x) s = .next t ∧ s.OnlyAppendsRsp (w0 :: ws) t ∧ ws.length = 8 ∧
      (w0.getLsbD 31 = (s.cbAt x).valid ∧ w0.extractLsb' 24 7 = 0#7 ∧ w0.extractLsb' 8 8 = 0#8 ∧
        w0.extractLsb' 0 8 = x) ∧
      ((s.cbAt x).valid = true → w0.extractLsb' 16 8 = (s.cbAt x).word.len ∧
        ∀ k : Nat, k < 8 → ws[k]? = some ((s.cbAt x).word.bits.extractLsb' (32 * k) 32)) ∧
      ((s.cbAt x).valid = false → w0.extractLsb' 16 8 = 0#8 ∧ ws = List.replicate 8 0#32)

/-! ### The FrequencyTable unit -/

/-- R110: an accepted SYM, with its frame. -/
def Obligations.SymCountsOneOccurrence : Prop :=
  ∀ (s : State) (x : Symbol), s.phase = .idle ∨ s.phase = .count → s.total ≠ 0xFFFFFFFF#32 →
    (s.cntAt x = 0#32 → s.nseen.toNat < 256) →
    ∃ t, exec (.sym x) s = .next t ∧ t.phase = .count ∧ t.total.toNat = s.total.toNat + 1 ∧
      (∀ y : Symbol, t.cntAt y = if y = x then s.cntAt x + 1#32 else s.cntAt y) ∧
      (s.cntAt x = 0#32 → t.nseen.toNat = s.nseen.toNat + 1 ∧
        ∀ j : Nat, t.fseenAt j = if j = s.nseen.toNat then x else s.fseenAt j) ∧
      (s.cntAt x ≠ 0#32 → t.nseen = s.nseen ∧ ∀ j : Nat, t.fseenAt j = s.fseenAt j) ∧
      (t.cbValid = s.cbValid ∧ t.treeValid = s.treeValid ∧ t.src = s.src ∧ t.pstate = s.pstate ∧ t.err = s.err) ∧
      (t.tsize = s.tsize ∧ t.nrow = s.nrow ∧ t.nnode = s.nnode ∧ t.ntop = s.ntop ∧ t.root = s.root) ∧
      s.SameStrings t ∧ s.SameTree t ∧ s.SameBook t ∧ s.SameStreams t ∧ s.SameAssembler t

/-- R110, R113: with TOTAL = 2^32 − 1 SYM counts nothing and raises E_CNTOVF. -/
def Obligations.SymAtTheLimitCountsNothing : Prop :=
  ∀ (s : State) (x : Symbol), s.phase = .idle ∨ s.phase = .count → s.total = 0xFFFFFFFF#32 →
    s.Raises (.sym x) .cntovf (x.setWidth 16)

/-! ### The HuffmanTree unit -/

/-- R115, R121: BUILD over no symbol and over one symbol. -/
def Obligations.BuildRejectsFewerThanTwoSymbols : Prop :=
  ∀ s : State, (s.phase = .idle → s.Raises .build .empty 0#16) ∧
    (s.phase = .count → s.nseen = 1#9 → s.Raises .build .single ((s.fseenAt 0).setWidth 16))

/-- R120, R33: BUILD over K = 2 to 256 symbols completes; its registers, and everything it does not write. -/
def Obligations.BuildCompletes : Prop :=
  ∀ s : State, s.phase = .count → 2 ≤ s.nseen.toNat → s.nseen.toNat ≤ 256 →
    ∃ t, exec .build s = .next t ∧
      (t.phase = .ready ∧ t.cbValid = true ∧ t.treeValid = true ∧ t.src = s.src ∧ t.pstate = s.pstate ∧ t.err = s.err) ∧
      (t.tsize = s.nseen ∧ t.nrow = s.nseen ∧ t.nnode.toNat = 2 * s.nseen.toNat - 1 ∧ t.ntop = 1#9 ∧
        t.root.toNat = 2 * s.nseen.toNat - 2 ∧ t.topsAt 0 = t.root) ∧
      (t.total = s.total ∧ t.nseen = s.nseen) ∧ (t.acc = BitString.empty ∧ t.buf = BitString.empty) ∧
      s.SameCounts t ∧ (∀ i : Nat, s.nseen.toNat ≤ i → t.tblAt i = s.tblAt i) ∧
      (∀ n : Nat, 2 * s.nseen.toNat - 1 ≤ n → t.nodeAt n = s.nodeAt n) ∧
      (∀ j : Nat, s.nseen.toNat ≤ j → t.topsAt j = s.topsAt j) ∧ s.SameStreams t ∧ s.SameAssembler t

/-- R122: the j-th symbol seen goes to the row whose number is how many symbols have a greater count, or the same count
and were seen before it; the rows are then in descending order, equal counts in first-seen order. -/
def Obligations.BuildSortsTheTable : Prop :=
  ∀ s t : State, s.phase = .count → 2 ≤ s.nseen.toNat → s.nseen.toNat ≤ 256 → exec .build s = .next t →
    let k := s.nseen.toNat
    let count (j : Nat) : Nat := (s.cntAt (s.fseenAt j)).toNat
    let rank (j : Nat) : Nat :=
      ((List.range k).filter fun j' => decide (count j < count j') || (decide (count j' = count j) && decide (j' < j))).length
    (∀ j, j < k → rank j < k ∧ t.tblAt (rank j) = ⟨s.fseenAt j, s.cntAt (s.fseenAt j)⟩) ∧
    (t.tsize = s.nseen ∧ t.nrow = s.nseen) ∧
    (∀ j j', j < k → j' < k → rank j = rank j' → j = j') ∧
    (∀ i, i + 1 < k → (t.tblAt (i + 1)).metaWord.toNat ≤ (t.tblAt i).metaWord.toNat) ∧
    ∀ j j', j < j' → j' < k → count j = count j' → rank j < rank j'

/-- R125 to R129: a merge step on a sorted list of existing nodes takes its last two elements as left and right child of
the next node, gives the smaller weight bit 1 (the right child on equal weights), and leaves the list sorted, with the new
node after every element of equal or greater weight. -/
def Obligations.MergeStepKeepsTheListSorted : Prop :=
  ∀ s : State, 2 ≤ s.ntop.toNat → s.ntop.toNat ≤ 256 → s.nnode.toNat < 511 →
    let w (u : State) (t : Index) : Nat := (u.nodeAt t.toNat).w.toNat
    let old := s.topsList s.ntop.toNat
    (∀ t ∈ old, t.toNat < s.nnode.toNat) → old.Pairwise (fun a b => w s b ≤ w s a) →
    (∀ a b : Index, [a, b].Sublist old → w s a + w s b < 2 ^ 32) →
    let u := s.mergeStep
    let l := s.topsAt (s.ntop.toNat - 2)
    let r := s.topsAt (s.ntop.toNat - 1)
    let new := u.topsList u.ntop.toNat
    (u.ntop.toNat + 1 = s.ntop.toNat ∧ u.nnode.toNat = s.nnode.toNat + 1) ∧
    ((u.nodeAt s.nnode.toNat).leaf = false ∧ (u.nodeAt s.nnode.toNat).sym = 0#8 ∧
      w u s.nnode = w s l + w s r ∧ (u.nodeAt s.nnode.toNat).left = l ∧ (u.nodeAt s.nnode.toNat).right = r ∧
      (u.nodeAt s.nnode.toNat).lbit = false ∧ (u.nodeAt s.nnode.toNat).rbit = true) ∧
    (∀ n : Nat, n ≠ s.nnode.toNat → u.nodeAt n = s.nodeAt n) ∧
    new.Pairwise (fun a b => w u b ≤ w u a) ∧
    new.Perm (s.nnode :: s.topsList (s.ntop.toNat - 2)) ∧
    ∀ j : Nat, j < u.ntop.toNat → u.topsAt j = s.nnode →
      ∀ j' : Nat, j < j' → j' < u.ntop.toNat → w u (u.topsAt j') < w u s.nnode

/-- R124, R127, R128, R132: from a state that meets the invariants BUILD makes one proper binary tree over the sorted
table: leaves first, then the internal nodes, each child below its parent and the child of one parent only. -/
def Obligations.BuildMakesAProperTree : Prop :=
  ∀ s t : State, s.Inv → s.phase = .count → 2 ≤ s.nseen.toNat → exec .build s = .next t →
    let k := s.nseen.toNat
    (∀ n, n < k → t.nodeAt n = ⟨true, (t.tblAt n).sym, (t.tblAt n).metaWord, 0x1FF#9, 0x1FF#9, false, false⟩) ∧
    (∀ n n', n < k → n' < k → (t.nodeAt n).sym = (t.nodeAt n').sym → n = n') ∧
    (∀ n, k ≤ n → n < 2 * k - 1 →
      let nd := t.nodeAt n
      (nd.leaf = false ∧ nd.sym = 0#8 ∧ nd.lbit = false ∧ nd.rbit = true) ∧
      (nd.left.toNat < n ∧ nd.right.toNat < n ∧ nd.left ≠ nd.right) ∧
      nd.w.toNat = (t.nodeAt nd.left.toNat).w.toNat + (t.nodeAt nd.right.toNat).w.toNat) ∧
    ∀ c, c < 2 * k - 2 → ∃ p, (k ≤ p ∧ p < 2 * k - 1 ∧ ((t.nodeAt p).left.toNat = c ∨ (t.nodeAt p).right.toNat = c)) ∧
      ∀ q, k ≤ q → q < 2 * k - 1 → ((t.nodeAt q).left.toNat = c ∨ (t.nodeAt q).right.toNat = c) → q = p

/-! ### The CodeBook unit -/

/-- R141, R142: after BUILD the code book is exactly the root-to-leaf paths: the codeword of each leaf's symbol leads
from ROOT to that leaf, and every valid codeword leads to the leaf of its symbol. -/
def Obligations.CodewordsAreRootToLeafPaths : Prop :=
  ∀ s t : State, s.Inv → s.phase = .count → 2 ≤ s.nseen.toNat → exec .build s = .next t →
    (∀ n : Index, n.toNat < s.nseen.toNat →
      (t.cbAt (t.nodeAt n.toNat).sym).valid = true ∧
        t.follow t.root (t.cbAt (t.nodeAt n.toNat).sym).word.toList = some n) ∧
    ∀ x : Symbol, (t.cbAt x).valid = true →
      ∃ n : Index, n.toNat < s.nseen.toNat ∧ (t.nodeAt n.toNat).leaf = true ∧ (t.nodeAt n.toNat).sym = x ∧
        t.follow t.root (t.cbAt x).word.toList = some n

/-- R143, R144, R146: BUILD gives exactly the counted symbols a codeword, each of length 1 to K − 1, no codeword a prefix
of another's, and the Kraft sum is exactly 1. -/
def Obligations.BuiltCodeBookIsPrefixFreeAndFull : Prop :=
  ∀ s t : State, s.Inv → s.phase = .count → 2 ≤ s.nseen.toNat → exec .build s = .next t →
    (∀ x : Symbol, (t.cbAt x).valid = true ↔ s.cntAt x ≠ 0#32) ∧
    (∀ x : Symbol, (t.cbAt x).valid = true →
      1 ≤ (t.cbAt x).word.len.toNat ∧ (t.cbAt x).word.len.toNat ≤ s.nseen.toNat - 1) ∧
    (∀ x y : Symbol, (t.cbAt x).valid = true → (t.cbAt y).valid = true → x ≠ y →
      ¬ (t.cbAt x).word.toList <+: (t.cbAt y).word.toList) ∧
    (t.validSymbols.map fun x => 2 ^ (255 - (t.cbAt x).word.len.toNat)).sum = 2 ^ 255

/-! ### The Encoder -/

/-- R150: ENC of a symbol with a codeword appends its bits, position 0 first, and writes nothing else; without a codeword
it raises E_NOCODE. -/
def Obligations.EncEmitsTheCodeword : Prop :=
  ∀ (s : State) (x : Symbol), s.phase = .ready →
    ((s.cbAt x).valid = true → ∃ t bits, exec (.enc x) s = .next t ∧ t.bout = s.bout ++ bits ∧
      bits.length = (s.cbAt x).word.len.toNat ∧
      (∀ i : Nat, i < bits.length → bits[i]? = some ((s.cbAt x).word.bits.getLsbD i)) ∧
      t.rsp = s.rsp ∧ t.sout = s.sout ∧ s.SameStatus t ∧ s.SameCounters t ∧ s.SameStrings t ∧ s.SameMemories t ∧
      s.SameAssembler t) ∧
    ((s.cbAt x).valid = false → s.Raises (.enc x) .nocode (x.setWidth 16))

/-- R151: TBLOUT appends, word for word, the commands LDSIZE TSIZE and LDROW, TSIZE times, that reload the table in TBL
order, and does nothing else. -/
def Obligations.TbloutEmitsTheReloadCommands : Prop :=
  ∀ s : State, s.phase = .ready → s.tsize.toNat ≤ 256 →
    ∃ t record, exec .tblout s = .next t ∧ s.OnlyAppendsRsp record t ∧ record = commandWords s.reloadCommands ∧
      record.length = 1 + 10 * s.tsize.toNat

/-- R152: ENC over a sequence of symbols that all have codewords appends exactly the concatenation of their codewords. -/
def Obligations.EncodedSequenceIsTheConcatenation : Prop :=
  ∀ (s : State) (text : List Symbol), s.phase = .ready → (∀ x ∈ text, (s.cbAt x).valid = true) →
    ∃ t, execAll (encodeText text) s = .next t ∧
      t.bout = s.bout ++ text.flatMap (fun x => (s.cbAt x).word.toList) ∧ t.rsp = s.rsp ∧ t.sout = s.sout ∧
      s.SameStatus t ∧ s.SameCounters t ∧ s.SameStrings t ∧ s.SameMemories t ∧ s.SameAssembler t

/-! ### The Decoder -/

/-- R160: LDSIZE in IDLE, accepted and refused; in COUNT, LOAD and READY it raises E_SEQ, in ERR it is discarded. -/
def Obligations.LdsizeBeginsALoad : Prop :=
  ∀ (s : State) (n : Index), encode (.ldsize n) = [0x40000000#32 ||| n.setWidth 32] ∧
    (s.phase = .idle → 1 ≤ n.toNat → n.toNat ≤ 256 → ∃ t, exec (.ldsize n) s = .next t ∧
      (t.tsize = n ∧ t.nrow = 0#9 ∧ t.src = true ∧ t.phase = .load) ∧
      (t.cbValid = s.cbValid ∧ t.treeValid = s.treeValid ∧ t.pstate = s.pstate ∧ t.err = s.err) ∧
      (t.total = s.total ∧ t.nseen = s.nseen ∧ t.nnode = s.nnode ∧ t.ntop = s.ntop ∧ t.root = s.root) ∧
      s.SameStrings t ∧ s.SameMemories t ∧ s.SameStreams t ∧ s.SameAssembler t) ∧
    (s.phase = .idle → n.toNat = 0 ∨ 256 < n.toNat → s.Raises (.ldsize n) .tsize (n.setWidth 16)) ∧
    ((s.phase = .count → s.Raises (.ldsize n) .seq 0x4001#16) ∧ (s.phase = .load → s.Raises (.ldsize n) .seq 0x4002#16) ∧
      (s.phase = .ready → s.Raises (.ldsize n) .seq 0x4003#16) ∧ (s.phase = .err → exec (.ldsize n) s = .next s))

/-- R162: the four checks of LDROW in LOAD, in order, each with its INFO; the first that fails raises its error and
nothing is written. -/
def Obligations.LdrowChecksInOrder : Prop :=
  ∀ (s : State) (x : Symbol) (len : BitVec 8) (m : Word) (code : CodeBits), s.phase = .load →
    let info (hi : BitVec 8) : BitVec 16 := hi.setWidth 16 <<< 8 ||| x.setWidth 16
    let related (t : Symbol) : Prop :=
      (s.cbAt t).valid = true ∧
        ((s.cbAt t).word.toList <+: (rowCodeword len code).toList ∨ (rowCodeword len code).toList <+: (s.cbAt t).word.toList)
    (len = 0#8 → s.Raises (.ldrow x len m code) .badrow (info len)) ∧
    (len ≠ 0#8 → (∃ i : Nat, len.toNat ≤ i ∧ i ≤ 255 ∧ code.getLsbD i = true) →
      s.Raises (.ldrow x len m code) .badrow (info len)) ∧
    (len ≠ 0#8 → (∀ i : Nat, len.toNat ≤ i → i ≤ 255 → code.getLsbD i = false) → (s.cbAt x).valid = true →
      s.Raises (.ldrow x len m code) .dupsym (x.setWidth 16)) ∧
    (len ≠ 0#8 → (∀ i : Nat, len.toNat ≤ i → i ≤ 255 → code.getLsbD i = false) → (s.cbAt x).valid = false →
      ∀ t : Symbol, related t → (∀ u : Symbol, u.toNat < t.toNat → ¬ related u) →
        s.Raises (.ldrow x len m code) .collide (info t))

/-- R163: an LDROW that passes the checks of R162 stores the row; the row that makes NROW = TSIZE makes the core READY. -/
def Obligations.LdrowCommitsTheRow : Prop :=
  ∀ (s : State) (x : Symbol) (len : BitVec 8) (m : Word) (code : CodeBits), s.phase = .load → s.nrow.toNat < 256 →
    len ≠ 0#8 → (∀ i : Nat, len.toNat ≤ i → i ≤ 255 → code.getLsbD i = false) → (s.cbAt x).valid = false →
    (∀ t : Symbol, (s.cbAt t).valid = true →
      ¬ (s.cbAt t).word.toList <+: (rowCodeword len code).toList ∧ ¬ (rowCodeword len code).toList <+: (s.cbAt t).word.toList) →
    ∃ t, exec (.ldrow x len m code) s = .next t ∧
      (∀ y : Symbol, t.cbAt y = if y = x then ⟨true, ⟨len, code⟩⟩ else s.cbAt y) ∧
      (∀ i : Nat, t.tblAt i = if i = s.nrow.toNat then ⟨x, m⟩ else s.tblAt i) ∧ t.nrow.toNat = s.nrow.toNat + 1 ∧
      (s.nrow.toNat + 1 = s.tsize.toNat → t.phase = .ready ∧ t.cbValid = true ∧ t.buf = BitString.empty) ∧
      (s.nrow.toNat + 1 ≠ s.tsize.toNat → t.phase = .load ∧ t.cbValid = s.cbValid ∧ t.buf = s.buf) ∧
      (t.treeValid = s.treeValid ∧ t.src = s.src ∧ t.pstate = s.pstate ∧ t.err = s.err) ∧
      (t.total = s.total ∧ t.tsize = s.tsize ∧ t.nseen = s.nseen ∧ t.nnode = s.nnode ∧ t.ntop = s.ntop ∧ t.root = s.root) ∧
      t.acc = s.acc ∧ s.SameCounts t ∧ s.SameTree t ∧ s.SameStreams t ∧ s.SameAssembler t

/-- R167, R168, R170: DBIT in READY. With 255 bits in BUF the bit is not stored and E_BUFOVF is raised; else the bit is
appended, and if the bits then are a symbol's codeword that one symbol is emitted and BUF is emptied. -/
def Obligations.DbitAcceptsOneBit : Prop :=
  ∀ (s : State) (b : Bool), s.phase = .ready →
    (s.buf.len = 255#8 → s.Raises (.dbit b) .bufovf 255#16) ∧
    (s.buf.len ≠ 255#8 → s.buf.stored = true → s.PrefixFree →
      let hit (x : Symbol) : Prop := (s.cbAt x).valid = true ∧ (s.cbAt x).word.toList = s.buf.toList ++ [b]
      ∃ t, exec (.dbit b) s = .next t ∧
        ((∃ x, hit x ∧ (∀ y, hit y → y = x) ∧ t.sout = s.sout ++ [x] ∧ t.buf = BitString.empty) ∨
          ((∀ x, ¬ hit x) ∧ t.sout = s.sout ∧ t.buf.toList = s.buf.toList ++ [b] ∧ t.buf.stored = true)) ∧
        t.acc = s.acc ∧ t.rsp = s.rsp ∧ t.bout = s.bout ∧ s.SameStatus t ∧ s.SameCounters t ∧ s.SameMemories t ∧
        s.SameAssembler t)

/-- R169: DEND in READY with an empty buffer changes nothing, with bits left it raises E_TRUNC with their number; before
READY it raises E_NOTABLE, in ERR it is discarded. -/
def Obligations.DendChecksTheBuffer : Prop :=
  encode .dend = [0x49000000#32] ∧
  ∀ s : State, (s.phase = .ready → s.buf.len = 0#8 → exec .dend s = .next s) ∧
    (s.phase = .ready → s.buf.len ≠ 0#8 → s.Raises .dend .trunc (s.buf.len.setWidth 16)) ∧
    (s.phase = .idle ∨ s.phase = .count ∨ s.phase = .load → s.Raises .dend .notable 0x0049#16) ∧
    (s.phase = .err → exec .dend s = .next s)

/-! ### Laws of coding -/

/-- R171, R172 on any READY state, built or loaded, with nothing buffered: decoding what ENC emitted for a sequence of
symbols gives the sequence back, raises nothing and ends with BUF empty. -/
def Obligations.DecodingInvertsEncoding : Prop :=
  ∀ (s : State) (text : List Symbol), s.Inv → s.phase = .ready → s.buf.len = 0#8 →
    (∀ x ∈ text, (s.cbAt x).valid = true) →
    ∃ t u, execAll (encodeText text) s = .next t ∧
      execAll (expandBits (t.bout.drop s.bout.length)) t = .next u ∧ u.sout = s.sout ++ text ∧ u.phase = .ready ∧
      u.buf = BitString.empty

/-- R171: the whole session on one core. For every sequence of at most 2^32 − 1 symbols with two distinct ones, counting,
building, encoding and decoding it from any state that meets the invariants gives it back. -/
def Obligations.SessionRoundTrip : Prop :=
  ∀ (s : State) (text : List Symbol), s.Inv → text.length < 2 ^ 32 → (∃ a ∈ text, ∃ b ∈ text, a ≠ b) →
    ∃ t u, execAll (compressText text) s = .next t ∧
      execAll (expandBits (t.bout.drop s.bout.length)) t = .next u ∧ u.sout = s.sout ++ text ∧ u.phase = .ready ∧
      u.buf = BitString.empty ∧ u.err = ErrReg.none

/-- R171 over two cores: `s` counts, builds, emits its table and encodes; the words of its RSP record, then one DBIT a
payload bit and DEND, sent to the command port of any core `u` in IDLE, append exactly the sequence to SOUT there. -/
def Obligations.TwoCoreRoundTrip : Prop :=
  ∀ (s u : State) (text : List Symbol), s.Inv → u.Inv → u.phase = .idle → u.cwn = 0 → text.length < 2 ^ 32 →
    (∃ a ∈ text, ∃ b ∈ text, a ≠ b) →
    ∃ t v, execAll (compressText text) s = .next t ∧
      (let words := t.rsp.drop s.rsp.length ++ commandWords (expandBits (t.bout.drop s.bout.length))
       Host.Core.run Sys2Proof.core words.length (u.withWords words) = .next v) ∧
      v.sout = u.sout ++ text ∧ v.phase = .ready ∧ v.buf = BitString.empty ∧ v.err = ErrReg.none

/-- R151, R164: the words TBLOUT emits, sent back on the command port of a core in IDLE, rebuild the same code book and
the same table, and raise nothing. -/
def Obligations.TableRecordReloads : Prop :=
  ∀ s u : State, s.Inv → s.phase = .ready → u.Inv → u.phase = .idle → u.cwn = 0 →
    ∃ v : State, Host.Core.run Sys2Proof.core (commandWords s.reloadCommands).length
        (u.withWords (commandWords s.reloadCommands)) = .next v ∧
      v.phase = .ready ∧ v.src = true ∧ v.err = ErrReg.none ∧ v.tsize = s.tsize ∧ v.nrow = s.nrow ∧ v.port = [] ∧
      (∀ i : Nat, i < s.tsize.toNat → v.tblAt i = s.tblAt i) ∧
      ∀ x : Symbol, (v.cbAt x).valid = (s.cbAt x).valid ∧ ((s.cbAt x).valid = true → (v.cbAt x).word = (s.cbAt x).word)

/-- R146, R170: with a code book made by BUILD the decoder buffer never holds 255 bits, so E_BUFOVF cannot occur: DBIT of
either bit goes on in READY and raises nothing. -/
def Obligations.BuiltCodeNeverFillsTheBuffer : Prop :=
  ∀ s : State, s.Inv → s.phase = .ready → s.src = false → s.buf.len ≠ 255#8 ∧
    ∀ b : Bool, ∃ t, exec (.dbit b) s = .next t ∧ t.phase = .ready ∧ t.err = ErrReg.none

/-! ### Invariants -/

/-- The reset state meets the invariants of R46 and its memories are in canonical form. -/
def Obligations.ResetMeetsTheInvariants : Prop := State.reset.Inv ∧ Memory.wf State.reset = true

/-- Every step keeps the canonical form of the memories (20_memory.md R60, R61: no entry outside a memory is written). -/
def Obligations.StepKeepsMemoriesCanonical : Prop :=
  ∀ s t : State, Memory.wf s = true → step s = .next t → Memory.wf t = true

/-- R46 item 1, R31, R114: after every step TOTAL is the sum of the counts and FSEEN lists the counted symbols once each. -/
def Obligations.StepKeepsTheCounts : Prop :=
  ∀ s t : State, s.Inv → step s = .next t → t.CountingInv

/-- R46 items 2, 3 and 4, R34: what IDLE, COUNT and LOAD mean for every register and table, and ACC is empty. -/
def Obligations.StepKeepsThePhaseMeanings : Prop :=
  ∀ s t : State, s.Inv → step s = .next t → t.IdleInv ∧ t.CountInv ∧ t.LoadInv ∧ t.acc = BitString.empty

/-- R46 item 5, R114: what READY means, after a build and after a load. -/
def Obligations.StepKeepsTheReadyMeaning : Prop :=
  ∀ s t : State, s.Inv → step s = .next t → t.ReadyInv

/-- R46 item 6: after every step the valid codewords are non-empty and no one is a prefix of another. -/
def Obligations.StepKeepsTheCodeBookPrefixFree : Prop :=
  ∀ s t : State, s.Inv → step s = .next t → t.PrefixFree

/-- R46 item 7: after every step no valid codeword is a prefix of BUF, and BUF holds bits only in READY or in ERR entered
from READY. -/
def Obligations.StepKeepsTheBufferUnmatched : Prop :=
  ∀ s t : State, s.Inv → step s = .next t → t.BufferInv

/-- R46 items 8 and 9, R25, R29, R44: ERR.CODE is non-zero exactly in ERR, CB_VALID is 1 exactly in READY and in ERR
entered from READY, PSTATE is 0 outside ERR, an incomplete command is an LDROW. -/
def Obligations.StepKeepsTheErrorRecord : Prop :=
  ∀ s t : State, s.Inv → step s = .next t → t.ErrorInv ∧ t.AssemblerInv

/-- R146: a code book made by BUILD is complete: every sequence of 255 bits begins with a codeword. -/
def Obligations.StepKeepsBuiltCodesComplete : Prop :=
  ∀ s t : State, s.Inv → step s = .next t → t.CompleteInv

/-- R61, R70, R71: no command fails to complete for want of an entry: from every state that meets the invariants a step
goes on. -/
def Obligations.NoStepStops : Prop :=
  ∀ s : State, s.Inv → ∃ t, step s = .next t

/-- R220, R47 (93 U19): two states that differ only in contents R47 leaves unspecified go on alike: the same outputs,
registers and reachable contents after every step. So no claim rests on the values log entry 1 chose. -/
def Obligations.UnspecifiedContentsAreUnobservable : Prop :=
  ∀ a b a' : State, a.Inv → b.Inv → a.Indistinguishable b → step a = .next a' →
    ∃ b', step b = .next b' ∧ a'.Indistinguishable b'

/-! ### Whole-machine rules -/

/-- R66, R67, R68: RSP grows only by RDREG, RDCNT, RDNODE, RDCODE and TBLOUT, BOUT only by ENC, SOUT only by DBIT, and
no command takes anything from a stream (R43). -/
def Obligations.StreamsGrowOnlyByTheirCommands : Prop :=
  ∀ (i : Instr) (s t : State), exec i s = .next t →
    (s.rsp <+: t.rsp ∧ s.bout <+: t.bout ∧ s.sout <+: t.sout) ∧
    (t.rsp ≠ s.rsp → (∃ r, i = .rdreg r) ∨ (∃ x, i = .rdcnt x) ∨ (∃ n, i = .rdnode n) ∨ (∃ x, i = .rdcode x) ∨ i = .tblout) ∧
    (t.bout ≠ s.bout → ∃ x, i = .enc x) ∧ (t.sout ≠ s.sout → ∃ b x, i = .dbit b ∧ t.sout = s.sout ++ [x])

/-- R21, R24 to R27, R29 to R35, R43, R44, R60: which commands write each register, flag, table memory and stream; error
entry alone, beside CLEAR, writes ERR and PSTATE, and no command writes CW, CWN or the port. -/
def Obligations.WritersOfEachElement : Prop :=
  ∀ (i : Instr) (s t : State), exec i s = .next t →
    (t.phase ≠ s.phase → i = .clear ∨ (∃ x, i = .sym x) ∨ i = .build ∨ (∃ n, i = .ldsize n) ∨
      (∃ x len m code, i = .ldrow x len m code) ∨ ∃ e info, s.ErrorEntered e info t) ∧
    ((t.err ≠ s.err ∨ t.pstate ≠ s.pstate) → i = .clear ∨ ∃ e info, s.ErrorEntered e info t) ∧
    (t.acc ≠ s.acc → i = .build ∨ i = .clear) ∧
    ((t.total ≠ s.total ∨ t.nseen ≠ s.nseen) → (∃ x, i = .sym x) ∨ i = .clear) ∧
    (t.tsize ≠ s.tsize → i = .build ∨ (∃ n, i = .ldsize n) ∨ i = .clear) ∧
    (t.nrow ≠ s.nrow → i = .build ∨ (∃ n, i = .ldsize n) ∨ (∃ x len m code, i = .ldrow x len m code) ∨ i = .clear) ∧
    ((t.nnode ≠ s.nnode ∨ t.ntop ≠ s.ntop ∨ t.root ≠ s.root ∨ t.treeValid ≠ s.treeValid) → i = .build ∨ i = .clear) ∧
    (t.src ≠ s.src → (∃ n, i = .ldsize n) ∨ i = .clear) ∧
    (t.cbValid ≠ s.cbValid → i = .build ∨ (∃ x len m code, i = .ldrow x len m code) ∨ i = .clear) ∧
    (t.buf ≠ s.buf → (∃ b, i = .dbit b) ∨ i = .build ∨ (∃ x len m code, i = .ldrow x len m code) ∨ i = .clear) ∧
    ((∃ x : Symbol, t.cntAt x ≠ s.cntAt x) → (∃ x, i = .sym x) ∨ i = .clear) ∧
    ((∃ j : Nat, t.fseenAt j ≠ s.fseenAt j) → ∃ x, i = .sym x) ∧
    ((∃ j : Nat, t.tblAt j ≠ s.tblAt j) → i = .build ∨ ∃ x len m code, i = .ldrow x len m code) ∧
    (((∃ n : Nat, t.nodeAt n ≠ s.nodeAt n) ∨ ∃ j : Nat, t.topsAt j ≠ s.topsAt j) → i = .build) ∧
    ((∃ x : Symbol, t.cbAt x ≠ s.cbAt x) → i = .build ∨ (∃ x len m code, i = .ldrow x len m code) ∨ i = .clear) ∧
    (t.rsp ≠ s.rsp → (∃ r, i = .rdreg r) ∨ (∃ x, i = .rdcnt x) ∨ (∃ n, i = .rdnode n) ∨ (∃ x, i = .rdcode x) ∨ i = .tblout) ∧
    (t.bout ≠ s.bout → ∃ x, i = .enc x) ∧ (t.sout ≠ s.sout → ∃ b, i = .dbit b) ∧ s.SameAssembler t

/-! ### The text layout -/

/-- R100 to R104: the text a host writes from a table of 1 to 256 rows and a payload reads back as CLEAR, LDSIZE, the
rows in order with their symbols and codewords, the payload bits and DEND, whatever P_FMT_PROB is so long as it writes no
TAB. META of the read rows is the host's choice (R104). -/
def Obligations.TextLayoutReadsBack : Prop :=
  ∀ (fmt : Word → Nat → List TextByte) (metaOf : List TextByte → Word) (rows : List (Symbol × Word × List Bool))
    (payload : List Bool), (∀ m total, tabByte ∉ fmt m total) → 1 ≤ rows.length → rows.length ≤ 256 →
    (∀ r ∈ rows, r.2.2.length ≤ 255) →
    let total := (rows.map fun r => r.2.1.toNat).sum
    let row (m : Word) (r : Symbol × Word × List Bool) : Instr :=
      .ldrow r.1 (bitStringOf r.2.2).len m (bitStringOf r.2.2).bits
    let record := commandWords (.ldsize (BitVec.ofNat 9 rows.length) :: rows.map fun r => row r.2.1 r)
    readText metaOf (renderText fmt record payload) =
      some ([.clear, .ldsize (BitVec.ofNat 9 rows.length)] ++
        rows.map (fun r => row (metaOf (fmt r.2.1 total)) r) ++ expandBits payload)
end

