-- ==== Sys2Proof/Laws/BitStrings.lean ====
section
/-! SUPPORT. The laws of stored bit strings: append and pop act on the bit sequence, and prefix tests are list prefixes. -/

namespace Sys2Proof.Machine

/-- A bit of a value with one bit set. -/
theorem setBit_bit (v : CodeBits) (i j : Nat) (b : Bool) (hi : i < 256) :
    (setBit v i b).getLsbD j = if j = i then b else v.getLsbD j := by
  by_cases hj : j < 256
  · by_cases h : j = i
    · subst h
      cases b <;> simp [setBit, hj]
    · by_cases hlt : j < i
      · cases b <;> simp [setBit, hj, h, hlt]
      · have h1 : j - i ≠ 0 := by omega
        cases b <;> simp [setBit, hj, h, hlt, h1]
  · have h : j ≠ i := by omega
    rw [if_neg h, BitVec.getLsbD_of_ge _ _ (by omega), BitVec.getLsbD_of_ge _ _ (by omega)]

@[simp] theorem BitString.empty_toList : BitString.empty.toList = [] := rfl

@[simp] theorem BitString.toList_length (c : BitString) : c.toList.length = c.len.toNat := by
  simp [BitString.toList]

theorem BitString.getElem_toList (c : BitString) (i : Nat) (h : i < c.toList.length) : c.toList[i] = c.bit i := by
  simp [BitString.toList]

/-- A stored string has no bit set at or above its length. -/
theorem BitString.stored_iff (c : BitString) :
    c.stored = true ↔ ∀ i, c.len.toNat ≤ i → c.bits.getLsbD i = false := by
  constructor
  · intro h i hi
    by_cases hlt : i < 256
    · have := h
      simp only [BitString.stored, hasStrayBits, Bool.not_eq_true', List.any_eq_false, List.mem_range] at this
      simpa [hi] using this i hlt
    · exact BitVec.getLsbD_of_ge _ _ (by omega)
  · intro h
    simp only [BitString.stored, hasStrayBits, Bool.not_eq_true', List.any_eq_false, List.mem_range]
    intro i _
    by_cases hi : c.len.toNat ≤ i
    · simp [h i hi]
    · simp [hi]

theorem BitString.empty_stored : BitString.empty.stored = true := by
  rw [BitString.stored_iff]; intro i _; simp [BitString.empty]

theorem BitString.snoc_len (c : BitString) (b : Bool) (h : c.len ≠ 255#8) :
    (c.snoc b).len.toNat = c.len.toNat + 1 := by
  have := c.len.isLt
  have h' : c.len.toNat ≠ 255 := fun e => h (BitVec.eq_of_toNat_eq (by simpa using e))
  simp only [BitString.snoc, BitVec.toNat_add, BitVec.toNat_ofNat]
  omega

/-- Appending a bit appends it to the sequence (R10, R11). -/
theorem BitString.snoc_toList (c : BitString) (b : Bool) (h : c.len ≠ 255#8) :
    (c.snoc b).toList = c.toList ++ [b] := by
  have hl := BitString.snoc_len c b h
  have hb := c.len.isLt
  apply List.ext_getElem
  · simp [hl]
  · intro i h1 h2
    rw [BitString.toList_length, hl] at h1
    rw [BitString.getElem_toList]
    simp only [BitString.bit, BitString.snoc]
    rw [setBit_bit _ _ _ _ (by omega)]
    by_cases hi : i = c.len.toNat
    · simp [hi, List.getElem_append_right]
    · have hlt : i < c.toList.length := by rw [BitString.toList_length]; omega
      rw [if_neg hi, List.getElem_append_left hlt, BitString.getElem_toList]; rfl

theorem BitString.snoc_stored (c : BitString) (b : Bool) (h : c.len ≠ 255#8) (hs : c.stored = true) :
    (c.snoc b).stored = true := by
  rw [BitString.stored_iff] at hs ⊢
  intro i hi
  rw [BitString.snoc_len c b h] at hi
  have hb := c.len.isLt
  simp only [BitString.snoc]
  rw [setBit_bit _ _ _ _ (by omega), if_neg (by omega)]
  exact hs i (by omega)

/-- pop undoes an append (42_codebook.md R141). -/
theorem BitString.pop_snoc (c : BitString) (b : Bool) (h : c.len ≠ 255#8) (hs : c.stored = true) :
    (c.snoc b).pop = c := by
  have hl := BitString.snoc_len c b h
  have hb := c.len.isLt
  have hne : (c.snoc b).len ≠ 0#8 := by
    intro e
    rw [e] at hl
    simp at hl
  rw [BitString.stored_iff] at hs
  rw [BitString.pop, if_neg hne]
  cases c with
  | mk len bits =>
    have hbits : setBit (setBit bits len.toNat b) len.toNat false = bits := by
      apply BitVec.eq_of_getLsbD_eq
      intro i hi
      simp only at hb
      rw [setBit_bit _ _ _ _ (by omega), setBit_bit _ _ _ _ (by omega)]
      by_cases hi' : i = len.toNat
      · subst hi'
        simpa using (hs len.toNat (Nat.le_refl _)).symm
      · rw [if_neg hi', if_neg hi']
    have h1 : (BitString.snoc ⟨len, bits⟩ b).len.toNat - 1 = len.toNat := by rw [hl]; simp
    rw [h1]
    simp only [BitString.snoc, BitVec.add_sub_cancel, hbits]

/-- The prefix test of R10 is the prefix relation of the bit sequences. -/
theorem BitString.isPrefixOf_iff (c d : BitString) : c.isPrefixOf d = true ↔ c.toList <+: d.toList := by
  simp only [BitString.isPrefixOf, Bool.and_eq_true, decide_eq_true_eq, List.all_eq_true, List.mem_range, beq_iff_eq]
  constructor
  · rintro ⟨hle, hall⟩
    have hle' : c.len.toNat ≤ d.len.toNat := hle
    rw [List.prefix_iff_eq_take]
    apply List.ext_getElem
    · simp [hle']
    · intro i h1 h2
      rw [BitString.toList_length] at h1
      rw [List.getElem_take, BitString.getElem_toList, BitString.getElem_toList]
      exact hall i h1
  · intro h
    have hle := h.length_le
    rw [BitString.toList_length, BitString.toList_length] at hle
    refine ⟨hle, fun i hi => ?_⟩
    have h1 : i < c.toList.length := by rw [BitString.toList_length]; exact hi
    have := h.getElem h1
    rwa [BitString.getElem_toList, BitString.getElem_toList] at this

/-- Two stored strings with the same sequence are the same data (R11). -/
theorem BitString.eq_of_toList {c d : BitString} (hc : c.stored = true) (hd : d.stored = true)
    (h : c.toList = d.toList) : c = d := by
  have hl : c.len.toNat = d.len.toNat := by rw [← BitString.toList_length, ← BitString.toList_length, h]
  rw [BitString.stored_iff] at hc hd
  cases c with
  | mk cl cb =>
    cases d with
    | mk dl db =>
      have hlen : cl = dl := BitVec.eq_of_toNat_eq hl
      subst hlen
      have hbits : cb = db := by
        apply BitVec.eq_of_getLsbD_eq
        intro i _
        by_cases hi : i < cl.toNat
        · have h1 : i < (BitString.toList ⟨cl, cb⟩).length := by rw [BitString.toList_length]; exact hi
          have h2 : i < (BitString.toList ⟨cl, db⟩).length := by rw [BitString.toList_length]; exact hi
          have := BitString.getElem_toList ⟨cl, cb⟩ i h1
          rw [List.getElem_of_eq h h1, BitString.getElem_toList ⟨cl, db⟩ i h2] at this
          exact this.symm
        · rw [hc i (by simpa using hi), hd i (by simpa using hi)]
      rw [hbits]

end Sys2Proof.Machine
end

