-- ==== Sys2Proof/Laws/Table.lean ====
section
/-! SUPPORT. The laws of a table memory: read after write, and that every memory operation keeps the canonical form. -/

namespace Sys2Proof.Machine

variable {α : Type}

@[simp] theorem Table.read_nil (d : α) (i : Nat) : Table.read d [] i = d := rfl

@[simp] theorem Table.read_cons (d : α) (p : Nat × α) (t : Table α) (i : Nat) :
    Table.read d (p :: t) i = if p.1 = i then p.2 else Table.read d t i := rfl

theorem Table.read_erase_same (d : α) (t : Table α) (i : Nat) : Table.read d (Table.erase t i) i = d := by
  induction t with
  | nil => rfl
  | cons p t ih =>
    by_cases h : p.1 = i
    · simpa [Table.erase, List.filter_cons, h] using ih
    · simpa [Table.erase, List.filter_cons, h] using ih

theorem Table.read_erase_other (d : α) (t : Table α) {i j : Nat} (hij : i ≠ j) :
    Table.read d (Table.erase t i) j = Table.read d t j := by
  induction t with
  | nil => rfl
  | cons p t ih =>
    by_cases h : p.1 = i
    · have hj : p.1 ≠ j := fun e => hij (h ▸ e)
      simpa [Table.erase, List.filter_cons, h, hij] using ih
    · simp only [Table.erase] at ih
      simp [Table.erase, h, ih]

theorem Table.read_insert_other (d : α) (t : Table α) {i j : Nat} (a : α) (hij : i ≠ j) :
    Table.read d (Table.insert t i a) j = Table.read d t j := by
  induction t with
  | nil => simp [Table.insert, hij]
  | cons p t ih =>
    by_cases h : i < p.1
    · simp [Table.insert, h, hij]
    · simp [Table.insert, h, ih]

theorem Table.read_insert_same (d : α) (t : Table α) (i : Nat) (a : α) :
    Table.read d (Table.insert (Table.erase t i) i a) i = a := by
  have key : ∀ t : Table α, (∀ p ∈ t, p.1 ≠ i) → Table.read d (Table.insert t i a) i = a := by
    intro t
    induction t with
    | nil => intro _; simp [Table.insert]
    | cons p t ih =>
      intro h
      by_cases hlt : i < p.1
      · simp [Table.insert, hlt]
      · have hp : p.1 ≠ i := h p (by simp)
        simp [Table.insert, hlt, hp, ih fun q hq => h q (by simp [hq])]
  exact key _ fun p hp => by simpa [Table.erase] using (List.mem_filter.mp hp).2

variable [DecidableEq α]

/-- A read of the entry just written gives what was written. -/
@[simp] theorem Table.read_write_same (d : α) (t : Table α) (i : Nat) (a : α) :
    Table.read d (Table.write d t i a) i = a := by
  by_cases h : a = d
  · simp [Table.write, h, Table.read_erase_same]
  · simp [Table.write, h, Table.read_insert_same]

/-- A write leaves every other entry alone. -/
theorem Table.read_write_other (d : α) (t : Table α) {i j : Nat} (a : α) (hij : i ≠ j) :
    Table.read d (Table.write d t i a) j = Table.read d t j := by
  by_cases h : a = d
  · simp [Table.write, h, Table.read_erase_other d t hij]
  · simp [Table.write, h, Table.read_insert_other d _ a hij, Table.read_erase_other d t hij]

/-- Everything a write does to a read. -/
theorem Table.read_write (d : α) (t : Table α) (i j : Nat) (a : α) :
    Table.read d (Table.write d t i a) j = if i = j then a else Table.read d t j := by
  by_cases h : i = j
  · subst h; simp
  · simp [h, Table.read_write_other d t a h]

/-- Everything a write of a list of entries does to a read. -/
theorem Table.read_writeList (d : α) (as : List α) (t : Table α) (i j : Nat) :
    Table.read d (Table.writeList d t i as) j =
      if i ≤ j then (as[j - i]?).getD (Table.read d t j) else Table.read d t j := by
  induction as generalizing t i with
  | nil => simp [Table.writeList]
  | cons a as ih =>
    rw [Table.writeList, ih, Table.read_write]
    by_cases h1 : i + 1 ≤ j
    · have h2 : i ≤ j := by omega
      have h3 : i ≠ j := by omega
      have h4 : j - i = (j - (i + 1)) + 1 := by omega
      simp only [h1, h2, h3, if_true, if_false, h4, List.getElem?_cons_succ]
    · by_cases h2 : i = j
      · subst h2; simp
      · have h3 : ¬ i ≤ j := by omega
        simp [h1, h2, h3]

/-- Everything clearing every VALID bit does to a read: VALID is 0, LEN and BITS are as before. -/
theorem read_invalidateAll (cb : Table Code) (i : Nat) :
    Table.read Code.zero (invalidateAll cb) i = { Table.read Code.zero cb i with valid := false } := by
  have key : ∀ (ps t : Table Code),
      Table.read Code.zero (ps.foldl (fun t p => Table.write Code.zero t p.1
        { Table.read Code.zero t p.1 with valid := false }) t) i =
        if ∃ p ∈ ps, p.1 = i then { Table.read Code.zero t i with valid := false } else Table.read Code.zero t i := by
    intro ps
    induction ps with
    | nil => intro t; simp
    | cons p ps ih =>
      intro t
      rw [List.foldl_cons, ih, Table.read_write]
      by_cases h : p.1 = i
      · subst h; simp
      · have hmem : (∃ q ∈ p :: ps, q.1 = i) ↔ ∃ q ∈ ps, q.1 = i := by simp [h]
        simp only [h, if_false, hmem]
  have absent : ∀ t : Table Code, (¬ ∃ p ∈ t, p.1 = i) → Table.read Code.zero t i = Code.zero := by
    intro t
    induction t with
    | nil => intro _; rfl
    | cons p t ih =>
      intro h
      have hp : p.1 ≠ i := fun e => h ⟨p, by simp, e⟩
      rw [Table.read_cons, if_neg hp]
      exact ih fun ⟨q, hq, e⟩ => h ⟨q, by simp [hq], e⟩
  rw [invalidateAll, key]
  by_cases h : ∃ p ∈ cb, p.1 = i
  · rw [if_pos h]
  · rw [if_neg h, absent cb h]; rfl

/-! ### The canonical form -/

theorem Table.wfFrom_mono (d : α) {size lo lo' : Nat} {t : Table α} (h : lo' ≤ lo)
    (hw : Table.wfFrom d size lo t = true) : Table.wfFrom d size lo' t = true := by
  cases t with
  | nil => rfl
  | cons p t =>
    simp only [Table.wfFrom, Bool.and_eq_true, decide_eq_true_eq] at hw ⊢
    exact ⟨⟨⟨by omega, hw.1.1.2⟩, hw.1.2⟩, hw.2⟩

theorem Table.wfFrom_erase (d : α) {size lo : Nat} {t : Table α} (i : Nat)
    (hw : Table.wfFrom d size lo t = true) : Table.wfFrom d size lo (Table.erase t i) = true := by
  induction t generalizing lo with
  | nil => rfl
  | cons p t ih =>
    simp only [Table.wfFrom, Bool.and_eq_true, decide_eq_true_eq] at hw
    have hrest := ih hw.2
    by_cases h : p.1 = i
    · have hr := Table.wfFrom_mono d (lo' := lo) (by omega) hrest
      simpa [Table.erase, List.filter_cons, h] using hr
    · simp only [Table.erase] at hrest
      simp only [Table.erase, List.filter_cons, h, decide_false, Bool.not_false, if_true, Table.wfFrom,
        Bool.and_eq_true, decide_eq_true_eq]
      exact ⟨hw.1, hrest⟩

theorem Table.wfFrom_insert (d : α) {size lo : Nat} {t : Table α} {i : Nat} {a : α} (hlo : lo ≤ i) (hi : i < size)
    (ha : a ≠ d) (hne : ∀ p ∈ t, p.1 ≠ i) (hw : Table.wfFrom d size lo t = true) :
    Table.wfFrom d size lo (Table.insert t i a) = true := by
  induction t generalizing lo with
  | nil => simp [Table.insert, Table.wfFrom, hlo, hi, ha]
  | cons p t ih =>
    simp only [Table.wfFrom, Bool.and_eq_true, decide_eq_true_eq] at hw
    have hp : p.1 ≠ i := hne p (by simp)
    by_cases h : i < p.1
    · simp only [Table.insert, h, if_true, Table.wfFrom, Bool.and_eq_true, decide_eq_true_eq]
      exact ⟨⟨⟨hlo, hi⟩, by simpa using ha⟩, ⟨⟨⟨by omega, hw.1.1.2⟩, hw.1.2⟩, hw.2⟩⟩
    · simp only [Table.insert, h, if_false, Table.wfFrom, Bool.and_eq_true, decide_eq_true_eq]
      exact ⟨hw.1, ih (by omega) (fun q hq => hne q (by simp [hq])) hw.2⟩

/-- A write inside the memory keeps the canonical form. -/
theorem Table.wf_write (d : α) {size : Nat} {t : Table α} {i : Nat} (a : α) (hi : i < size)
    (hw : Table.wf d size t = true) : Table.wf d size (Table.write d t i a) = true := by
  have he := Table.wfFrom_erase d i hw
  by_cases h : a = d
  · simpa [Table.wf, Table.write, h] using he
  · have hne : ∀ p ∈ Table.erase t i, p.1 ≠ i := fun p hp => by
      simpa [Table.erase] using (List.mem_filter.mp hp).2
    simpa [Table.wf, Table.write, h] using Table.wfFrom_insert d (Nat.zero_le i) hi h hne he

/-- Writing a list of entries inside the memory keeps the canonical form. -/
theorem Table.wf_writeList (d : α) {size : Nat} (as : List α) {t : Table α} {i : Nat} (hi : i + as.length ≤ size)
    (hw : Table.wf d size t = true) : Table.wf d size (Table.writeList d t i as) = true := by
  induction as generalizing t i with
  | nil => exact hw
  | cons a as ih =>
    simp only [List.length_cons] at hi
    exact ih (by omega) (Table.wf_write d a (by omega) hw)

theorem Table.wfFrom_index_lt (d : α) {size lo : Nat} {t : Table α} (hw : Table.wfFrom d size lo t = true) :
    ∀ p ∈ t, p.1 < size := by
  induction t generalizing lo with
  | nil => simp
  | cons q t ih =>
    simp only [Table.wfFrom, Bool.and_eq_true, decide_eq_true_eq] at hw
    intro p hp
    rcases List.mem_cons.mp hp with rfl | hp
    · exact hw.1.1.2
    · exact ih hw.2 p hp

/-- Clearing every VALID bit keeps the canonical form. -/
theorem wf_invalidateAll {size : Nat} {cb : Table Code} (hw : Table.wf Code.zero size cb = true) :
    Table.wf Code.zero size (invalidateAll cb) = true := by
  have key : ∀ (ps t : Table Code), (∀ p ∈ ps, p.1 < size) → Table.wf Code.zero size t = true →
      Table.wf Code.zero size (ps.foldl (fun t p => Table.write Code.zero t p.1
        { Table.read Code.zero t p.1 with valid := false }) t) = true := by
    intro ps
    induction ps with
    | nil => intro t _ ht; exact ht
    | cons p ps ih =>
      intro t hps ht
      exact ih _ (fun q hq => hps q (by simp [hq])) (Table.wf_write _ _ (hps p (by simp)) ht)
  exact key cb cb (Table.wfFrom_index_lt _ hw) hw

/-- Below every listed index a canonical table reads as unlisted. -/
theorem Table.read_of_lt (d : α) {size lo i : Nat} {t : Table α} (hw : Table.wfFrom d size lo t = true) (hi : i < lo) :
    Table.read d t i = d := by
  induction t generalizing lo with
  | nil => rfl
  | cons p t ih =>
    simp only [Table.wfFrom, Bool.and_eq_true, decide_eq_true_eq] at hw
    have hp : p.1 ≠ i := by omega
    simp [hp, ih hw.2 (by omega)]

/-- Two canonical tables that read the same everywhere are the same data. -/
theorem Table.eq_of_read (d : α) {size lo : Nat} {t u : Table α} (ht : Table.wfFrom d size lo t = true)
    (hu : Table.wfFrom d size lo u = true) (h : ∀ i, Table.read d t i = Table.read d u i) : t = u := by
  induction t generalizing lo u with
  | nil =>
    cases u with
    | nil => rfl
    | cons q u =>
      simp only [Table.wfFrom, Bool.and_eq_true, Bool.not_eq_true', decide_eq_false_iff_not] at hu
      exact absurd (by simpa using (h q.1).symm) hu.1.2
  | cons p t ih =>
    have htp := ht
    simp only [Table.wfFrom, Bool.and_eq_true, Bool.not_eq_true', decide_eq_false_iff_not, decide_eq_true_eq] at ht
    cases u with
    | nil => exact absurd (by simpa using h p.1) ht.1.2
    | cons q u =>
      have huq := hu
      simp only [Table.wfFrom, Bool.and_eq_true, Bool.not_eq_true', decide_eq_false_iff_not, decide_eq_true_eq] at hu
      have hkey : p.1 = q.1 := by
        by_contra hne
        rcases Nat.lt_or_gt_of_ne hne with hlt | hgt
        · have hq : Table.read d (q :: u) p.1 = d := by
            rw [Table.read_cons, if_neg (by omega)]
            exact Table.read_of_lt d hu.2 (by omega)
          exact ht.1.2 (by simpa [hq] using h p.1)
        · have hp : Table.read d (p :: t) q.1 = d := by
            rw [Table.read_cons, if_neg (by omega)]
            exact Table.read_of_lt d ht.2 (by omega)
          exact hu.1.2 (by simpa [hp] using (h q.1).symm)
      have hval : p.2 = q.2 := by simpa [hkey] using h p.1
      have hrest : t = u := ih ht.2 (hkey ▸ hu.2) fun i => by
        by_cases hi : i = p.1
        · subst hi
          rw [Table.read_of_lt d ht.2 (by omega), Table.read_of_lt d (hkey ▸ hu.2) (by omega)]
        · have h1 : p.1 ≠ i := fun e => hi e.symm
          have h2 : q.1 ≠ i := hkey ▸ h1
          simpa [h1, h2] using h i
      rw [hrest, Prod.ext hkey hval]

end Sys2Proof.Machine
end

