-- ==== Sys2Proof/Laws/State.lean ====
section
/-! SUPPORT. What each named update of State does to each field and to each table read, one lemma a field and update:
no proof unfolds a record update. -/

namespace Sys2Proof.Machine

section
variable (s : State) (ws : List Word)

@[simp] theorem State.emitRsp_phase : (s.emitRsp ws).phase = s.phase := rfl
@[simp] theorem State.emitRsp_cbValid : (s.emitRsp ws).cbValid = s.cbValid := rfl
@[simp] theorem State.emitRsp_treeValid : (s.emitRsp ws).treeValid = s.treeValid := rfl
@[simp] theorem State.emitRsp_src : (s.emitRsp ws).src = s.src := rfl
@[simp] theorem State.emitRsp_pstate : (s.emitRsp ws).pstate = s.pstate := rfl
@[simp] theorem State.emitRsp_err : (s.emitRsp ws).err = s.err := rfl
@[simp] theorem State.emitRsp_total : (s.emitRsp ws).total = s.total := rfl
@[simp] theorem State.emitRsp_tsize : (s.emitRsp ws).tsize = s.tsize := rfl
@[simp] theorem State.emitRsp_nseen : (s.emitRsp ws).nseen = s.nseen := rfl
@[simp] theorem State.emitRsp_nrow : (s.emitRsp ws).nrow = s.nrow := rfl
@[simp] theorem State.emitRsp_nnode : (s.emitRsp ws).nnode = s.nnode := rfl
@[simp] theorem State.emitRsp_ntop : (s.emitRsp ws).ntop = s.ntop := rfl
@[simp] theorem State.emitRsp_root : (s.emitRsp ws).root = s.root := rfl
@[simp] theorem State.emitRsp_acc : (s.emitRsp ws).acc = s.acc := rfl
@[simp] theorem State.emitRsp_buf : (s.emitRsp ws).buf = s.buf := rfl
@[simp] theorem State.emitRsp_cnt : (s.emitRsp ws).cnt = s.cnt := rfl
@[simp] theorem State.emitRsp_fseen : (s.emitRsp ws).fseen = s.fseen := rfl
@[simp] theorem State.emitRsp_tbl : (s.emitRsp ws).tbl = s.tbl := rfl
@[simp] theorem State.emitRsp_node : (s.emitRsp ws).node = s.node := rfl
@[simp] theorem State.emitRsp_tops : (s.emitRsp ws).tops = s.tops := rfl
@[simp] theorem State.emitRsp_cb : (s.emitRsp ws).cb = s.cb := rfl
@[simp] theorem State.emitRsp_cw : (s.emitRsp ws).cw = s.cw := rfl
@[simp] theorem State.emitRsp_cwn : (s.emitRsp ws).cwn = s.cwn := rfl
@[simp] theorem State.emitRsp_rsp : (s.emitRsp ws).rsp = s.rsp ++ ws := rfl
@[simp] theorem State.emitRsp_bout : (s.emitRsp ws).bout = s.bout := rfl
@[simp] theorem State.emitRsp_sout : (s.emitRsp ws).sout = s.sout := rfl
@[simp] theorem State.emitRsp_port : (s.emitRsp ws).port = s.port := rfl
@[simp] theorem State.emitRsp_cntAt (x : Symbol) : (s.emitRsp ws).cntAt x = s.cntAt x := rfl
@[simp] theorem State.emitRsp_fseenAt (j : Nat) : (s.emitRsp ws).fseenAt j = s.fseenAt j := rfl
@[simp] theorem State.emitRsp_tblAt (i : Nat) : (s.emitRsp ws).tblAt i = s.tblAt i := rfl
@[simp] theorem State.emitRsp_nodeAt (n : Nat) : (s.emitRsp ws).nodeAt n = s.nodeAt n := rfl
@[simp] theorem State.emitRsp_topsAt (j : Nat) : (s.emitRsp ws).topsAt j = s.topsAt j := rfl
@[simp] theorem State.emitRsp_cbAt (x : Symbol) : (s.emitRsp ws).cbAt x = s.cbAt x := rfl
@[simp] theorem State.emitRsp_cwAt (k : Nat) : (s.emitRsp ws).cwAt k = s.cwAt k := rfl

end

section
variable (s : State) (bs : List Bool)

@[simp] theorem State.emitBout_phase : (s.emitBout bs).phase = s.phase := rfl
@[simp] theorem State.emitBout_cbValid : (s.emitBout bs).cbValid = s.cbValid := rfl
@[simp] theorem State.emitBout_treeValid : (s.emitBout bs).treeValid = s.treeValid := rfl
@[simp] theorem State.emitBout_src : (s.emitBout bs).src = s.src := rfl
@[simp] theorem State.emitBout_pstate : (s.emitBout bs).pstate = s.pstate := rfl
@[simp] theorem State.emitBout_err : (s.emitBout bs).err = s.err := rfl
@[simp] theorem State.emitBout_total : (s.emitBout bs).total = s.total := rfl
@[simp] theorem State.emitBout_tsize : (s.emitBout bs).tsize = s.tsize := rfl
@[simp] theorem State.emitBout_nseen : (s.emitBout bs).nseen = s.nseen := rfl
@[simp] theorem State.emitBout_nrow : (s.emitBout bs).nrow = s.nrow := rfl
@[simp] theorem State.emitBout_nnode : (s.emitBout bs).nnode = s.nnode := rfl
@[simp] theorem State.emitBout_ntop : (s.emitBout bs).ntop = s.ntop := rfl
@[simp] theorem State.emitBout_root : (s.emitBout bs).root = s.root := rfl
@[simp] theorem State.emitBout_acc : (s.emitBout bs).acc = s.acc := rfl
@[simp] theorem State.emitBout_buf : (s.emitBout bs).buf = s.buf := rfl
@[simp] theorem State.emitBout_cnt : (s.emitBout bs).cnt = s.cnt := rfl
@[simp] theorem State.emitBout_fseen : (s.emitBout bs).fseen = s.fseen := rfl
@[simp] theorem State.emitBout_tbl : (s.emitBout bs).tbl = s.tbl := rfl
@[simp] theorem State.emitBout_node : (s.emitBout bs).node = s.node := rfl
@[simp] theorem State.emitBout_tops : (s.emitBout bs).tops = s.tops := rfl
@[simp] theorem State.emitBout_cb : (s.emitBout bs).cb = s.cb := rfl
@[simp] theorem State.emitBout_cw : (s.emitBout bs).cw = s.cw := rfl
@[simp] theorem State.emitBout_cwn : (s.emitBout bs).cwn = s.cwn := rfl
@[simp] theorem State.emitBout_rsp : (s.emitBout bs).rsp = s.rsp := rfl
@[simp] theorem State.emitBout_bout : (s.emitBout bs).bout = s.bout ++ bs := rfl
@[simp] theorem State.emitBout_sout : (s.emitBout bs).sout = s.sout := rfl
@[simp] theorem State.emitBout_port : (s.emitBout bs).port = s.port := rfl
@[simp] theorem State.emitBout_cntAt (x : Symbol) : (s.emitBout bs).cntAt x = s.cntAt x := rfl
@[simp] theorem State.emitBout_fseenAt (j : Nat) : (s.emitBout bs).fseenAt j = s.fseenAt j := rfl
@[simp] theorem State.emitBout_tblAt (i : Nat) : (s.emitBout bs).tblAt i = s.tblAt i := rfl
@[simp] theorem State.emitBout_nodeAt (n : Nat) : (s.emitBout bs).nodeAt n = s.nodeAt n := rfl
@[simp] theorem State.emitBout_topsAt (j : Nat) : (s.emitBout bs).topsAt j = s.topsAt j := rfl
@[simp] theorem State.emitBout_cbAt (x : Symbol) : (s.emitBout bs).cbAt x = s.cbAt x := rfl
@[simp] theorem State.emitBout_cwAt (k : Nat) : (s.emitBout bs).cwAt k = s.cwAt k := rfl

end

section
variable (s : State) (y : Symbol)

@[simp] theorem State.emitSout_phase : (s.emitSout y).phase = s.phase := rfl
@[simp] theorem State.emitSout_cbValid : (s.emitSout y).cbValid = s.cbValid := rfl
@[simp] theorem State.emitSout_treeValid : (s.emitSout y).treeValid = s.treeValid := rfl
@[simp] theorem State.emitSout_src : (s.emitSout y).src = s.src := rfl
@[simp] theorem State.emitSout_pstate : (s.emitSout y).pstate = s.pstate := rfl
@[simp] theorem State.emitSout_err : (s.emitSout y).err = s.err := rfl
@[simp] theorem State.emitSout_total : (s.emitSout y).total = s.total := rfl
@[simp] theorem State.emitSout_tsize : (s.emitSout y).tsize = s.tsize := rfl
@[simp] theorem State.emitSout_nseen : (s.emitSout y).nseen = s.nseen := rfl
@[simp] theorem State.emitSout_nrow : (s.emitSout y).nrow = s.nrow := rfl
@[simp] theorem State.emitSout_nnode : (s.emitSout y).nnode = s.nnode := rfl
@[simp] theorem State.emitSout_ntop : (s.emitSout y).ntop = s.ntop := rfl
@[simp] theorem State.emitSout_root : (s.emitSout y).root = s.root := rfl
@[simp] theorem State.emitSout_acc : (s.emitSout y).acc = s.acc := rfl
@[simp] theorem State.emitSout_buf : (s.emitSout y).buf = s.buf := rfl
@[simp] theorem State.emitSout_cnt : (s.emitSout y).cnt = s.cnt := rfl
@[simp] theorem State.emitSout_fseen : (s.emitSout y).fseen = s.fseen := rfl
@[simp] theorem State.emitSout_tbl : (s.emitSout y).tbl = s.tbl := rfl
@[simp] theorem State.emitSout_node : (s.emitSout y).node = s.node := rfl
@[simp] theorem State.emitSout_tops : (s.emitSout y).tops = s.tops := rfl
@[simp] theorem State.emitSout_cb : (s.emitSout y).cb = s.cb := rfl
@[simp] theorem State.emitSout_cw : (s.emitSout y).cw = s.cw := rfl
@[simp] theorem State.emitSout_cwn : (s.emitSout y).cwn = s.cwn := rfl
@[simp] theorem State.emitSout_rsp : (s.emitSout y).rsp = s.rsp := rfl
@[simp] theorem State.emitSout_bout : (s.emitSout y).bout = s.bout := rfl
@[simp] theorem State.emitSout_sout : (s.emitSout y).sout = s.sout ++ [y] := rfl
@[simp] theorem State.emitSout_port : (s.emitSout y).port = s.port := rfl
@[simp] theorem State.emitSout_cntAt (x : Symbol) : (s.emitSout y).cntAt x = s.cntAt x := rfl
@[simp] theorem State.emitSout_fseenAt (j : Nat) : (s.emitSout y).fseenAt j = s.fseenAt j := rfl
@[simp] theorem State.emitSout_tblAt (i : Nat) : (s.emitSout y).tblAt i = s.tblAt i := rfl
@[simp] theorem State.emitSout_nodeAt (n : Nat) : (s.emitSout y).nodeAt n = s.nodeAt n := rfl
@[simp] theorem State.emitSout_topsAt (j : Nat) : (s.emitSout y).topsAt j = s.topsAt j := rfl
@[simp] theorem State.emitSout_cbAt (x : Symbol) : (s.emitSout y).cbAt x = s.cbAt x := rfl
@[simp] theorem State.emitSout_cwAt (k : Nat) : (s.emitSout y).cwAt k = s.cwAt k := rfl

end

section
variable (s : State) (e : ErrorKind) (info : BitVec 16)

@[simp] theorem State.raise_phase : (s.raise e info).phase = .err := rfl
@[simp] theorem State.raise_cbValid : (s.raise e info).cbValid = s.cbValid := rfl
@[simp] theorem State.raise_treeValid : (s.raise e info).treeValid = s.treeValid := rfl
@[simp] theorem State.raise_src : (s.raise e info).src = s.src := rfl
@[simp] theorem State.raise_pstate : (s.raise e info).pstate = s.phase := rfl
@[simp] theorem State.raise_err : (s.raise e info).err = errRecord e info := rfl
@[simp] theorem State.raise_total : (s.raise e info).total = s.total := rfl
@[simp] theorem State.raise_tsize : (s.raise e info).tsize = s.tsize := rfl
@[simp] theorem State.raise_nseen : (s.raise e info).nseen = s.nseen := rfl
@[simp] theorem State.raise_nrow : (s.raise e info).nrow = s.nrow := rfl
@[simp] theorem State.raise_nnode : (s.raise e info).nnode = s.nnode := rfl
@[simp] theorem State.raise_ntop : (s.raise e info).ntop = s.ntop := rfl
@[simp] theorem State.raise_root : (s.raise e info).root = s.root := rfl
@[simp] theorem State.raise_acc : (s.raise e info).acc = s.acc := rfl
@[simp] theorem State.raise_buf : (s.raise e info).buf = s.buf := rfl
@[simp] theorem State.raise_cnt : (s.raise e info).cnt = s.cnt := rfl
@[simp] theorem State.raise_fseen : (s.raise e info).fseen = s.fseen := rfl
@[simp] theorem State.raise_tbl : (s.raise e info).tbl = s.tbl := rfl
@[simp] theorem State.raise_node : (s.raise e info).node = s.node := rfl
@[simp] theorem State.raise_tops : (s.raise e info).tops = s.tops := rfl
@[simp] theorem State.raise_cb : (s.raise e info).cb = s.cb := rfl
@[simp] theorem State.raise_cw : (s.raise e info).cw = s.cw := rfl
@[simp] theorem State.raise_cwn : (s.raise e info).cwn = s.cwn := rfl
@[simp] theorem State.raise_rsp : (s.raise e info).rsp = s.rsp := rfl
@[simp] theorem State.raise_bout : (s.raise e info).bout = s.bout := rfl
@[simp] theorem State.raise_sout : (s.raise e info).sout = s.sout := rfl
@[simp] theorem State.raise_port : (s.raise e info).port = s.port := rfl
@[simp] theorem State.raise_cntAt (x : Symbol) : (s.raise e info).cntAt x = s.cntAt x := rfl
@[simp] theorem State.raise_fseenAt (j : Nat) : (s.raise e info).fseenAt j = s.fseenAt j := rfl
@[simp] theorem State.raise_tblAt (i : Nat) : (s.raise e info).tblAt i = s.tblAt i := rfl
@[simp] theorem State.raise_nodeAt (n : Nat) : (s.raise e info).nodeAt n = s.nodeAt n := rfl
@[simp] theorem State.raise_topsAt (j : Nat) : (s.raise e info).topsAt j = s.topsAt j := rfl
@[simp] theorem State.raise_cbAt (x : Symbol) : (s.raise e info).cbAt x = s.cbAt x := rfl
@[simp] theorem State.raise_cwAt (k : Nat) : (s.raise e info).cwAt k = s.cwAt k := rfl

end

section
variable (s : State)

@[simp] theorem State.clearSession_phase : (s.clearSession).phase = .idle := rfl
@[simp] theorem State.clearSession_cbValid : (s.clearSession).cbValid = false := rfl
@[simp] theorem State.clearSession_treeValid : (s.clearSession).treeValid = false := rfl
@[simp] theorem State.clearSession_src : (s.clearSession).src = false := rfl
@[simp] theorem State.clearSession_pstate : (s.clearSession).pstate = .idle := rfl
@[simp] theorem State.clearSession_err : (s.clearSession).err = ErrReg.none := rfl
@[simp] theorem State.clearSession_total : (s.clearSession).total = 0#32 := rfl
@[simp] theorem State.clearSession_tsize : (s.clearSession).tsize = 0#9 := rfl
@[simp] theorem State.clearSession_nseen : (s.clearSession).nseen = 0#9 := rfl
@[simp] theorem State.clearSession_nrow : (s.clearSession).nrow = 0#9 := rfl
@[simp] theorem State.clearSession_nnode : (s.clearSession).nnode = 0#9 := rfl
@[simp] theorem State.clearSession_ntop : (s.clearSession).ntop = 0#9 := rfl
@[simp] theorem State.clearSession_root : (s.clearSession).root = Config.nil := rfl
@[simp] theorem State.clearSession_acc : (s.clearSession).acc = BitString.empty := rfl
@[simp] theorem State.clearSession_buf : (s.clearSession).buf = BitString.empty := rfl
@[simp] theorem State.clearSession_cnt : (s.clearSession).cnt = [] := rfl
@[simp] theorem State.clearSession_fseen : (s.clearSession).fseen = s.fseen := rfl
@[simp] theorem State.clearSession_tbl : (s.clearSession).tbl = s.tbl := rfl
@[simp] theorem State.clearSession_node : (s.clearSession).node = s.node := rfl
@[simp] theorem State.clearSession_tops : (s.clearSession).tops = s.tops := rfl
@[simp] theorem State.clearSession_cb : (s.clearSession).cb = invalidateAll s.cb := rfl
@[simp] theorem State.clearSession_cw : (s.clearSession).cw = s.cw := rfl
@[simp] theorem State.clearSession_cwn : (s.clearSession).cwn = s.cwn := rfl
@[simp] theorem State.clearSession_rsp : (s.clearSession).rsp = s.rsp := rfl
@[simp] theorem State.clearSession_bout : (s.clearSession).bout = s.bout := rfl
@[simp] theorem State.clearSession_sout : (s.clearSession).sout = s.sout := rfl
@[simp] theorem State.clearSession_port : (s.clearSession).port = s.port := rfl
@[simp] theorem State.clearSession_fseenAt (j : Nat) : (s.clearSession).fseenAt j = s.fseenAt j := rfl
@[simp] theorem State.clearSession_tblAt (i : Nat) : (s.clearSession).tblAt i = s.tblAt i := rfl
@[simp] theorem State.clearSession_nodeAt (n : Nat) : (s.clearSession).nodeAt n = s.nodeAt n := rfl
@[simp] theorem State.clearSession_topsAt (j : Nat) : (s.clearSession).topsAt j = s.topsAt j := rfl
@[simp] theorem State.clearSession_cwAt (k : Nat) : (s.clearSession).cwAt k = s.cwAt k := rfl

end

section
variable (s : State) (y : Symbol)

@[simp] theorem State.countSymbol_phase : (s.countSymbol y).phase = .count := rfl
@[simp] theorem State.countSymbol_cbValid : (s.countSymbol y).cbValid = s.cbValid := rfl
@[simp] theorem State.countSymbol_treeValid : (s.countSymbol y).treeValid = s.treeValid := rfl
@[simp] theorem State.countSymbol_src : (s.countSymbol y).src = s.src := rfl
@[simp] theorem State.countSymbol_pstate : (s.countSymbol y).pstate = s.pstate := rfl
@[simp] theorem State.countSymbol_err : (s.countSymbol y).err = s.err := rfl
@[simp] theorem State.countSymbol_total : (s.countSymbol y).total = s.total + 1#32 := rfl
@[simp] theorem State.countSymbol_tsize : (s.countSymbol y).tsize = s.tsize := rfl
@[simp] theorem State.countSymbol_nrow : (s.countSymbol y).nrow = s.nrow := rfl
@[simp] theorem State.countSymbol_nnode : (s.countSymbol y).nnode = s.nnode := rfl
@[simp] theorem State.countSymbol_ntop : (s.countSymbol y).ntop = s.ntop := rfl
@[simp] theorem State.countSymbol_root : (s.countSymbol y).root = s.root := rfl
@[simp] theorem State.countSymbol_acc : (s.countSymbol y).acc = s.acc := rfl
@[simp] theorem State.countSymbol_buf : (s.countSymbol y).buf = s.buf := rfl
@[simp] theorem State.countSymbol_tbl : (s.countSymbol y).tbl = s.tbl := rfl
@[simp] theorem State.countSymbol_node : (s.countSymbol y).node = s.node := rfl
@[simp] theorem State.countSymbol_tops : (s.countSymbol y).tops = s.tops := rfl
@[simp] theorem State.countSymbol_cb : (s.countSymbol y).cb = s.cb := rfl
@[simp] theorem State.countSymbol_cw : (s.countSymbol y).cw = s.cw := rfl
@[simp] theorem State.countSymbol_cwn : (s.countSymbol y).cwn = s.cwn := rfl
@[simp] theorem State.countSymbol_rsp : (s.countSymbol y).rsp = s.rsp := rfl
@[simp] theorem State.countSymbol_bout : (s.countSymbol y).bout = s.bout := rfl
@[simp] theorem State.countSymbol_sout : (s.countSymbol y).sout = s.sout := rfl
@[simp] theorem State.countSymbol_port : (s.countSymbol y).port = s.port := rfl
@[simp] theorem State.countSymbol_tblAt (i : Nat) : (s.countSymbol y).tblAt i = s.tblAt i := rfl
@[simp] theorem State.countSymbol_nodeAt (n : Nat) : (s.countSymbol y).nodeAt n = s.nodeAt n := rfl
@[simp] theorem State.countSymbol_topsAt (j : Nat) : (s.countSymbol y).topsAt j = s.topsAt j := rfl
@[simp] theorem State.countSymbol_cbAt (x : Symbol) : (s.countSymbol y).cbAt x = s.cbAt x := rfl
@[simp] theorem State.countSymbol_cwAt (k : Nat) : (s.countSymbol y).cwAt k = s.cwAt k := rfl

end

section
variable (s : State) (k : Nat)

@[simp] theorem State.sortTable_phase : (s.sortTable k).phase = s.phase := rfl
@[simp] theorem State.sortTable_cbValid : (s.sortTable k).cbValid = s.cbValid := rfl
@[simp] theorem State.sortTable_treeValid : (s.sortTable k).treeValid = s.treeValid := rfl
@[simp] theorem State.sortTable_src : (s.sortTable k).src = s.src := rfl
@[simp] theorem State.sortTable_pstate : (s.sortTable k).pstate = s.pstate := rfl
@[simp] theorem State.sortTable_err : (s.sortTable k).err = s.err := rfl
@[simp] theorem State.sortTable_total : (s.sortTable k).total = s.total := rfl
@[simp] theorem State.sortTable_tsize : (s.sortTable k).tsize = BitVec.ofNat 9 k := rfl
@[simp] theorem State.sortTable_nseen : (s.sortTable k).nseen = s.nseen := rfl
@[simp] theorem State.sortTable_nrow : (s.sortTable k).nrow = BitVec.ofNat 9 k := rfl
@[simp] theorem State.sortTable_nnode : (s.sortTable k).nnode = s.nnode := rfl
@[simp] theorem State.sortTable_ntop : (s.sortTable k).ntop = s.ntop := rfl
@[simp] theorem State.sortTable_root : (s.sortTable k).root = s.root := rfl
@[simp] theorem State.sortTable_acc : (s.sortTable k).acc = s.acc := rfl
@[simp] theorem State.sortTable_buf : (s.sortTable k).buf = s.buf := rfl
@[simp] theorem State.sortTable_cnt : (s.sortTable k).cnt = s.cnt := rfl
@[simp] theorem State.sortTable_fseen : (s.sortTable k).fseen = s.fseen := rfl
@[simp] theorem State.sortTable_node : (s.sortTable k).node = s.node := rfl
@[simp] theorem State.sortTable_tops : (s.sortTable k).tops = s.tops := rfl
@[simp] theorem State.sortTable_cb : (s.sortTable k).cb = s.cb := rfl
@[simp] theorem State.sortTable_cw : (s.sortTable k).cw = s.cw := rfl
@[simp] theorem State.sortTable_cwn : (s.sortTable k).cwn = s.cwn := rfl
@[simp] theorem State.sortTable_rsp : (s.sortTable k).rsp = s.rsp := rfl
@[simp] theorem State.sortTable_bout : (s.sortTable k).bout = s.bout := rfl
@[simp] theorem State.sortTable_sout : (s.sortTable k).sout = s.sout := rfl
@[simp] theorem State.sortTable_port : (s.sortTable k).port = s.port := rfl
@[simp] theorem State.sortTable_cntAt (x : Symbol) : (s.sortTable k).cntAt x = s.cntAt x := rfl
@[simp] theorem State.sortTable_fseenAt (j : Nat) : (s.sortTable k).fseenAt j = s.fseenAt j := rfl
@[simp] theorem State.sortTable_nodeAt (n : Nat) : (s.sortTable k).nodeAt n = s.nodeAt n := rfl
@[simp] theorem State.sortTable_topsAt (j : Nat) : (s.sortTable k).topsAt j = s.topsAt j := rfl
@[simp] theorem State.sortTable_cbAt (x : Symbol) : (s.sortTable k).cbAt x = s.cbAt x := rfl
@[simp] theorem State.sortTable_cwAt (k : Nat) : (s.sortTable k).cwAt k = s.cwAt k := rfl

end

section
variable (s : State) (k : Nat)

@[simp] theorem State.seedTree_phase : (s.seedTree k).phase = s.phase := rfl
@[simp] theorem State.seedTree_cbValid : (s.seedTree k).cbValid = s.cbValid := rfl
@[simp] theorem State.seedTree_treeValid : (s.seedTree k).treeValid = s.treeValid := rfl
@[simp] theorem State.seedTree_src : (s.seedTree k).src = s.src := rfl
@[simp] theorem State.seedTree_pstate : (s.seedTree k).pstate = s.pstate := rfl
@[simp] theorem State.seedTree_err : (s.seedTree k).err = s.err := rfl
@[simp] theorem State.seedTree_total : (s.seedTree k).total = s.total := rfl
@[simp] theorem State.seedTree_tsize : (s.seedTree k).tsize = s.tsize := rfl
@[simp] theorem State.seedTree_nseen : (s.seedTree k).nseen = s.nseen := rfl
@[simp] theorem State.seedTree_nrow : (s.seedTree k).nrow = s.nrow := rfl
@[simp] theorem State.seedTree_nnode : (s.seedTree k).nnode = BitVec.ofNat 9 k := rfl
@[simp] theorem State.seedTree_ntop : (s.seedTree k).ntop = BitVec.ofNat 9 k := rfl
@[simp] theorem State.seedTree_root : (s.seedTree k).root = s.root := rfl
@[simp] theorem State.seedTree_acc : (s.seedTree k).acc = s.acc := rfl
@[simp] theorem State.seedTree_buf : (s.seedTree k).buf = s.buf := rfl
@[simp] theorem State.seedTree_cnt : (s.seedTree k).cnt = s.cnt := rfl
@[simp] theorem State.seedTree_fseen : (s.seedTree k).fseen = s.fseen := rfl
@[simp] theorem State.seedTree_tbl : (s.seedTree k).tbl = s.tbl := rfl
@[simp] theorem State.seedTree_cb : (s.seedTree k).cb = s.cb := rfl
@[simp] theorem State.seedTree_cw : (s.seedTree k).cw = s.cw := rfl
@[simp] theorem State.seedTree_cwn : (s.seedTree k).cwn = s.cwn := rfl
@[simp] theorem State.seedTree_rsp : (s.seedTree k).rsp = s.rsp := rfl
@[simp] theorem State.seedTree_bout : (s.seedTree k).bout = s.bout := rfl
@[simp] theorem State.seedTree_sout : (s.seedTree k).sout = s.sout := rfl
@[simp] theorem State.seedTree_port : (s.seedTree k).port = s.port := rfl
@[simp] theorem State.seedTree_cntAt (x : Symbol) : (s.seedTree k).cntAt x = s.cntAt x := rfl
@[simp] theorem State.seedTree_fseenAt (j : Nat) : (s.seedTree k).fseenAt j = s.fseenAt j := rfl
@[simp] theorem State.seedTree_tblAt (i : Nat) : (s.seedTree k).tblAt i = s.tblAt i := rfl
@[simp] theorem State.seedTree_cbAt (x : Symbol) : (s.seedTree k).cbAt x = s.cbAt x := rfl
@[simp] theorem State.seedTree_cwAt (k : Nat) : (s.seedTree k).cwAt k = s.cwAt k := rfl

end

section
variable (s : State)

@[simp] theorem State.mergeStep_phase : (s.mergeStep).phase = s.phase := rfl
@[simp] theorem State.mergeStep_cbValid : (s.mergeStep).cbValid = s.cbValid := rfl
@[simp] theorem State.mergeStep_treeValid : (s.mergeStep).treeValid = s.treeValid := rfl
@[simp] theorem State.mergeStep_src : (s.mergeStep).src = s.src := rfl
@[simp] theorem State.mergeStep_pstate : (s.mergeStep).pstate = s.pstate := rfl
@[simp] theorem State.mergeStep_err : (s.mergeStep).err = s.err := rfl
@[simp] theorem State.mergeStep_total : (s.mergeStep).total = s.total := rfl
@[simp] theorem State.mergeStep_tsize : (s.mergeStep).tsize = s.tsize := rfl
@[simp] theorem State.mergeStep_nseen : (s.mergeStep).nseen = s.nseen := rfl
@[simp] theorem State.mergeStep_nrow : (s.mergeStep).nrow = s.nrow := rfl
@[simp] theorem State.mergeStep_nnode : (s.mergeStep).nnode = s.nnode + 1#9 := rfl
@[simp] theorem State.mergeStep_ntop : (s.mergeStep).ntop = s.ntop - 1#9 := rfl
@[simp] theorem State.mergeStep_root : (s.mergeStep).root = s.root := rfl
@[simp] theorem State.mergeStep_acc : (s.mergeStep).acc = s.acc := rfl
@[simp] theorem State.mergeStep_buf : (s.mergeStep).buf = s.buf := rfl
@[simp] theorem State.mergeStep_cnt : (s.mergeStep).cnt = s.cnt := rfl
@[simp] theorem State.mergeStep_fseen : (s.mergeStep).fseen = s.fseen := rfl
@[simp] theorem State.mergeStep_tbl : (s.mergeStep).tbl = s.tbl := rfl
@[simp] theorem State.mergeStep_cb : (s.mergeStep).cb = s.cb := rfl
@[simp] theorem State.mergeStep_cw : (s.mergeStep).cw = s.cw := rfl
@[simp] theorem State.mergeStep_cwn : (s.mergeStep).cwn = s.cwn := rfl
@[simp] theorem State.mergeStep_rsp : (s.mergeStep).rsp = s.rsp := rfl
@[simp] theorem State.mergeStep_bout : (s.mergeStep).bout = s.bout := rfl
@[simp] theorem State.mergeStep_sout : (s.mergeStep).sout = s.sout := rfl
@[simp] theorem State.mergeStep_port : (s.mergeStep).port = s.port := rfl
@[simp] theorem State.mergeStep_cntAt (x : Symbol) : (s.mergeStep).cntAt x = s.cntAt x := rfl
@[simp] theorem State.mergeStep_fseenAt (j : Nat) : (s.mergeStep).fseenAt j = s.fseenAt j := rfl
@[simp] theorem State.mergeStep_tblAt (i : Nat) : (s.mergeStep).tblAt i = s.tblAt i := rfl
@[simp] theorem State.mergeStep_cbAt (x : Symbol) : (s.mergeStep).cbAt x = s.cbAt x := rfl
@[simp] theorem State.mergeStep_cwAt (k : Nat) : (s.mergeStep).cwAt k = s.cwAt k := rfl

end

section
variable (s : State)

@[simp] theorem State.finishTree_phase : (s.finishTree).phase = s.phase := rfl
@[simp] theorem State.finishTree_cbValid : (s.finishTree).cbValid = s.cbValid := rfl
@[simp] theorem State.finishTree_treeValid : (s.finishTree).treeValid = true := rfl
@[simp] theorem State.finishTree_src : (s.finishTree).src = s.src := rfl
@[simp] theorem State.finishTree_pstate : (s.finishTree).pstate = s.pstate := rfl
@[simp] theorem State.finishTree_err : (s.finishTree).err = s.err := rfl
@[simp] theorem State.finishTree_total : (s.finishTree).total = s.total := rfl
@[simp] theorem State.finishTree_tsize : (s.finishTree).tsize = s.tsize := rfl
@[simp] theorem State.finishTree_nseen : (s.finishTree).nseen = s.nseen := rfl
@[simp] theorem State.finishTree_nrow : (s.finishTree).nrow = s.nrow := rfl
@[simp] theorem State.finishTree_nnode : (s.finishTree).nnode = s.nnode := rfl
@[simp] theorem State.finishTree_ntop : (s.finishTree).ntop = s.ntop := rfl
@[simp] theorem State.finishTree_root : (s.finishTree).root = s.topsAt 0 := rfl
@[simp] theorem State.finishTree_acc : (s.finishTree).acc = s.acc := rfl
@[simp] theorem State.finishTree_buf : (s.finishTree).buf = s.buf := rfl
@[simp] theorem State.finishTree_cnt : (s.finishTree).cnt = s.cnt := rfl
@[simp] theorem State.finishTree_fseen : (s.finishTree).fseen = s.fseen := rfl
@[simp] theorem State.finishTree_tbl : (s.finishTree).tbl = s.tbl := rfl
@[simp] theorem State.finishTree_node : (s.finishTree).node = s.node := rfl
@[simp] theorem State.finishTree_tops : (s.finishTree).tops = s.tops := rfl
@[simp] theorem State.finishTree_cb : (s.finishTree).cb = s.cb := rfl
@[simp] theorem State.finishTree_cw : (s.finishTree).cw = s.cw := rfl
@[simp] theorem State.finishTree_cwn : (s.finishTree).cwn = s.cwn := rfl
@[simp] theorem State.finishTree_rsp : (s.finishTree).rsp = s.rsp := rfl
@[simp] theorem State.finishTree_bout : (s.finishTree).bout = s.bout := rfl
@[simp] theorem State.finishTree_sout : (s.finishTree).sout = s.sout := rfl
@[simp] theorem State.finishTree_port : (s.finishTree).port = s.port := rfl
@[simp] theorem State.finishTree_cntAt (x : Symbol) : (s.finishTree).cntAt x = s.cntAt x := rfl
@[simp] theorem State.finishTree_fseenAt (j : Nat) : (s.finishTree).fseenAt j = s.fseenAt j := rfl
@[simp] theorem State.finishTree_tblAt (i : Nat) : (s.finishTree).tblAt i = s.tblAt i := rfl
@[simp] theorem State.finishTree_nodeAt (n : Nat) : (s.finishTree).nodeAt n = s.nodeAt n := rfl
@[simp] theorem State.finishTree_topsAt (j : Nat) : (s.finishTree).topsAt j = s.topsAt j := rfl
@[simp] theorem State.finishTree_cbAt (x : Symbol) : (s.finishTree).cbAt x = s.cbAt x := rfl
@[simp] theorem State.finishTree_cwAt (k : Nat) : (s.finishTree).cwAt k = s.cwAt k := rfl

end

section
variable (s : State)

@[simp] theorem State.walk_phase : (s.walk).phase = s.phase := rfl
@[simp] theorem State.walk_cbValid : (s.walk).cbValid = s.cbValid := rfl
@[simp] theorem State.walk_treeValid : (s.walk).treeValid = s.treeValid := rfl
@[simp] theorem State.walk_src : (s.walk).src = s.src := rfl
@[simp] theorem State.walk_pstate : (s.walk).pstate = s.pstate := rfl
@[simp] theorem State.walk_err : (s.walk).err = s.err := rfl
@[simp] theorem State.walk_total : (s.walk).total = s.total := rfl
@[simp] theorem State.walk_tsize : (s.walk).tsize = s.tsize := rfl
@[simp] theorem State.walk_nseen : (s.walk).nseen = s.nseen := rfl
@[simp] theorem State.walk_nrow : (s.walk).nrow = s.nrow := rfl
@[simp] theorem State.walk_nnode : (s.walk).nnode = s.nnode := rfl
@[simp] theorem State.walk_ntop : (s.walk).ntop = s.ntop := rfl
@[simp] theorem State.walk_root : (s.walk).root = s.root := rfl
@[simp] theorem State.walk_buf : (s.walk).buf = s.buf := rfl
@[simp] theorem State.walk_cnt : (s.walk).cnt = s.cnt := rfl
@[simp] theorem State.walk_fseen : (s.walk).fseen = s.fseen := rfl
@[simp] theorem State.walk_tbl : (s.walk).tbl = s.tbl := rfl
@[simp] theorem State.walk_node : (s.walk).node = s.node := rfl
@[simp] theorem State.walk_tops : (s.walk).tops = s.tops := rfl
@[simp] theorem State.walk_cw : (s.walk).cw = s.cw := rfl
@[simp] theorem State.walk_cwn : (s.walk).cwn = s.cwn := rfl
@[simp] theorem State.walk_rsp : (s.walk).rsp = s.rsp := rfl
@[simp] theorem State.walk_bout : (s.walk).bout = s.bout := rfl
@[simp] theorem State.walk_sout : (s.walk).sout = s.sout := rfl
@[simp] theorem State.walk_port : (s.walk).port = s.port := rfl
@[simp] theorem State.walk_cntAt (x : Symbol) : (s.walk).cntAt x = s.cntAt x := rfl
@[simp] theorem State.walk_fseenAt (j : Nat) : (s.walk).fseenAt j = s.fseenAt j := rfl
@[simp] theorem State.walk_tblAt (i : Nat) : (s.walk).tblAt i = s.tblAt i := rfl
@[simp] theorem State.walk_nodeAt (n : Nat) : (s.walk).nodeAt n = s.nodeAt n := rfl
@[simp] theorem State.walk_topsAt (j : Nat) : (s.walk).topsAt j = s.topsAt j := rfl
@[simp] theorem State.walk_cwAt (k : Nat) : (s.walk).cwAt k = s.cwAt k := rfl

end

section
variable (s : State)

@[simp] theorem State.becomeReady_phase : (s.becomeReady).phase = .ready := rfl
@[simp] theorem State.becomeReady_cbValid : (s.becomeReady).cbValid = true := rfl
@[simp] theorem State.becomeReady_treeValid : (s.becomeReady).treeValid = s.treeValid := rfl
@[simp] theorem State.becomeReady_src : (s.becomeReady).src = s.src := rfl
@[simp] theorem State.becomeReady_pstate : (s.becomeReady).pstate = s.pstate := rfl
@[simp] theorem State.becomeReady_err : (s.becomeReady).err = s.err := rfl
@[simp] theorem State.becomeReady_total : (s.becomeReady).total = s.total := rfl
@[simp] theorem State.becomeReady_tsize : (s.becomeReady).tsize = s.tsize := rfl
@[simp] theorem State.becomeReady_nseen : (s.becomeReady).nseen = s.nseen := rfl
@[simp] theorem State.becomeReady_nrow : (s.becomeReady).nrow = s.nrow := rfl
@[simp] theorem State.becomeReady_nnode : (s.becomeReady).nnode = s.nnode := rfl
@[simp] theorem State.becomeReady_ntop : (s.becomeReady).ntop = s.ntop := rfl
@[simp] theorem State.becomeReady_root : (s.becomeReady).root = s.root := rfl
@[simp] theorem State.becomeReady_acc : (s.becomeReady).acc = s.acc := rfl
@[simp] theorem State.becomeReady_buf : (s.becomeReady).buf = BitString.empty := rfl
@[simp] theorem State.becomeReady_cnt : (s.becomeReady).cnt = s.cnt := rfl
@[simp] theorem State.becomeReady_fseen : (s.becomeReady).fseen = s.fseen := rfl
@[simp] theorem State.becomeReady_tbl : (s.becomeReady).tbl = s.tbl := rfl
@[simp] theorem State.becomeReady_node : (s.becomeReady).node = s.node := rfl
@[simp] theorem State.becomeReady_tops : (s.becomeReady).tops = s.tops := rfl
@[simp] theorem State.becomeReady_cb : (s.becomeReady).cb = s.cb := rfl
@[simp] theorem State.becomeReady_cw : (s.becomeReady).cw = s.cw := rfl
@[simp] theorem State.becomeReady_cwn : (s.becomeReady).cwn = s.cwn := rfl
@[simp] theorem State.becomeReady_rsp : (s.becomeReady).rsp = s.rsp := rfl
@[simp] theorem State.becomeReady_bout : (s.becomeReady).bout = s.bout := rfl
@[simp] theorem State.becomeReady_sout : (s.becomeReady).sout = s.sout := rfl
@[simp] theorem State.becomeReady_port : (s.becomeReady).port = s.port := rfl
@[simp] theorem State.becomeReady_cntAt (x : Symbol) : (s.becomeReady).cntAt x = s.cntAt x := rfl
@[simp] theorem State.becomeReady_fseenAt (j : Nat) : (s.becomeReady).fseenAt j = s.fseenAt j := rfl
@[simp] theorem State.becomeReady_tblAt (i : Nat) : (s.becomeReady).tblAt i = s.tblAt i := rfl
@[simp] theorem State.becomeReady_nodeAt (n : Nat) : (s.becomeReady).nodeAt n = s.nodeAt n := rfl
@[simp] theorem State.becomeReady_topsAt (j : Nat) : (s.becomeReady).topsAt j = s.topsAt j := rfl
@[simp] theorem State.becomeReady_cbAt (x : Symbol) : (s.becomeReady).cbAt x = s.cbAt x := rfl
@[simp] theorem State.becomeReady_cwAt (k : Nat) : (s.becomeReady).cwAt k = s.cwAt k := rfl

end

section
variable (s : State) (y : Symbol) (len : BitVec 8) (m : Word) (code : CodeBits)

@[simp] theorem State.storeRow_phase : (s.storeRow y len m code).phase = s.phase := rfl
@[simp] theorem State.storeRow_cbValid : (s.storeRow y len m code).cbValid = s.cbValid := rfl
@[simp] theorem State.storeRow_treeValid : (s.storeRow y len m code).treeValid = s.treeValid := rfl
@[simp] theorem State.storeRow_src : (s.storeRow y len m code).src = s.src := rfl
@[simp] theorem State.storeRow_pstate : (s.storeRow y len m code).pstate = s.pstate := rfl
@[simp] theorem State.storeRow_err : (s.storeRow y len m code).err = s.err := rfl
@[simp] theorem State.storeRow_total : (s.storeRow y len m code).total = s.total := rfl
@[simp] theorem State.storeRow_tsize : (s.storeRow y len m code).tsize = s.tsize := rfl
@[simp] theorem State.storeRow_nseen : (s.storeRow y len m code).nseen = s.nseen := rfl
@[simp] theorem State.storeRow_nrow : (s.storeRow y len m code).nrow = s.nrow + 1#9 := rfl
@[simp] theorem State.storeRow_nnode : (s.storeRow y len m code).nnode = s.nnode := rfl
@[simp] theorem State.storeRow_ntop : (s.storeRow y len m code).ntop = s.ntop := rfl
@[simp] theorem State.storeRow_root : (s.storeRow y len m code).root = s.root := rfl
@[simp] theorem State.storeRow_acc : (s.storeRow y len m code).acc = s.acc := rfl
@[simp] theorem State.storeRow_buf : (s.storeRow y len m code).buf = s.buf := rfl
@[simp] theorem State.storeRow_cnt : (s.storeRow y len m code).cnt = s.cnt := rfl
@[simp] theorem State.storeRow_fseen : (s.storeRow y len m code).fseen = s.fseen := rfl
@[simp] theorem State.storeRow_node : (s.storeRow y len m code).node = s.node := rfl
@[simp] theorem State.storeRow_tops : (s.storeRow y len m code).tops = s.tops := rfl
@[simp] theorem State.storeRow_cw : (s.storeRow y len m code).cw = s.cw := rfl
@[simp] theorem State.storeRow_cwn : (s.storeRow y len m code).cwn = s.cwn := rfl
@[simp] theorem State.storeRow_rsp : (s.storeRow y len m code).rsp = s.rsp := rfl
@[simp] theorem State.storeRow_bout : (s.storeRow y len m code).bout = s.bout := rfl
@[simp] theorem State.storeRow_sout : (s.storeRow y len m code).sout = s.sout := rfl
@[simp] theorem State.storeRow_port : (s.storeRow y len m code).port = s.port := rfl
@[simp] theorem State.storeRow_cntAt (x : Symbol) : (s.storeRow y len m code).cntAt x = s.cntAt x := rfl
@[simp] theorem State.storeRow_fseenAt (j : Nat) : (s.storeRow y len m code).fseenAt j = s.fseenAt j := rfl
@[simp] theorem State.storeRow_nodeAt (n : Nat) : (s.storeRow y len m code).nodeAt n = s.nodeAt n := rfl
@[simp] theorem State.storeRow_topsAt (j : Nat) : (s.storeRow y len m code).topsAt j = s.topsAt j := rfl
@[simp] theorem State.storeRow_cwAt (k : Nat) : (s.storeRow y len m code).cwAt k = s.cwAt k := rfl

end

/-! ### The table reads the updates change -/

theorem State.clearSession_cntAt (s : State) (x : Symbol) : s.clearSession.cntAt x = 0#32 := rfl

theorem State.clearSession_cbAt (s : State) (x : Symbol) :
    s.clearSession.cbAt x = { s.cbAt x with valid := false } := read_invalidateAll s.cb x.toNat

theorem State.countSymbol_cntAt (s : State) (y x : Symbol) :
    (s.countSymbol y).cntAt x = if y = x then s.cntAt y + 1#32 else s.cntAt x := by
  have h : (y.toNat = x.toNat) ↔ y = x := ⟨BitVec.eq_of_toNat_eq, fun h => h ▸ rfl⟩
  simp only [State.cntAt, State.countSymbol, Table.read_write, h]

theorem State.countSymbol_nseen (s : State) (y : Symbol) :
    (s.countSymbol y).nseen = if s.cntAt y = 0#32 then s.nseen + 1#9 else s.nseen := by
  by_cases h : s.cntAt y = 0#32 <;> simp [State.countSymbol, h]

theorem State.countSymbol_fseenAt (s : State) (y : Symbol) (j : Nat) :
    (s.countSymbol y).fseenAt j = if s.cntAt y = 0#32 ∧ s.nseen.toNat = j then y else s.fseenAt j := by
  by_cases h : s.cntAt y = 0#32 <;> simp [State.countSymbol, State.fseenAt, h, Table.read_write]

theorem State.storeRow_cbAt (s : State) (y : Symbol) (len : BitVec 8) (m : Word) (code : CodeBits) (x : Symbol) :
    (s.storeRow y len m code).cbAt x = if y = x then ⟨true, rowCodeword len code⟩ else s.cbAt x := by
  have h : (y.toNat = x.toNat) ↔ y = x := ⟨BitVec.eq_of_toNat_eq, fun h => h ▸ rfl⟩
  simp only [State.cbAt, State.storeRow, Table.read_write, h]

theorem State.storeRow_tblAt (s : State) (y : Symbol) (len : BitVec 8) (m : Word) (code : CodeBits) (i : Nat) :
    (s.storeRow y len m code).tblAt i = if s.nrow.toNat = i then ⟨y, m⟩ else s.tblAt i := by
  simp only [State.tblAt, State.storeRow, Table.read_write]

theorem State.seedTree_nodeAt (k : Nat) (s : State) (n : Nat) :
    (s.seedTree k).nodeAt n = if n < k then leafOf (s.tblAt n) else s.nodeAt n := by
  by_cases h : n < k
  · simp [State.nodeAt, State.seedTree, Table.read_writeList, h]
  · simp [State.nodeAt, State.seedTree, Table.read_writeList, h]

theorem State.seedTree_topsAt (k : Nat) (s : State) (j : Nat) :
    (s.seedTree k).topsAt j = if j < k then BitVec.ofNat 9 j else s.topsAt j := by
  by_cases h : j < k
  · simp [State.topsAt, State.seedTree, Table.read_writeList, h]
  · simp [State.topsAt, State.seedTree, Table.read_writeList, h]

end Sys2Proof.Machine
end

