-- ==== Sys2Proof/Laws/Ops.lean ====
section
/-! SUPPORT. What each shared operation can do, said once: the phase gate, an illegal command, the search for the least
symbol, an arriving word, the next event, and the list insertion of the merge. -/

namespace Sys2Proof.Machine

/-! ### The phase gate -/

variable {i : Instr} {s t : State} {rule : State → Host.Outcome State Fault Refusal}

theorem gate_ok (h : legality i s.phase = .ok) : gate i s rule = rule s := by simp [gate, h]

theorem gate_error {e : ErrorKind} (h : legality i s.phase = .error e) :
    gate i s rule = .next (s.raise e (phaseErrorInfo e (opcode i) s.phase)) := by simp [gate, h]

theorem gate_drop (h : legality i s.phase = .drop) : gate i s rule = .next s := by simp [gate, h]

/-- Everything a gated command that goes on can have done. -/
theorem gate_cases (h : gate i s rule = .next t) :
    (legality i s.phase = .ok ∧ rule s = .next t) ∨
    (∃ e, legality i s.phase = .error e ∧ t = s.raise e (phaseErrorInfo e (opcode i) s.phase)) ∨
    (legality i s.phase = .drop ∧ t = s) := by
  cases hl : legality i s.phase with
  | ok => rw [gate_ok hl] at h; exact .inl ⟨rfl, h⟩
  | error e => rw [gate_error hl] at h; cases h; exact .inr (.inl ⟨e, rfl, rfl⟩)
  | drop => rw [gate_drop hl] at h; cases h; exact .inr (.inr ⟨rfl, rfl⟩)

/-- A command is dropped only in ERR (R198). -/
theorem legality_drop (h : legality i s.phase = .drop) : s.phase = .err := by
  cases hp : s.phase <;> cases i <;> simp_all [legality, legalityRow]

/-- No command raises its phase's error in ERR (R200). -/
theorem legality_error {e : ErrorKind} (h : legality i s.phase = .error e) : s.phase ≠ .err := by
  intro hp
  cases i <;> simp_all [legality, legalityRow]

/-! ### Illegal commands -/

theorem illegalCommand_err (info : BitVec 16) (h : s.phase = .err) : illegalCommand info s = .next s := by
  simp [illegalCommand, h]

theorem illegalCommand_raises (info : BitVec 16) (h : s.phase ≠ .err) :
    illegalCommand info s = .next (s.raise .illcmd info) := by
  cases hp : s.phase <;> simp_all [illegalCommand]

/-! ### Error entry -/

/-- Error entry writes the error record and nothing else. -/
theorem raise_errorEntered (s : State) (e : ErrorKind) (info : BitVec 16) : s.ErrorEntered e info (s.raise e info) :=
  ⟨rfl, rfl, ⟨rfl, rfl, rfl, rfl⟩, ⟨rfl, rfl, rfl⟩, ⟨rfl, rfl, rfl, rfl, rfl, rfl, rfl⟩, ⟨rfl, rfl⟩,
    ⟨⟨fun _ => rfl, fun _ => rfl⟩, ⟨fun _ => rfl, fun _ => rfl⟩, fun _ => rfl, fun _ => rfl⟩, ⟨rfl, rfl, rfl⟩,
    fun _ => rfl, rfl, rfl⟩

/-- Appending a record to RSP changes nothing else. -/
theorem emitRsp_onlyAppends (s : State) (ws : List Word) : s.OnlyAppendsRsp ws (s.emitRsp ws) :=
  ⟨rfl, rfl, rfl, ⟨rfl, rfl, rfl, rfl, rfl, rfl⟩, ⟨rfl, rfl, rfl, rfl, rfl, rfl, rfl⟩, ⟨rfl, rfl⟩,
    ⟨⟨fun _ => rfl, fun _ => rfl⟩, ⟨fun _ => rfl, fun _ => rfl⟩, fun _ => rfl, fun _ => rfl⟩, fun _ => rfl, rfl, rfl⟩

/-! ### The least symbol -/

theorem mem_allSymbols (x : Symbol) : x ∈ allSymbols := by
  have h := x.isLt
  refine List.mem_map.mpr ⟨x.toNat, List.mem_range.mpr (by simpa [Config.nsym] using h), ?_⟩
  simp

/-- No symbol has the property. -/
theorem leastSymbol_none (p : Symbol → Bool) : leastSymbol p = none ↔ ∀ x, p x = false := by
  simp only [leastSymbol, List.find?_eq_none, Bool.not_eq_true]
  exact ⟨fun h x => h x (mem_allSymbols x), fun h x _ => h x⟩

/-- The symbol found has the property and no smaller symbol has it. -/
theorem leastSymbol_some (p : Symbol → Bool) (x : Symbol) (h : leastSymbol p = some x) :
    p x = true ∧ ∀ y : Symbol, y.toNat < x.toNat → p y = false := by
  have hlen : allSymbols.length = 256 := by simp only [allSymbols, Config.nsym, List.length_map, List.length_range]
  have hget : ∀ k (hk : k < allSymbols.length), allSymbols[k].toNat = k := by
    intro k hk
    have hk' : k < 256 := hlen ▸ hk
    simp only [allSymbols, List.getElem_map, List.getElem_range, BitVec.toNat_ofNat]
    omega
  simp only [leastSymbol, List.find?_eq_some_iff_getElem] at h
  obtain ⟨hpx, n, hn, hx, hlt⟩ := h
  refine ⟨hpx, fun y hy => ?_⟩
  have hxn : x.toNat = n := by rw [← hx]; exact hget n hn
  have hyn : y.toNat < n := by omega
  have hyy : allSymbols[y.toNat]'(by omega) = y := BitVec.eq_of_toNat_eq (hget _ _)
  have hp := hlt y.toNat hyn
  rw [hyy] at hp
  simpa using hp

/-! ### The port -/

/-- Everything an arriving word that goes on can have done: it completed a command, which ran, or it is held. -/
theorem receiveWord_cases {w : Word} (h : receiveWord w s = .next t) :
    (s.cwn.val + 1 = lengthOf (Table.read 0#32 (Table.write 0#32 s.cw s.cwn.val w) 0) ∧
      runCommand (State.cwList { s with cw := Table.write 0#32 s.cw s.cwn.val w, cwn := 0 } (s.cwn.val + 1))
        { s with cw := Table.write 0#32 s.cw s.cwn.val w, cwn := 0 } = .next t) ∨
    (∃ hn : s.cwn.val + 1 < 10, t = { s with cw := Table.write 0#32 s.cw s.cwn.val w, cwn := ⟨s.cwn.val + 1, hn⟩ }) := by
  simp only [receiveWord] at h
  split at h
  · rename_i hc
    exact .inl ⟨hc, h⟩
  · split at h
    · rename_i hn
      cases h
      exact .inr ⟨hn, rfl⟩
    · cases h

/-- Everything a step that goes on can have done. -/
theorem step_cases (h : step s = .next t) :
    (s.port = [] ∧ t = s) ∨
    (∃ rest, s.port = .reset :: rest ∧ t = { State.reset with port := rest }) ∨
    (∃ w rest, s.port = .word w :: rest ∧ receiveWord w { s with port := rest } = .next t) := by
  simp only [step, takeEvent] at h
  split at h
  · rename_i hp
    cases h
    exact .inl ⟨hp, rfl⟩
  · rename_i rest hp
    cases h
    exact .inr (.inl ⟨rest, hp, rfl⟩)
  · rename_i w rest hp
    exact .inr (.inr ⟨w, rest, hp, h⟩)

/-- Everything a complete command that goes on can have done. -/
theorem runCommand_cases {ws : List Word} (h : runCommand ws s = .next t) :
    (∃ i, decode ws = .ok i ∧ exec i s = .next t) ∨
    (∃ e, decode ws = .error e ∧ illegalCommand (headerInfo ws) s = .next t) := by
  cases hd : decode ws with
  | ok i => simp only [runCommand, hd] at h; exact .inl ⟨i, rfl, h⟩
  | error e => simp only [runCommand, hd] at h; exact .inr ⟨e, rfl, h⟩

/-! ### The list of the merge -/

theorem insertTop_length (weight : Index → Word) (w : Word) (n : Index) (ts : List Index) :
    (insertTop weight w n ts).length = ts.length + 1 := by
  induction ts with
  | nil => rfl
  | cons t ts ih => by_cases h : weight t < w <;> simp [insertTop, h, ih]

theorem insertTop_perm (weight : Index → Word) (w : Word) (n : Index) (ts : List Index) :
    (insertTop weight w n ts).Perm (n :: ts) := by
  induction ts with
  | nil => exact List.Perm.refl _
  | cons t ts ih =>
    by_cases h : weight t < w
    · simp [insertTop, h]
    · simp only [insertTop, h, if_false]
      exact (ih.cons t).trans (List.Perm.swap n t ts)

/-- The new node stands before the first element of smaller weight (41_tree_build.md R129). -/
theorem insertTop_eq (weight : Index → Word) (w : Word) (n : Index) (ts : List Index) :
    insertTop weight w n ts =
      ts.takeWhile (fun t => !decide (weight t < w)) ++ n :: ts.dropWhile (fun t => !decide (weight t < w)) := by
  induction ts with
  | nil => rfl
  | cons t ts ih => by_cases h : weight t < w <;> simp [insertTop, h, ih]

end Sys2Proof.Machine
end

