-- ==== Sys2Proof/Laws/Exec.lean ====
section
/-! SUPPORT. What each command can do when it answers a next state, said once a command. In every lemma the last two
cases are the phase's error and the drop of the legality matrix, where the command has them. -/

namespace Sys2Proof.Machine

variable {s t : State}

/-- The outcomes of a command that is not its own rule: the phase's error, or the drop. -/
def gated (i : Instr) (s t : State) : Prop :=
  (∃ e, legality i s.phase = .error e ∧ t = s.raise e (phaseErrorInfo e (opcode i) s.phase)) ∨
    (legality i s.phase = .drop ∧ t = s)

theorem exec_clear_eq (s : State) : exec .clear s = .next s.clearSession := by
  cases h : s.phase <;> simp [exec, execClear, gate, legality, legalityRow, h]

theorem exec_rdcnt_eq (x : Symbol) (s : State) : exec (.rdcnt x) s = .next (s.emitRsp [s.cntAt x]) := by
  cases h : s.phase <;> simp [exec, execRdcnt, gate, legality, legalityRow, h]

theorem exec_rdnode_eq (n : Index) (s : State) : exec (.rdnode n) s = .next (s.emitRsp (s.nodeWords n)) := by
  cases h : s.phase <;> simp [exec, execRdnode, gate, legality, legalityRow, h]

theorem exec_rdcode_eq (x : Symbol) (s : State) : exec (.rdcode x) s = .next (s.emitRsp (s.codeRecord x)) := by
  cases h : s.phase <;> simp [exec, execRdcode, gate, legality, legalityRow, h]

theorem exec_rdreg_eq (r : Index) (s : State) :
    exec (.rdreg r) s =
      match s.readRegister r with
      | some v => .next (s.emitRsp [v])
      | none => illegalCommand 0x0200#16 s := by
  have hl : legality (.rdreg r) s.phase = .ok := by cases s.phase <;> rfl
  cases h : s.readRegister r <;> simp [exec, execRdreg, gate_ok hl, h]

theorem exec_sym_cases {x : Symbol} (h : exec (.sym x) s = .next t) :
    (legality (.sym x) s.phase = .ok ∧ s.total = Config.cntMax ∧ t = s.raise .cntovf (x.setWidth 16)) ∨
    (legality (.sym x) s.phase = .ok ∧ s.total ≠ Config.cntMax ∧ (s.cntAt x = 0#32 → s.nseen.toNat < 256) ∧
      t = s.countSymbol x) ∨ gated (.sym x) s t := by
  simp only [exec, execSym] at h
  rcases gate_cases h with ⟨hl, hr⟩ | hg | hg
  · split at hr
    · rename_i hm; cases hr; exact .inl ⟨hl, hm, rfl⟩
    · rename_i hm
      split at hr
      · cases hr
      · rename_i hn
        cases hr
        refine .inr (.inl ⟨hl, hm, fun h0 => ?_, rfl⟩)
        have : ¬ Config.nsym ≤ s.nseen.toNat := fun hle => hn ⟨h0, hle⟩
        simpa [Config.nsym] using this
  · exact .inr (.inr (.inl hg))
  · exact .inr (.inr (.inr hg))

theorem exec_build_cases (h : exec .build s = .next t) :
    (legality .build s.phase = .ok ∧ s.nseen = 1#9 ∧ t = s.raise .single ((s.fseenAt 0).setWidth 16)) ∨
    (legality .build s.phase = .ok ∧ 2 ≤ s.nseen.toNat ∧ s.nseen.toNat ≤ 256 ∧ t = s.buildAll s.nseen.toNat) ∨
    gated .build s t := by
  simp only [exec, execBuild] at h
  rcases gate_cases h with ⟨hl, hr⟩ | hg | hg
  · split at hr
    · rename_i h1; cases hr; exact .inl ⟨hl, h1, rfl⟩
    · split at hr
      · rename_i hk; cases hr; exact .inr (.inl ⟨hl, hk.1, hk.2, rfl⟩)
      · cases hr
  · exact .inr (.inr (.inl hg))
  · exact .inr (.inr (.inr hg))

theorem exec_enc_cases {x : Symbol} (h : exec (.enc x) s = .next t) :
    (legality (.enc x) s.phase = .ok ∧ (s.cbAt x).valid = true ∧ t = s.emitBout (s.cbAt x).word.toList) ∨
    (legality (.enc x) s.phase = .ok ∧ (s.cbAt x).valid = false ∧ t = s.raise .nocode (x.setWidth 16)) ∨
    gated (.enc x) s t := by
  simp only [exec, execEnc] at h
  rcases gate_cases h with ⟨hl, hr⟩ | hg | hg
  · split at hr
    · rename_i hv; cases hr; exact .inl ⟨hl, hv, rfl⟩
    · rename_i hv; cases hr; exact .inr (.inl ⟨hl, by simpa using hv, rfl⟩)
  · exact .inr (.inr (.inl hg))
  · exact .inr (.inr (.inr hg))

theorem exec_tblout_cases (h : exec .tblout s = .next t) :
    (legality .tblout s.phase = .ok ∧ s.tsize.toNat ≤ 256 ∧ t = s.emitRsp s.tableRecord) ∨ gated .tblout s t := by
  simp only [exec, execTblout] at h
  rcases gate_cases h with ⟨hl, hr⟩ | hg | hg
  · split at hr
    · rename_i hk; cases hr; exact .inl ⟨hl, hk, rfl⟩
    · cases hr
  · exact .inr (.inl hg)
  · exact .inr (.inr hg)

theorem exec_ldsize_cases {n : Index} (h : exec (.ldsize n) s = .next t) :
    (legality (.ldsize n) s.phase = .ok ∧ (n = 0#9 ∨ 256 < n.toNat) ∧ t = s.raise .tsize (n.setWidth 16)) ∨
    (legality (.ldsize n) s.phase = .ok ∧ n ≠ 0#9 ∧ n.toNat ≤ 256 ∧
      t = { s with tsize := n, nrow := 0#9, src := true, phase := .load }) ∨ gated (.ldsize n) s t := by
  simp only [exec, execLdsize] at h
  rcases gate_cases h with ⟨hl, hr⟩ | hg | hg
  · split at hr
    · rename_i hn; cases hr; exact .inl ⟨hl, hn, rfl⟩
    · rename_i hn
      cases hr
      refine .inr (.inl ⟨hl, fun e => hn (.inl e), ?_, rfl⟩)
      have : ¬ Config.nsym < n.toNat := fun e => hn (.inr e)
      simpa [Config.nsym] using this
  · exact .inr (.inr (.inl hg))
  · exact .inr (.inr (.inr hg))

theorem exec_ldrow_cases {x : Symbol} {len : BitVec 8} {m : Word} {code : CodeBits}
    (h : exec (.ldrow x len m code) s = .next t) :
    (∃ e info, legality (.ldrow x len m code) s.phase = .ok ∧ s.rowError x len code = some (e, info) ∧
      t = s.raise e info) ∨
    (legality (.ldrow x len m code) s.phase = .ok ∧ s.rowError x len code = none ∧ s.nrow.toNat < 256 ∧
      t = s.commitRow x len m code) ∨ gated (.ldrow x len m code) s t := by
  simp only [exec, execLdrow] at h
  rcases gate_cases h with ⟨hl, hr⟩ | hg | hg
  · split at hr
    · rename_i e info he; cases hr; exact .inl ⟨e, info, hl, he, rfl⟩
    · rename_i he
      split at hr
      · cases hr
      · rename_i hn
        cases hr
        exact .inr (.inl ⟨hl, he, by simpa [Config.nsym] using hn, rfl⟩)
  · exact .inr (.inr (.inl hg))
  · exact .inr (.inr (.inr hg))

theorem exec_dbit_cases {b : Bool} (h : exec (.dbit b) s = .next t) :
    (legality (.dbit b) s.phase = .ok ∧ s.buf.len = 255#8 ∧ t = s.raise .bufovf 255#16) ∨
    (legality (.dbit b) s.phase = .ok ∧ s.buf.len ≠ 255#8 ∧ t = s.acceptBit b) ∨ gated (.dbit b) s t := by
  simp only [exec, execDbit] at h
  rcases gate_cases h with ⟨hl, hr⟩ | hg | hg
  · split at hr
    · rename_i hb; cases hr; exact .inl ⟨hl, hb, rfl⟩
    · rename_i hb; cases hr; exact .inr (.inl ⟨hl, hb, rfl⟩)
  · exact .inr (.inr (.inl hg))
  · exact .inr (.inr (.inr hg))

theorem exec_dend_cases (h : exec .dend s = .next t) :
    (legality .dend s.phase = .ok ∧ s.buf.len = 0#8 ∧ t = s) ∨
    (legality .dend s.phase = .ok ∧ s.buf.len ≠ 0#8 ∧ t = s.raise .trunc (s.buf.len.setWidth 16)) ∨
    gated .dend s t := by
  simp only [exec, execDend] at h
  rcases gate_cases h with ⟨hl, hr⟩ | hg | hg
  · split at hr
    · rename_i hb; cases hr; exact .inl ⟨hl, hb, rfl⟩
    · rename_i hb; cases hr; exact .inr (.inl ⟨hl, hb, rfl⟩)
  · exact .inr (.inr (.inl hg))
  · exact .inr (.inr (.inr hg))

/-- No check of LDROW fails exactly when the row is well formed, new, and collides with nothing (44_decoder.md R162). -/
theorem rowError_none (s : State) (x : Symbol) (len : BitVec 8) (code : CodeBits) :
    s.rowError x len code = none ↔
      len ≠ 0#8 ∧ hasStrayBits len code = false ∧ (s.cbAt x).valid = false ∧
        s.collidingSymbol (rowCodeword len code) = none := by
  unfold State.rowError
  by_cases h1 : len = 0#8
  · simp [h1]
  · cases h2 : hasStrayBits len code
    · cases h3 : (s.cbAt x).valid
      · cases h4 : s.collidingSymbol (rowCodeword len code) <;> simp [h1]
      · simp [h1]
    · simp [h1]

end Sys2Proof.Machine
end

