-- ==== Sys2Proof/Laws/Fields.lean ====
section
/-! SUPPORT. The laws of fields placed in a word: each bit of a placed field, and the field read back. -/

namespace Sys2Proof

/-- A bit of a word with one field placed. -/
@[simp] theorem getLsbD_place {n : Nat} (w : Nat) (v : BitVec n) (pos i : Nat) :
    (place w v pos).getLsbD i = (decide (i < w) && decide (pos ≤ i) && v.getLsbD (i - pos)) := by
  by_cases h1 : i < w
  · by_cases h2 : pos ≤ i
    · have h4 : ¬ i < pos := by omega
      simp [place, h1, h2, h4]
    · have h4 : i < pos := by omega
      simp [place, h2, h4]
  · rw [BitVec.getLsbD_of_ge _ _ (by omega)]
    simp [h1]

/-- A field placed inside the word reads back. -/
theorem extractLsb'_place {n : Nat} (w : Nat) (v : BitVec n) (pos : Nat) (h : pos + n ≤ w) :
    (place w v pos).extractLsb' pos n = v := by
  apply BitVec.eq_of_getLsbD_eq
  intro i hi
  have h1 : pos + i < w := by omega
  rw [BitVec.getLsbD_extractLsb', getLsbD_place]
  simp [hi, h1]

/-- A field placed elsewhere reads as zero. -/
theorem extractLsb'_place_disjoint {n : Nat} (w : Nat) (v : BitVec n) (pos lo len : Nat)
    (h : lo + len ≤ pos ∨ pos + n ≤ lo) : (place w v pos).extractLsb' lo len = 0#len := by
  apply BitVec.eq_of_getLsbD_eq
  intro i _
  rw [BitVec.getLsbD_extractLsb', getLsbD_place]
  rcases h with h | h
  · have h1 : ¬ pos ≤ lo + i := by omega
    simp [h1]
  · have h1 : v.getLsbD (lo + i - pos) = false := BitVec.getLsbD_of_ge _ _ (by omega)
    simp [h1]

theorem extractLsb'_or {w : Nat} (a b : BitVec w) (lo len : Nat) :
    (a ||| b).extractLsb' lo len = a.extractLsb' lo len ||| b.extractLsb' lo len := by
  apply BitVec.eq_of_getLsbD_eq
  intro i _
  simp only [BitVec.getLsbD_extractLsb', BitVec.getLsbD_or, Bool.and_or_distrib_left]

theorem opcodeOf_headerN (opc : BitVec 8) : opcodeOf (headerN opc) = opc := by
  simp [opcodeOf, headerN, extractLsb'_place]

theorem opcodeOf_headerS (opc : BitVec 8) (x : Symbol) : opcodeOf (headerS opc x) = opc := by
  simp [opcodeOf, headerS, extractLsb'_or, extractLsb'_place, extractLsb'_place_disjoint]

theorem opcodeOf_headerB (opc : BitVec 8) (b : Bool) : opcodeOf (headerB opc b) = opc := by
  simp [opcodeOf, headerB, extractLsb'_or, extractLsb'_place, extractLsb'_place_disjoint]

theorem opcodeOf_headerI (opc : BitVec 8) (n : Index) : opcodeOf (headerI opc n) = opc := by
  simp [opcodeOf, headerI, extractLsb'_or, extractLsb'_place, extractLsb'_place_disjoint]

theorem opcodeOf_headerR (opc : BitVec 8) (len : BitVec 8) (x : Symbol) : opcodeOf (headerR opc len x) = opc := by
  simp [opcodeOf, headerR, extractLsb'_or, extractLsb'_place, extractLsb'_place_disjoint]

end Sys2Proof
end

