-- ==== Sys2Proof/Laws/PerInstr.lean ====
section
/-! SUPPORT. A statement about each command as syntax: its encoding has the number of words its first word's opcode
gives, and that opcode is the command's (30_encoding.md R80, R89). -/

namespace Sys2Proof.Laws.EncodedLength

/-- The words of `i` begin with its opcode and are as many as R80 says. -/
def Statement (i : Instr) : Prop :=
  ∃ h data, encode i = h :: data ∧ opcodeOf h = opcode i ∧ data.length + 1 = lengthOf h

theorem header (h : Word) (opc : BitVec 8) (ho : opcodeOf h = opc) (hn : opc ≠ 0x41#8) :
    ∃ h' data, [h] = h' :: data ∧ opcodeOf h' = opc ∧ data.length + 1 = lengthOf h' :=
  ⟨h, [], rfl, ho, by simp [lengthOf, ho, hn]⟩

theorem nop : Statement .nop := header _ _ (opcodeOf_headerN _) (by simp [opcode])
theorem clear : Statement .clear := header _ _ (opcodeOf_headerN _) (by simp [opcode])
theorem rdreg (r : Index) : Statement (.rdreg r) := header _ _ (opcodeOf_headerI _ r) (by simp [opcode])
theorem sym (x : Symbol) : Statement (.sym x) := header _ _ (opcodeOf_headerS _ x) (by simp [opcode])
theorem rdcnt (x : Symbol) : Statement (.rdcnt x) := header _ _ (opcodeOf_headerS _ x) (by simp [opcode])
theorem build : Statement .build := header _ _ (opcodeOf_headerN _) (by simp [opcode])
theorem rdnode (n : Index) : Statement (.rdnode n) := header _ _ (opcodeOf_headerI _ n) (by simp [opcode])
theorem rdcode (x : Symbol) : Statement (.rdcode x) := header _ _ (opcodeOf_headerS _ x) (by simp [opcode])
theorem enc (x : Symbol) : Statement (.enc x) := header _ _ (opcodeOf_headerS _ x) (by simp [opcode])
theorem tblout : Statement .tblout := header _ _ (opcodeOf_headerN _) (by simp [opcode])
theorem ldsize (n : Index) : Statement (.ldsize n) := header _ _ (opcodeOf_headerI _ n) (by simp [opcode])
theorem ldrow (x : Symbol) (len : BitVec 8) (metaWord : Word) (code : CodeBits) :
    Statement (.ldrow x len metaWord code) :=
  ⟨_, _, rfl, opcodeOf_headerR _ len x, by simp [lengthOf, opcodeOf_headerR, codeWords]⟩
theorem dbit (b : Bool) : Statement (.dbit b) := header _ _ (opcodeOf_headerB _ b) (by simp [opcode])
theorem dend : Statement .dend := header _ _ (opcodeOf_headerN _) (by simp [opcode])

end Sys2Proof.Laws.EncodedLength
end

