-- ==== Sys2Proof/Machine/Assembly.lean ====
section
/-! DEFINITION. The assembler syntax of 30_encoding.md R96 and R97: one command a line, from characters to commands. -/

namespace Sys2Proof.Machine

/-- White space between the parts of a line. -/
def isBlank (c : Char) : Bool := c == ' ' || c == '\t' || c == '\r'

/-- The characters after any blanks. -/
def skipBlanks (cs : List Char) : List Char := cs.dropWhile isBlank

/-- The value of a digit in a base of at most 16. -/
def digitValue (base : Nat) (c : Char) : Option Nat :=
  let v :=
    if '0'.toNat ≤ c.toNat ∧ c.toNat ≤ '9'.toNat then c.toNat - '0'.toNat
    else if 'a'.toNat ≤ c.toNat ∧ c.toNat ≤ 'f'.toNat then c.toNat - 'a'.toNat + 10
    else if 'A'.toNat ≤ c.toNat ∧ c.toNat ≤ 'F'.toNat then c.toNat - 'A'.toNat + 10
    else 16
  if v < base then some v else none

/-- The longest run of digits read as a number, and the characters after it. -/
def digitsFrom (base acc : Nat) : List Char → Nat × List Char
  | [] => (acc, [])
  | c :: cs =>
    match digitValue base c with
    | some v => digitsFrom base (acc * base + v) cs
    | none => (acc, c :: cs)

/-- A number: decimal, or hexadecimal after `0x` (R96). -/
def readNumber : List Char → Option (Nat × List Char)
  | '0' :: 'x' :: c :: cs =>
    match digitValue 16 c with
    | some v => some (digitsFrom 16 v cs)
    | none => none
  | c :: cs =>
    match digitValue 10 c with
    | some v => some (digitsFrom 10 v cs)
    | none => none
  | [] => none

/-- A character stands for its ASCII code (R96, R97). -/
def asciiSymbol (c : Char) : Option Symbol := if c.toNat < 128 then some (BitVec.ofNat 8 c.toNat) else none

/-- The ASCII codes of a string's characters. -/
def asciiSymbols : List Char → Option (List Symbol)
  | [] => some []
  | c :: cs =>
    match asciiSymbol c, asciiSymbols cs with
    | some x, some xs => some (x :: xs)
    | _, _ => none

/-- A number below `bound` after any blanks. -/
def readBelow (bound : Nat) (cs : List Char) : Option (Nat × List Char) :=
  match readNumber (skipBlanks cs) with
  | some (n, rest) => if n < bound then some (n, rest) else none
  | none => none

/-- A symbol operand: a number 0 to 255 or a character in single quotes (R96). -/
def readSymbol (cs : List Char) : Option (Symbol × List Char) :=
  match skipBlanks cs with
  | '\'' :: c :: '\'' :: rest => (asciiSymbol c).map fun x => (x, rest)
  | other => (readBelow 256 other).map fun p => (BitVec.ofNat 8 p.1, p.2)

/-- The characters up to the closing double quote. R96 and R97 do not say how a double quote inside a string is written:
there is no escape here, and the first double quote ends the string (DESIGN CHOICE, log entry 10). -/
def untilQuote : List Char → Option (List Char × List Char)
  | [] => none
  | c :: cs =>
    if c = '"' then some ([], cs)
    else
      match untilQuote cs with
      | some (a, b) => some (c :: a, b)
      | none => none

/-- A string operand in double quotes (R96, R97). -/
def readString (cs : List Char) : Option (List Symbol × List Char) :=
  match skipBlanks cs with
  | '"' :: rest =>
    match untilQuote rest with
    | some (text, rest') => (asciiSymbols text).map fun xs => (xs, rest')
    | none => none
  | _ => none

/-- A string operand of the characters 0 and 1 (R96). -/
def readBits (cs : List Char) : Option (List Bool × List Char) :=
  match readString cs with
  | some (xs, rest) => (bytesBits xs).map fun bs => (bs, rest)
  | none => none

/-- A comma between operands. -/
def readComma (cs : List Char) : Option (List Char) :=
  match skipBlanks cs with
  | ',' :: rest => some rest
  | _ => none

/-- The operands of LDROW: sym, meta, "bits" (R96). -/
def readRowOperands (cs : List Char) : Option (List Instr × List Char) :=
  match readSymbol cs with
  | none => none
  | some (x, r1) =>
    match readComma r1 with
    | none => none
    | some r2 =>
      match readBelow (2 ^ 32) r2 with
      | none => none
      | some (m, r3) =>
        match readComma r3 with
        | none => none
        | some r4 =>
          match readBits r4 with
          | none => none
          | some (bs, r5) =>
            if bs.length ≤ 255 then
              some ([.ldrow x (bitStringOf bs).len (BitVec.ofNat 32 m) (bitStringOf bs).bits], r5)
            else none

/-- The commands of a mnemonic or pseudo-instruction and its operands (R96, R97). -/
def readOperands (mnemonic cs : List Char) : Option (List Instr × List Char) :=
  if mnemonic = ['N', 'O', 'P'] then some ([.nop], cs)
  else if mnemonic = ['C', 'L', 'E', 'A', 'R'] then some ([.clear], cs)
  else if mnemonic = ['R', 'D', 'R', 'E', 'G'] then (readBelow 512 cs).map fun p => ([.rdreg (BitVec.ofNat 9 p.1)], p.2)
  else if mnemonic = ['S', 'Y', 'M'] then (readSymbol cs).map fun p => ([.sym p.1], p.2)
  else if mnemonic = ['R', 'D', 'C', 'N', 'T'] then (readSymbol cs).map fun p => ([.rdcnt p.1], p.2)
  else if mnemonic = ['B', 'U', 'I', 'L', 'D'] then some ([.build], cs)
  else if mnemonic = ['R', 'D', 'N', 'O', 'D', 'E'] then (readBelow 512 cs).map fun p => ([.rdnode (BitVec.ofNat 9 p.1)], p.2)
  else if mnemonic = ['R', 'D', 'C', 'O', 'D', 'E'] then (readSymbol cs).map fun p => ([.rdcode p.1], p.2)
  else if mnemonic = ['E', 'N', 'C'] then (readSymbol cs).map fun p => ([.enc p.1], p.2)
  else if mnemonic = ['T', 'B', 'L', 'O', 'U', 'T'] then some ([.tblout], cs)
  else if mnemonic = ['L', 'D', 'S', 'I', 'Z', 'E'] then (readBelow 512 cs).map fun p => ([.ldsize (BitVec.ofNat 9 p.1)], p.2)
  else if mnemonic = ['L', 'D', 'R', 'O', 'W'] then readRowOperands cs
  else if mnemonic = ['D', 'B', 'I', 'T'] then (readBelow 2 cs).map fun p => ([.dbit (p.1 == 1)], p.2)
  else if mnemonic = ['D', 'E', 'N', 'D'] then some ([.dend], cs)
  else if mnemonic = ['C', 'O', 'U', 'N', 'T'] then (readString cs).map fun p => (countText p.1, p.2)
  else if mnemonic = ['E', 'N', 'C', 'O', 'D', 'E'] then (readString cs).map fun p => (encodeText p.1, p.2)
  else if mnemonic = ['D', 'B', 'I', 'T', 'S'] then (readBits cs).map fun p => (decodeBits p.1, p.2)
  else if mnemonic = ['C', 'O', 'M', 'P', 'R', 'E', 'S', 'S'] then (readString cs).map fun p => (compressText p.1, p.2)
  else if mnemonic = ['E', 'X', 'P', 'A', 'N', 'D'] then (readBits cs).map fun p => (expandBits p.1, p.2)
  else none

/-- Nothing but blanks and a comment is left of the line (R96). -/
def atLineEnd (cs : List Char) : Bool :=
  match skipBlanks cs with
  | [] => true
  | c :: _ => c == ';'

/-- One line: a command or pseudo-instruction, or nothing, with an optional comment (R96). -/
def assembleLine (line : List Char) : Option (List Instr) :=
  if atLineEnd line then some []
  else
    let cs := skipBlanks line
    match readOperands (cs.takeWhile Char.isUpper) (cs.dropWhile Char.isUpper) with
    | some (is, rest) => if atLineEnd rest then some is else none
    | none => none

/-- The lines of a text. -/
def linesOf : List Char → List (List Char)
  | [] => [[]]
  | c :: cs =>
    match linesOf cs with
    | [] => [[]]
    | l :: ls => if c = '\n' then [] :: l :: ls else (c :: l) :: ls

/-- The commands of a sequence of lines; `none` where one does not fit the syntax. -/
def assembleLines : List (List Char) → Option (List Instr)
  | [] => some []
  | l :: ls =>
    match assembleLine l, assembleLines ls with
    | some is, some js => some (is ++ js)
    | _, _ => none

/-- The command words of a program text (R96). -/
def assemble (text : List Char) : Option (List Word) := (assembleLines (linesOf text)).map commandWords

end Sys2Proof.Machine
end

