-- ==== Sys2Proof/Tests/Slice0.lean ====
section
/-! SUPPORT. The model's own tests. Expected values are those of spec/95_test_vectors.md (cited V<n>) or of the encoding
rules of spec/30_encoding.md, never the model's own answers. Then one witness for every obligation that has hypotheses. -/

namespace Sys2Proof.Tests

open Sys2Proof Sys2Proof.Machine

set_option Elab.async false

/-! ### Helpers -/

/-- The state a command list leads to, `s` itself where one of the commands stops. -/
def after (is : List Instr) (s : State) : State :=
  match execAll is s with
  | .next t => t
  | .fault _ => s
  | .refused _ => s

/-- Whether an outcome is the next state `t`. -/
def goesTo (o : Host.Outcome State Fault Refusal) (t : State) : Bool :=
  match o with
  | .next u => decide (u = t)
  | .fault _ => false
  | .refused _ => false

theorem eq_of_goesTo {o : Host.Outcome State Fault Refusal} {t : State} (h : goesTo o t = true) : o = .next t := by
  cases o <;> simp_all [goesTo]

/-- The bits of a codeword, '0' or '1' as R10 writes them. -/
def codeOf (bits : List Bool) : BitString := bitStringOf bits

/-- LDROW of a codeword. -/
def rowOf (x : Symbol) (m : Word) (bits : List Bool) : Instr := .ldrow x (codeOf bits).len m (codeOf bits).bits

/-- `s` with words on its port. -/
def onPort (s : State) (ws : List Word) : State := { s with port := ws.map .word }

/-- "abracadabra" in ASCII (V3). -/
def magicWord : List Symbol := [0x61, 0x62, 0x72, 0x61, 0x63, 0x61, 0x64, 0x61, 0x62, 0x72, 0x61]

/-- V1 after its COUNT. -/
def countedAb : State := after [.sym 0x61, .sym 0x62] State.reset

/-- V1 after its BUILD. -/
def builtAb : State := after [.build] countedAb

/-- V3 after its BUILD. -/
def builtMagic : State := after (countText magicWord ++ [.build]) State.reset

/-- After LDSIZE 1. -/
def loading : State := after [.ldsize 1] State.reset

/-- After LDSIZE 1 and the one row 'a' = "1". -/
def loadedA : State := after [rowOf 0x61 9 [true]] loading

/-- `loadedA` after one DBIT 0: BUF holds "0". -/
def bufferedA : State := after [.dbit false] loadedA

/-- DEND from reset: ERR entered from IDLE with E_NOTABLE. -/
def inErr : State := after [.dend] State.reset

/-- An LDROW header is held and `n` words have arrived. -/
def holding (s : State) (n : Fin 10) : State := { s with cw := [(0, 0x41010061#32)], cwn := n }

/-! ### WellFormed: the one operand constraint refuses what R93 calls reserved -/

theorem test_reserved_register_numbers_are_ill_formed :
    (Instr.rdreg 0x09).WellFormed = false ∧ (Instr.rdreg 0x0F).WellFormed = false ∧
      (Instr.rdreg 0x18).WellFormed = false ∧ (Instr.rdreg 0x1FF).WellFormed = false := by decide

theorem test_register_numbers_are_well_formed :
    (Instr.rdreg 0x00).WellFormed = true ∧ (Instr.rdreg 0x08).WellFormed = true ∧
      (Instr.rdreg 0x10).WellFormed = true ∧ (Instr.rdreg 0x17).WellFormed = true := by decide

/-! ### Decode: one word of every row, written out from the formats of R83 to R89 -/

theorem test_decode_nop : decode [0b00000000_000000000000000000000000#32] = .ok .nop := by decide
theorem test_decode_clear : decode [0b00000001_000000000000000000000000#32] = .ok .clear := by decide
theorem test_decode_rdreg : decode [0b00000010_000000000000000_000010101#32] = .ok (.rdreg 0x15) := by decide
theorem test_decode_sym : decode [0b00010000_0000000000000000_10000110#32] = .ok (.sym 0x86) := by decide
theorem test_decode_rdcnt : decode [0b00010001_0000000000000000_10000110#32] = .ok (.rdcnt 0x86) := by decide
theorem test_decode_build : decode [0b00100000_000000000000000000000000#32] = .ok .build := by decide
theorem test_decode_rdnode : decode [0b00100001_000000000000000_111111110#32] = .ok (.rdnode 0x1FE) := by decide
theorem test_decode_rdcode : decode [0b00101000_0000000000000000_01100011#32] = .ok (.rdcode 0x63) := by decide
theorem test_decode_enc : decode [0b00110000_0000000000000000_01100001#32] = .ok (.enc 0x61) := by decide
theorem test_decode_tblout : decode [0b00110001_000000000000000000000000#32] = .ok .tblout := by decide
theorem test_decode_ldsize : decode [0b01000000_000000000000000_100000000#32] = .ok (.ldsize 256) := by decide
theorem test_decode_ldrow :
    decode [0b01000001_00000100_00000000_01100011#32, 1#32, 4#32, 0#32, 0#32, 0#32, 0#32, 0#32, 0#32, 0x80000000#32] =
      .ok (.ldrow 0x63 4 1 (4#256 ||| 1#256 <<< 255)) := by decide +kernel
theorem test_decode_dbit : decode [0b01001000_00000000000000000000000_1#32] = .ok (.dbit true) := by decide
theorem test_decode_dend : decode [0b01001001_000000000000000000000000#32] = .ok .dend := by decide

/-- The illegal words of V43. -/
theorem test_decode_illegal_words :
    decode [0xFF000000#32] = .error .reservedOpcode ∧ decode [0x03000000#32] = .error .reservedOpcode ∧
      decode [0x4A000000#32] = .error .reservedOpcode ∧ decode [0x00000001#32] = .error .reservedField ∧
      decode [0x01800000#32] = .error .reservedField ∧ decode [0x10000161#32] = .error .reservedField ∧
      decode [0x48000002#32] = .error .reservedField ∧ decode [0x21000200#32] = .error .reservedField ∧
      decode [0x02000009#32] = .error .reservedRegister ∧ decode [0x020001FF#32] = .error .reservedRegister := by decide

/-- The words of R96's LDROW example, numbered as spec/opcode_table.json numbers bits, and only its header's bits. -/
theorem test_decodeTableWord :
    decodeTableWord 320 (0x41040063 + 1 * 2 ^ 32 + 4 * 2 ^ 64) = some (.ldrow 0x63 4 1 4) ∧
      decodeTableWord 32 0x41040063 = some (.ldrow 0x63 4 0 0) ∧ decodeTableWord 32 0x03000000 = none := by
  decide +kernel

/-- withFetchWord makes the very next step run the instruction. -/
theorem test_withFetchWord :
    goesTo (step (State.reset.withFetchWord 32 0x40000005))
        { after [.ldsize 5] State.reset with cw := [(0, 0x40000005#32)] } = true ∧
      goesTo (step (loading.withFetchWord 320 (0x41010061 + 9 * 2 ^ 32 + 1 * 2 ^ 64)))
        { loadedA with cw := [(0, 0x41010061#32), (1, 9#32), (2, 1#32)] } = true := by decide +kernel

/-- The examples of R96 and a pseudo-instruction of R97. -/
theorem test_assemble :
    assemble ['S', 'Y', 'M', ' ', '\'', 'a', '\''] = some [0x10000061#32] ∧
      assemble ['R', 'D', 'R', 'E', 'G', ' ', '0', 'x', '0', '1', ' ', ';'] = some [0x02000001#32] ∧
      assemble ['L', 'D', 'R', 'O', 'W', ' ', '\'', 'c', '\'', ',', ' ', '1', ',', ' ', '"', '0', '0', '1', '0', '"'] =
        some [0x41040063#32, 1#32, 4#32, 0#32, 0#32, 0#32, 0#32, 0#32, 0#32, 0#32] ∧
      assemble ['E', 'X', 'P', 'A', 'N', 'D', ' ', '"', '0', '1', '"'] =
        some [0x48000000#32, 0x48000001#32, 0x49000000#32] := by decide +kernel

/-! ### One command -/

/-- V40. -/
theorem test_nop_in_ready : goesTo (exec .nop builtMagic) builtMagic = true ∧ builtMagic.status = 0x0005001B#32 := by
  decide +kernel

/-- V41. -/
theorem test_clear :
    (after [.clear] builtMagic).status = 0#32 ∧ (after [.clear] builtMagic).root = 0x1FF#9 ∧
      (after [.clear, .rdcnt 0x61, .rdnode 0] builtMagic).rsp = [0#32, 0#32, 0#32, 0#32] ∧
      (after [.clear, .rdcode 0x61] builtMagic).rsp = 0x61#32 :: List.replicate 8 0#32 := by decide +kernel

/-- V41: CLEAR from ERR; the err line falls. -/
theorem test_clear_in_err : inErr.errLine = true ∧ goesTo (exec .clear inErr) State.reset = true := by decide +kernel

/-- V42. -/
theorem test_rdreg :
    (after ([0, 1, 2, 3, 4, 5, 6, 7, 8, 0x10, 0x17].map Instr.rdreg) builtMagic).rsp =
      [0x0005001B#32, 0#32, 0xB#32, 5#32, 5#32, 5#32, 9#32, 1#32, 8#32, 0#32, 0#32] := by decide +kernel

/-- P4: the three undecoded bits "001" read back from BUFW0, and the error record. -/
theorem test_rdreg_after_truncation :
    (after [.dbit true, .dbit false, .dbit false, .dbit true, .dend, .dbit true, .enc 0x61, .rdreg 0, .rdreg 1,
      .rdreg 0x10] builtMagic).rsp = [0x0605035F#32, 0x00031414#32, 4#32] := by decide +kernel

/-- V3: the counts, the first-seen order and the total. -/
theorem test_sym_counts :
    let s := after (countText magicWord) State.reset
    (s.cntAt 0x61 = 5#32 ∧ s.cntAt 0x72 = 2#32 ∧ s.total = 11#32) ∧
      s.seenSymbols = [0x61#8, 0x62#8, 0x72#8, 0x63#8, 0x64#8] ∧ s.status = 1#32 := by decide +kernel

/-- R113: at TOTAL = 2^32 − 1 the symbol is not counted, E_CNTOVF with the symbol (R190). -/
theorem test_sym_at_the_limit :
    (after [.sym 0x62] { countedAb with total := 0xFFFFFFFF }).err.toWord = 0x00620903#32 := by decide +kernel

/-- V20 and V46. -/
theorem test_rdcnt :
    (after [.rdcnt 0x61] State.reset).rsp = [0#32] ∧ (after [.rdcnt 0x61] builtMagic).rsp = [5#32] := by decide +kernel

/-- V3: the table, the tree and the code book of BUILD. -/
theorem test_build :
    ((List.range 5).map builtMagic.tblAt = [⟨0x61, 5⟩, ⟨0x62, 2⟩, ⟨0x72, 2⟩, ⟨0x63, 1⟩, ⟨0x64, 1⟩]) ∧
      builtMagic.nodeAt 7 = ⟨false, 0, 6, 6, 1, false, true⟩ ∧
      [0x61#8, 0x62#8, 0x72#8, 0x63#8, 0x64#8].map (fun x => (builtMagic.cbAt x).word.toList) =
        [[true], [false, true], [false, false, false], [false, false, true, false], [false, false, true, true]] := by
  decide +kernel

/-- V2. -/
theorem test_build_of_one_symbol :
    let s := after (countText [0x61, 0x61, 0x61, 0x61] ++ [.build]) State.reset
    s.err.toWord = 0x00610A02#32 ∧ s.status = 0x02000007#32 ∧ s.cntAt 0x61 = 4#32 := by decide +kernel

/-- V46 and R134: the root of V3's tree, and an index that is no node. -/
theorem test_rdnode :
    (after [.rdnode 8, .rdnode 9] builtMagic).rsp = [0x90000000#32, 0xB#32, 0x00000007#32, 0#32, 0#32, 0#32] := by
  decide +kernel

/-- V46. -/
theorem test_rdcode :
    (after [.rdcode 0x61] builtMagic).rsp = [0x80010061#32, 1#32] ++ List.replicate 7 0#32 := by decide +kernel

/-- V3: c is 0010, sent position 0 first. -/
theorem test_enc : (after [.enc 0x63, .enc 0x61] builtMagic).bout = [false, false, true, false, true] := by decide +kernel

/-- V46. -/
theorem test_enc_without_codeword :
    let s := after [.enc 0x7A] builtMagic
    s.err.toWord = 0x007A1D20#32 ∧ s.status = 0x0605001F#32 ∧ s.bout = [] := by decide +kernel

/-- P1. -/
theorem test_tblout :
    (after [.tblout] builtAb).rsp =
      [0x40000002#32, 0x41010061#32, 1#32] ++ List.replicate 8 0#32 ++ [0x41010062#32, 1#32, 1#32] ++
        List.replicate 7 0#32 := by decide +kernel

/-- R160, R190: 0 and 257 rows are refused with their number in INFO. -/
theorem test_ldsize_out_of_range :
    (after [.ldsize 0] State.reset).err.toWord = 0x00001310#32 ∧
      (after [.ldsize 257] State.reset).err.toWord = 0x01011310#32 := by decide +kernel

/-- V44: STATUS after an error in LOAD entered with LDSIZE 2. -/
theorem test_ldsize : (after [.ldsize 2, .build] State.reset).status = 0x04020027#32 := by decide +kernel

/-- P3. -/
theorem test_ldrow_loads_a_table :
    (after [.clear, .ldsize 3, rowOf 0x61 2 [true], rowOf 0x62 2 [false, false], rowOf 0x63 1 [false, true]]
      State.reset).status = 0x0003002B#32 := by decide +kernel

/-- P6. -/
theorem test_ldrow_collision :
    let s := after [.ldsize 2, rowOf 0x61 0 [false], rowOf 0x62 0 [false, true]] State.reset
    s.err.toWord = 0x61621313#32 ∧ s.status = 0x04020027#32 ∧ s.nrow = 1#9 := by decide +kernel

/-- V4 and V48. -/
theorem test_dbit :
    (after [.dbit false, .enc 0x61, .dbit true] builtMagic).sout = [0x62#8] ∧
      (after [.dbit true, .dbit false, .dbit false] builtMagic).buf.toList = [false, false] := by decide +kernel

/-- R170: the 256th bit is not stored; E_BUFOVF with INFO 255. -/
theorem test_dbit_overflow :
    let s := after [.dbit false] { loadedA with buf := ⟨255, 0⟩ }
    s.err.toWord = 0x00FF1415#32 ∧ s.buf = ⟨255, 0⟩ := by decide +kernel

/-- V4. -/
theorem test_dend_truncated :
    let s := after [.dbit true, .dbit false, .dbit false, .dend] builtMagic
    s.err.toWord = 0x00021414#32 ∧ s.status = 0x0605025F#32 ∧ s.sout = [0x61#8] := by decide +kernel

/-- V3: DEND with BUF empty. -/
theorem test_dend : goesTo (exec .dend builtMagic) builtMagic = true := by decide +kernel

/-! ### Concrete states that meet the invariants -/

/-- The port plays no part in the invariants. -/
theorem inv_onPort {s : State} (h : s.Inv) (ws : List Word) : (onPort s ws).Inv :=
  ⟨h.counting, h.idle, h.count, h.load, h.ready, h.prefixFree, h.buffer, h.error, h.assembler, h.accEmpty, h.complete⟩

/-- R146 is about states in READY only. -/
theorem complete_of_phase {s : State} (h : s.phase ≠ .ready) : s.CompleteInv := fun hp => absurd hp h

theorem inv_idle : (onPort State.reset [0x10000061#32]).Inv := by
  refine ⟨?_, ?_, ?_, ?_, ?_, ?_, ?_, ?_, ?_, ?_, complete_of_phase (by decide)⟩ <;> decide +kernel

theorem inv_counted : countedAb.Inv := by
  refine ⟨?_, ?_, ?_, ?_, ?_, ?_, ?_, ?_, ?_, ?_, complete_of_phase (by decide +kernel)⟩ <;> decide +kernel

theorem complete_built : builtAb.CompleteInv := by
  intro _ _ bits hb
  have ha : (builtAb.cbAt 0x61).valid = true ∧ (builtAb.cbAt 0x61).word.toList = [false] := by decide +kernel
  have hb' : (builtAb.cbAt 0x62).valid = true ∧ (builtAb.cbAt 0x62).word.toList = [true] := by decide +kernel
  cases bits with
  | nil => simp at hb
  | cons b rest =>
    cases b
    · exact ⟨0x61, ha.1, by rw [ha.2]; simp⟩
    · exact ⟨0x62, hb'.1, by rw [hb'.2]; simp⟩

theorem inv_built : builtAb.Inv := by
  refine ⟨?_, ?_, ?_, ?_, ?_, ?_, ?_, ?_, ?_, ?_, complete_built⟩ <;> decide +kernel

theorem inv_loaded : loadedA.Inv := by
  have hs : loadedA.src = true := by decide +kernel
  refine ⟨?_, ?_, ?_, ?_, ?_, ?_, ?_, ?_, ?_, ?_, fun _ h => by rw [hs] at h; cases h⟩ <;> decide +kernel

theorem inv_err : inErr.Inv := by
  refine ⟨?_, ?_, ?_, ?_, ?_, ?_, ?_, ?_, ?_, ?_, complete_of_phase (by decide +kernel)⟩ <;> decide +kernel

/-! ### Witnesses: for each obligation with hypotheses, a concrete case that meets them -/

theorem witness_DecodeOfEncode :
    (Instr.rdreg 0x17).WellFormed = true ∧ (Instr.ldrow 0xFF 0xFF 0xFFFFFFFF (BitVec.allOnes 256)).WellFormed = true := by
  decide

theorem witness_EncodeOfDecode :
    decode [0x02000017#32] = .ok (.rdreg 0x17) ∧
      decode (0x41FF00FF#32 :: List.replicate 9 0xFFFFFFFF#32) =
        .ok (.ldrow 0xFF 0xFF 0xFFFFFFFF (BitVec.allOnes 256)) := by decide +kernel

theorem witness_HeaderSelectsRowByMask :
    ([] : List Word).length + 1 = lengthOf 0x02000017#32 ∧ decode [0x02000017#32] = .ok (.rdreg 0x17) ∧
      (List.replicate 9 0#32).length + 1 = lengthOf 0x41040063#32 := by decide +kernel

/-- Both clauses at their ends: a one-word command, the tenth word of an LDROW; its first word, its ninth. -/
theorem witness_ArrivingWordIsAssembled :
    ((onPort State.reset [0x10000061#32]).port = .word 0x10000061#32 :: [] ∧
      (onPort State.reset [0x10000061#32]).cwn = 0 ∧ (0x10000061#32).extractLsb' 24 8 ≠ 0x41#8) ∧
    ((onPort (holding loading 9) [7#32]).cwAt 0 = 0x41010061#32 ∧ (onPort (holding loading 9) [7#32]).cwn.val + 1 = 10) ∧
    ((0x41010061#32).extractLsb' 24 8 = 0x41#8 ∧ (onPort loading [0x41010061#32]).cwn.val + 1 < 10 ∧
      (onPort (holding loading 8) [7#32]).cwn.val + 1 < 10) := by decide +kernel

theorem witness_StepRunsTheDecodedCommand :
    ((onPort State.reset [0x10000061#32]).port = .word 0x10000061#32 :: [] ∧
      decode ((onPort State.reset [0x10000061#32]).wordsWith 0x10000061#32) = .ok (.sym 0x61)) ∧
    decode ((onPort (holding loading 9) [0#32]).wordsWith 0#32) = .ok (.ldrow 0x61 1 0 0) ∧ loading.port = [] := by
  decide +kernel

theorem witness_LdrowTakesTenWordsInEveryPhase :
    opcodeOf 0x41010061#32 = 0x41#8 ∧ (onPort inErr (0x41010061#32 :: List.replicate 9 0#32)).cwn = 0 ∧
      (onPort inErr (0x41010061#32 :: List.replicate 9 0#32)).port =
        [0x41010061#32, 0#32, 0#32, 0#32, 0#32, 0#32, 0#32, 0#32, 0#32, 0#32].map PortEvent.word ++ [] := by
  decide +kernel

theorem witness_ResetPutsStateAtItsValues :
    (({ builtMagic with port := [.reset, .word 0] } : State).port = .reset :: [.word 0]) := by decide +kernel

/-- Both clauses: outside ERR, in ERR. -/
theorem witness_ReservedOpcodeIsIllegal :
    ((onPort builtAb [0xFF000000#32]).port = .word 0xFF000000#32 :: [] ∧ (onPort builtAb [0xFF000000#32]).cwn = 0 ∧
      (0xFF000000#32).extractLsb' 24 8 ∉ knownOpcodes ∧ (onPort builtAb [0xFF000000#32]).phase ≠ .err) ∧
    (onPort inErr [0x4A000000#32]).phase = .err ∧ (0x4A000000#32).extractLsb' 24 8 ∉ knownOpcodes := by decide +kernel

/-- A one-word command with its highest reserved bit set, and an LDROW whose reserved byte is not zero at its tenth word. -/
theorem witness_ReservedFieldIsIllegal :
    ((onPort State.reset [0x01800000#32]).cwn.val + 1 = 1 ∧
      0x01800000#32 &&& reservedBits ((0x01800000#32).extractLsb' 24 8) ≠ 0#32 ∧
      (onPort State.reset [0x01800000#32]).phase ≠ .err) ∧
    ((onPort { loading with cw := [(0, 0x4100FF61#32)], cwn := 9 } [0#32]).cwAt 0 = 0x4100FF61#32 ∧
      0x4100FF61#32 &&& reservedBits ((0x4100FF61#32).extractLsb' 24 8) ≠ 0#32) ∧ inErr.phase = .err := by decide +kernel

/-- The reserved numbers next to the two ranges of register numbers. -/
theorem witness_ReservedRegisterIsIllegal :
    ((onPort builtAb [0x02000009#32]).port = .word (0x02000000#32 ||| (0x009#9).setWidth 32) :: [] ∧
      (onPort builtAb [0x02000009#32]).cwn = 0 ∧ (onPort builtAb [0x02000009#32]).phase ≠ .err) ∧
    (∀ r ∈ [0x009#9, 0x00F#9, 0x018#9, 0x1FF#9],
      ¬ (r.toNat ≤ 0x08 ∨ (0x10 ≤ r.toNat ∧ r.toNat ≤ 0x17))) ∧ inErr.phase = .err := by decide +kernel

theorem witness_ErrorsArePrecise :
    builtMagic.phase ≠ .err ∧ exec (.enc 0x7A) builtMagic = .next (after [.enc 0x7A] builtMagic) ∧
      (after [.enc 0x7A] builtMagic).phase = .err ∧
      step (onPort builtAb [0x3000007A#32]) =
        .next { after [.enc 0x7A] builtAb with cw := [(0, 0x3000007A#32)] } ∧
      (after [.enc 0x7A] builtAb).phase = .err :=
  ⟨by decide +kernel, eq_of_goesTo (by decide +kernel), by decide +kernel, eq_of_goesTo (by decide +kernel),
    by decide +kernel⟩

theorem witness_ErrPhaseDiscardsWorkingCommands :
    inErr.phase = .err ∧ Index.NamesRegister 0x17 = true ∧
      (onPort inErr [0xFF000000#32]).cwn.val + 1 = lengthOf 0xFF000000#32 ∧
      decode ((onPort inErr [0xFF000000#32]).wordsWith 0xFF000000#32) = .error .reservedOpcode := by decide +kernel

theorem witness_OnlyClearAndResetLeaveErr :
    (onPort inErr [0x01000000#32]).phase = .err ∧ step (onPort inErr [0x01000000#32]) =
      .next { State.reset with cw := [(0, 0x01000000#32)] } ∧
      ({ State.reset with cw := [(0, 0x01000000#32)] } : State).phase ≠ .err :=
  ⟨by decide +kernel, eq_of_goesTo (by decide +kernel), by decide⟩

theorem witness_PhaseTransitions :
    exec .build countedAb = .next builtAb ∧ builtAb.phase ≠ countedAb.phase :=
  ⟨eq_of_goesTo (by decide +kernel), by decide +kernel⟩

/-- Every phase of the matrix. -/
theorem witness_LegalityMatrixErrors :
    State.reset.phase = .idle ∧ countedAb.phase = .count ∧ loading.phase = .load ∧ builtAb.phase = .ready := by
  decide +kernel

/-- The second, the ninth and the tenth word of an LDROW are zero. -/
theorem witness_NopDoesNothing :
    ((onPort (holding loading 1) [0#32]).port = .word 0#32 :: [] ∧ (onPort (holding loading 1) [0#32]).cwn ≠ 0 ∧
      (onPort (holding loading 8) [0#32]).cwn.val < 9) ∧
    opcodeOf ((onPort (holding loading 8) [0#32]).cwAt 0) = 0x41#8 ∧ (onPort (holding loading 9) [0#32]).cwn.val = 9 ∧
    opcodeOf ((onPort (holding loading 9) [0#32]).cwAt 0) = 0x41#8 := by decide +kernel

/-- The ends of both ranges of register numbers. -/
theorem witness_RdregReadsTheRegister :
    (∀ r ∈ [0x000#9, 0x008#9, 0x010#9, 0x017#9], Index.NamesRegister r = true) ∧ (0x017#9).toNat = 0x10 + 7 := by decide

/-- The last node, the first index that is none, and no finished tree; a codeword and none. -/
theorem witness_ReadOutCommandsAppendTheirRecords :
    (builtMagic.treeValid = true ∧ (8#9).toNat < builtMagic.nnode.toNat) ∧ ¬ (9#9).toNat < builtMagic.nnode.toNat ∧
      countedAb.treeValid = false ∧ (builtMagic.cbAt 0x61).valid = true ∧ (builtMagic.cbAt 0x7A).valid = false := by
  decide +kernel

/-- A first occurrence and a later one, at the last count before the limit. -/
theorem witness_SymCountsOneOccurrence :
    (State.reset.phase = .idle ∧ State.reset.total ≠ 0xFFFFFFFF#32 ∧ State.reset.cntAt 0x61 = 0#32 ∧
      State.reset.nseen.toNat < 256) ∧
    (countedAb.phase = .count ∧ ({ countedAb with total := 0xFFFFFFFE } : State).total ≠ 0xFFFFFFFF#32 ∧
      countedAb.cntAt 0x61 ≠ 0#32) := by decide +kernel

theorem witness_SymAtTheLimitCountsNothing :
    ({ countedAb with total := 0xFFFFFFFF } : State).phase = .count ∧
      ({ countedAb with total := 0xFFFFFFFF } : State).total = 0xFFFFFFFF#32 := by decide +kernel

theorem witness_BuildRejectsFewerThanTwoSymbols :
    State.reset.phase = .idle ∧ (after [.sym 0x61] State.reset).phase = .count ∧
      (after [.sym 0x61] State.reset).nseen = 1#9 := by decide +kernel

/-- The least and the greatest K. -/
theorem witness_BuildCompletes :
    (countedAb.phase = .count ∧ countedAb.nseen = 2#9) ∧ ({ countedAb with nseen := 256 } : State).phase = .count ∧
      ({ countedAb with nseen := 256 } : State).nseen.toNat ≤ 256 := by decide +kernel

theorem build_countedAb : exec .build countedAb = .next builtAb := eq_of_goesTo (by decide +kernel)

theorem witness_BuildSortsTheTable :
    countedAb.phase = .count ∧ 2 ≤ countedAb.nseen.toNat ∧ countedAb.nseen.toNat ≤ 256 ∧
      exec .build countedAb = .next builtAb :=
  ⟨by decide +kernel, by decide +kernel, by decide +kernel, build_countedAb⟩

/-- Three equal leaves, seeded: the hypotheses of one merge step. -/
def seeded : State := ((after [.sym 0x61, .sym 0x62, .sym 0x63] State.reset).sortTable 3).seedTree 3

theorem witness_MergeStepKeepsTheListSorted :
    2 ≤ seeded.ntop.toNat ∧ seeded.ntop.toNat ≤ 256 ∧ seeded.nnode.toNat < 511 ∧
      (∀ t ∈ seeded.topsList seeded.ntop.toNat, t.toNat < seeded.nnode.toNat) ∧
      (seeded.topsList seeded.ntop.toNat).Pairwise
        (fun a b => (seeded.nodeAt b.toNat).w.toNat ≤ (seeded.nodeAt a.toNat).w.toNat) ∧
      ∀ a b : Index, [a, b].Sublist (seeded.topsList seeded.ntop.toNat) →
        (seeded.nodeAt a.toNat).w.toNat + (seeded.nodeAt b.toNat).w.toNat < 2 ^ 32 := by
  refine ⟨by decide +kernel, by decide +kernel, by decide +kernel, by decide +kernel, by decide +kernel, ?_⟩
  intro a b h
  have hw : ∀ t ∈ seeded.topsList seeded.ntop.toNat, (seeded.nodeAt t.toNat).w.toNat = 1 := by decide +kernel
  rw [hw a (h.subset (by simp)), hw b (h.subset (by simp))]
  decide

theorem witness_BuildMakesAProperTree :
    countedAb.Inv ∧ countedAb.phase = .count ∧ 2 ≤ countedAb.nseen.toNat ∧ exec .build countedAb = .next builtAb :=
  ⟨inv_counted, by decide +kernel, by decide +kernel, build_countedAb⟩

theorem witness_CodewordsAreRootToLeafPaths :
    countedAb.Inv ∧ countedAb.phase = .count ∧ 2 ≤ countedAb.nseen.toNat ∧ exec .build countedAb = .next builtAb ∧
      (builtAb.cbAt 0x62).valid = true :=
  ⟨inv_counted, by decide +kernel, by decide +kernel, build_countedAb, by decide +kernel⟩

theorem witness_BuiltCodeBookIsPrefixFreeAndFull :
    countedAb.Inv ∧ countedAb.phase = .count ∧ 2 ≤ countedAb.nseen.toNat ∧ exec .build countedAb = .next builtAb ∧
      (builtAb.cbAt 0x61).valid = true ∧ (builtAb.cbAt 0x62).valid = true :=
  ⟨inv_counted, by decide +kernel, by decide +kernel, build_countedAb, by decide +kernel, by decide +kernel⟩

theorem witness_EncEmitsTheCodeword :
    builtAb.phase = .ready ∧ (builtAb.cbAt 0x61).valid = true ∧ (builtAb.cbAt 0x7A).valid = false := by decide +kernel

/-- Built with two rows; the greatest TSIZE of a table. -/
theorem witness_TbloutEmitsTheReloadCommands :
    builtAb.phase = .ready ∧ builtAb.tsize.toNat ≤ 256 ∧ ({ builtAb with tsize := 256 } : State).tsize.toNat ≤ 256 := by
  decide +kernel

theorem witness_EncodedSequenceIsTheConcatenation :
    builtAb.phase = .ready ∧ ∀ x ∈ [0x61#8, 0x62#8, 0x61#8], (builtAb.cbAt x).valid = true := by decide +kernel

/-- 1 and 256 rows, 0 and 257 rows; every phase. -/
theorem witness_LdsizeBeginsALoad :
    State.reset.phase = .idle ∧ (1 ≤ (1#9).toNat ∧ (256#9).toNat ≤ 256) ∧ ((0#9).toNat = 0 ∧ 256 < (257#9).toNat) ∧
      countedAb.phase = .count ∧ loading.phase = .load ∧ builtAb.phase = .ready ∧ inErr.phase = .err := by decide +kernel

/-- The four checks: LEN 0; the highest bit of CODE beyond LEN = 255; a symbol with a row; a codeword related to one. -/
theorem witness_LdrowChecksInOrder :
    let s := after [.ldsize 2, rowOf 0x61 0 [false]] State.reset
    s.phase = .load ∧
      ((1#256 <<< 255).getLsbD 255 = true ∧ (255#8).toNat ≤ 255) ∧
      ((s.cbAt 0x61).valid = true ∧ ∀ i : Fin 256, 1 ≤ i.val → (0#256).getLsbD i.val = false) ∧
      ((s.cbAt 0x62).valid = false ∧ (s.cbAt 0x61).word.toList <+: (rowCodeword 2#8 2#256).toList ∧
        (∀ i : Fin 256, 2 ≤ i.val → (2#256).getLsbD i.val = false) ∧
        ∀ u : Symbol, u.toNat < (0x61#8).toNat → (s.cbAt u).valid = false) := by decide +kernel

/-- The row that completes a table of one row, and a row of the longest codeword that does not complete its table. -/
theorem witness_LdrowCommitsTheRow :
    (loading.phase = .load ∧ loading.nrow.toNat < 256 ∧ loading.nrow.toNat + 1 = loading.tsize.toNat) ∧
      (∀ x : Symbol, (loading.cbAt x).valid = false) ∧
      (∀ i : Fin 256, 1 ≤ i.val → (1#256).getLsbD i.val = false) ∧
      (∀ i : Fin 256, 255 ≤ i.val → (0#256).getLsbD i.val = false) ∧
      (after [.ldsize 2] State.reset).phase = .load ∧ (after [.ldsize 2] State.reset).nrow.toNat + 1 ≠ 2 := by
  decide +kernel

/-- BUF full; a bit that completes a codeword and one that does not, with BUF at its last free position. -/
theorem witness_DbitAcceptsOneBit :
    (({ loadedA with buf := ⟨255, 0⟩ } : State).phase = .ready ∧ ({ loadedA with buf := ⟨255, 0⟩ } : State).buf.len = 255#8) ∧
    (({ loadedA with buf := ⟨254, 0⟩ } : State).buf.len ≠ 255#8 ∧
      ({ loadedA with buf := ⟨254, 0⟩ } : State).buf.stored = true ∧ ({ loadedA with buf := ⟨254, 0⟩ } : State).PrefixFree) ∧
    (loadedA.phase = .ready ∧ loadedA.buf.stored = true ∧ loadedA.PrefixFree ∧ (loadedA.cbAt 0x61).word.toList = [true]) := by
  decide +kernel

/-- BUF empty, BUF with one bit, and every phase. -/
theorem witness_DendChecksTheBuffer :
    (loadedA.phase = .ready ∧ loadedA.buf.len = 0#8) ∧ (bufferedA.phase = .ready ∧ bufferedA.buf.len = 1#8) ∧
      State.reset.phase = .idle ∧ countedAb.phase = .count ∧ loading.phase = .load ∧ inErr.phase = .err := by
  decide +kernel

/-- Built and loaded. -/
theorem witness_DecodingInvertsEncoding :
    (builtAb.Inv ∧ builtAb.phase = .ready ∧ builtAb.buf.len = 0#8 ∧
      ∀ x ∈ [0x62#8, 0x61#8], (builtAb.cbAt x).valid = true) ∧
    (loadedA.Inv ∧ loadedA.phase = .ready ∧ loadedA.buf.len = 0#8 ∧ ∀ x ∈ [0x61#8], (loadedA.cbAt x).valid = true) :=
  ⟨⟨inv_built, by decide +kernel, by decide +kernel, by decide +kernel⟩,
    inv_loaded, by decide +kernel, by decide +kernel, by decide +kernel⟩

theorem witness_SessionRoundTrip :
    inErr.Inv ∧ magicWord.length < 2 ^ 32 ∧ ∃ a ∈ magicWord, ∃ b ∈ magicWord, a ≠ b :=
  ⟨inv_err, by decide, by decide⟩

theorem witness_TwoCoreRoundTrip :
    inErr.Inv ∧ (onPort State.reset [0x10000061#32]).Inv ∧ (onPort State.reset [0x10000061#32]).phase = .idle ∧
      (onPort State.reset [0x10000061#32]).cwn = 0 ∧ magicWord.length < 2 ^ 32 ∧
      ∃ a ∈ magicWord, ∃ b ∈ magicWord, a ≠ b :=
  ⟨inv_err, inv_idle, by decide, by decide, by decide, by decide⟩

theorem witness_TableRecordReloads :
    builtAb.Inv ∧ builtAb.phase = .ready ∧ (onPort State.reset [0x10000061#32]).Inv ∧
      (onPort State.reset [0x10000061#32]).phase = .idle ∧ (onPort State.reset [0x10000061#32]).cwn = 0 :=
  ⟨inv_built, by decide +kernel, inv_idle, by decide, by decide⟩

theorem witness_BuiltCodeNeverFillsTheBuffer : builtAb.Inv ∧ builtAb.phase = .ready ∧ builtAb.src = false :=
  ⟨inv_built, by decide +kernel, by decide +kernel⟩

/-- The step that builds: `countedAb` with the word of BUILD on its port. -/
def aboutToBuild : State := onPort countedAb [0x20000000#32]

def justBuilt : State := { builtAb with cw := [(0, 0x20000000#32)] }

theorem inv_aboutToBuild : aboutToBuild.Inv := inv_onPort inv_counted _

theorem step_aboutToBuild : step aboutToBuild = .next justBuilt := eq_of_goesTo (by decide +kernel)

theorem witness_StepKeepsMemoriesCanonical : Memory.wf aboutToBuild = true ∧ step aboutToBuild = .next justBuilt :=
  ⟨by decide +kernel, step_aboutToBuild⟩

theorem witness_StepKeepsTheCounts : aboutToBuild.Inv ∧ step aboutToBuild = .next justBuilt ∧ justBuilt.total = 2#32 :=
  ⟨inv_aboutToBuild, step_aboutToBuild, by decide +kernel⟩

/-- A step into each of IDLE, COUNT and LOAD. -/
theorem witness_StepKeepsThePhaseMeanings :
    (onPort inErr [0x01000000#32]).Inv ∧
      step (onPort inErr [0x01000000#32]) = .next { State.reset with cw := [(0, 0x01000000#32)] } ∧
      step (onPort State.reset [0x10000061#32]) =
        .next { after [.sym 0x61] State.reset with cw := [(0, 0x10000061#32)] } ∧
      step (onPort State.reset [0x40000001#32]) = .next { loading with cw := [(0, 0x40000001#32)] } :=
  ⟨inv_onPort inv_err _, eq_of_goesTo (by decide +kernel), eq_of_goesTo (by decide +kernel),
    eq_of_goesTo (by decide +kernel)⟩

theorem witness_StepKeepsTheReadyMeaning :
    aboutToBuild.Inv ∧ step aboutToBuild = .next justBuilt ∧ justBuilt.phase = .ready :=
  ⟨inv_aboutToBuild, step_aboutToBuild, by decide +kernel⟩

theorem witness_StepKeepsTheCodeBookPrefixFree :
    aboutToBuild.Inv ∧ step aboutToBuild = .next justBuilt ∧ (justBuilt.cbAt 0x61).valid = true :=
  ⟨inv_aboutToBuild, step_aboutToBuild, by decide +kernel⟩

/-- A bit that stays in BUF. -/
theorem witness_StepKeepsTheBufferUnmatched :
    (onPort loadedA [0x48000000#32]).Inv ∧
      step (onPort loadedA [0x48000000#32]) = .next { bufferedA with cw := [(0, 0x48000000#32)] } ∧
      bufferedA.buf.len = 1#8 :=
  ⟨inv_onPort inv_loaded _, eq_of_goesTo (by decide +kernel), by decide +kernel⟩

/-- A step into ERR, and the first word of an LDROW. -/
theorem witness_StepKeepsTheErrorRecord :
    (onPort builtAb [0x3000007A#32]).Inv ∧
      step (onPort builtAb [0x3000007A#32]) =
        .next { after [.enc 0x7A] builtAb with cw := [(0, 0x3000007A#32)] } ∧
      step (onPort builtAb [0x41010061#32]) = .next (holding builtAb 1) :=
  ⟨inv_onPort inv_built _, eq_of_goesTo (by decide +kernel), eq_of_goesTo (by decide +kernel)⟩

theorem witness_StepKeepsBuiltCodesComplete :
    aboutToBuild.Inv ∧ step aboutToBuild = .next justBuilt ∧ justBuilt.phase = .ready ∧ justBuilt.src = false :=
  ⟨inv_aboutToBuild, step_aboutToBuild, by decide +kernel, by decide +kernel⟩

theorem witness_NoStepStops : aboutToBuild.Inv ∧ loadedA.Inv ∧ inErr.Inv := ⟨inv_aboutToBuild, inv_loaded, inv_err⟩

/-- The idle state with contents that R47 leaves unspecified put at other values. -/
def otherIdle : State :=
  { onPort State.reset [0x10000061#32] with
    fseen := [(3, 0x7A)], tbl := [(0, ⟨0x31, 5⟩)], node := [(0, ⟨true, 1, 2, 3, 4, true, false⟩)], tops := [(1, 9)]
    cb := [(0x61, ⟨false, ⟨3, 5⟩⟩)], cw := [(4, 0xFFFFFFFF)] }

theorem witness_UnspecifiedContentsAreUnobservable :
    (onPort State.reset [0x10000061#32]).Inv ∧ otherIdle.Inv ∧
      (onPort State.reset [0x10000061#32]).Indistinguishable otherIdle ∧
      step (onPort State.reset [0x10000061#32]) =
        .next { after [.sym 0x61] State.reset with cw := [(0, 0x10000061#32)] } := by
  refine ⟨inv_idle, ⟨?_, ?_, ?_, ?_, ?_, ?_, ?_, ?_, ?_, ?_, complete_of_phase (by decide)⟩, ⟨?_, ?_, ?_, ?_, ?_, ?_, ?_,
    fun j h => absurd h (by simp [onPort, State.reset]), fun i h => absurd h (by simp [onPort, State.reset]),
    fun h => absurd h (by decide), ?_, ?_, fun k h => absurd h (by simp [onPort, State.reset])⟩,
    eq_of_goesTo (by decide +kernel)⟩ <;> decide +kernel

theorem witness_StreamsGrowOnlyByTheirCommands :
    exec (.enc 0x61) builtAb = .next (after [.enc 0x61] builtAb) ∧ (after [.enc 0x61] builtAb).bout ≠ builtAb.bout ∧
      exec (.dbit true) loadedA = .next (after [.dbit true] loadedA) ∧
      (after [.dbit true] loadedA).sout ≠ loadedA.sout ∧ exec .tblout builtAb = .next (after [.tblout] builtAb) ∧
      (after [.tblout] builtAb).rsp ≠ builtAb.rsp :=
  ⟨eq_of_goesTo (by decide +kernel), by decide +kernel, eq_of_goesTo (by decide +kernel), by decide +kernel,
    eq_of_goesTo (by decide +kernel), by decide +kernel⟩

/-- What BUILD, an error and CLEAR change; ACC is empty between commands, so a state no run reaches shows its clause. -/
theorem witness_WritersOfEachElement :
    (exec (.enc 0x7A) builtAb = .next (after [.enc 0x7A] builtAb) ∧ (after [.enc 0x7A] builtAb).phase ≠ builtAb.phase ∧
      (after [.enc 0x7A] builtAb).err ≠ builtAb.err ∧ (after [.enc 0x7A] builtAb).pstate ≠ builtAb.pstate) ∧
    (exec .clear { State.reset with acc := ⟨1, 1⟩ } = .next State.reset ∧
      State.reset.acc ≠ ({ State.reset with acc := ⟨1, 1⟩ } : State).acc) ∧
    exec .build countedAb = .next builtAb ∧ builtAb.tsize ≠ countedAb.tsize ∧ builtAb.root ≠ countedAb.root ∧
      builtAb.tblAt 0 ≠ countedAb.tblAt 0 ∧ builtAb.nodeAt 2 ≠ countedAb.nodeAt 2 ∧
      builtAb.cbAt 0x62 ≠ countedAb.cbAt 0x62 :=
  ⟨⟨eq_of_goesTo (by decide +kernel), by decide +kernel, by decide +kernel, by decide +kernel⟩,
    ⟨eq_of_goesTo (by decide +kernel), by decide⟩,
    build_countedAb, by decide +kernel, by decide +kernel, by decide +kernel, by decide +kernel, by decide +kernel⟩

/-- One row of the longest codeword a row can carry. -/
theorem witness_TextLayoutReadsBack :
    (∀ (m : Word) (total : Nat), tabByte ∉ (fun (_ : Word) (_ : Nat) => [0x31#8]) m total) ∧
      1 ≤ [(0x61#8, 5#32, List.replicate 255 true)].length ∧ [(0x61#8, 5#32, List.replicate 255 true)].length ≤ 256 ∧
      ∀ r ∈ [(0x61#8, 5#32, List.replicate 255 true)], r.2.2.length ≤ 255 :=
  ⟨fun _ _ => (by decide : tabByte ∉ [0x31#8]), by decide, by decide, by decide +kernel⟩

end Sys2Proof.Tests
end

section
/-! SUPPORT. Lists of symbols: the rising list of all 256 of them, and what makes a list an enumeration of those with a
property. -/

namespace Sys2Proof.Machine

theorem allSymbols_nodup : allSymbols.Nodup := by
  refine List.Nodup.map_on (fun a ha b hb h => ?_) List.nodup_range
  simp only [Config.nsym, List.mem_range] at ha hb
  have := congrArg BitVec.toNat h
  simp only [BitVec.toNat_ofNat] at this
  omega

/-- A list enumerates the symbols with a property when each of them, and no other, stands in it once. -/
theorem perm_filter_allSymbols {l : List Symbol} {p : Symbol → Bool} :
    l.Perm (allSymbols.filter p) ↔ l.Nodup ∧ ∀ x, x ∈ l ↔ p x = true := by
  have hf : (allSymbols.filter p).Nodup := allSymbols_nodup.filter p
  constructor
  · intro h
    exact ⟨h.nodup_iff.mpr hf, fun x => by simp [h.mem_iff, mem_allSymbols]⟩
  · rintro ⟨hn, hm⟩
    exact (List.perm_ext_iff_of_nodup hn hf).mpr fun x => by simp [hm, mem_allSymbols]

/-- One more symbol gets the property: it goes to the end of the enumeration. -/
theorem perm_filter_append {l : List Symbol} {p q : Symbol → Bool} {x : Symbol} (h : l.Perm (allSymbols.filter p))
    (hx : p x = false) (hq : ∀ y, q y = (decide (x = y) || p y)) : (l ++ [x]).Perm (allSymbols.filter q) := by
  obtain ⟨hn, hm⟩ := perm_filter_allSymbols.mp h
  have hxl : x ∉ l := by simp [hm, hx]
  refine perm_filter_allSymbols.mpr ⟨?_, fun y => ?_⟩
  · rw [List.nodup_append_comm, List.singleton_append]
    exact List.nodup_cons.mpr ⟨hxl, hn⟩
  · rw [List.mem_append, List.mem_singleton, hm, hq, Bool.or_eq_true, decide_eq_true_eq, or_comm, eq_comm]

theorem sum_allSymbols (f : Symbol → Nat) : (allSymbols.map f).sum = ∑ x, f x := by
  rw [← List.sum_toFinset f allSymbols_nodup]
  exact Finset.sum_congr (Finset.ext fun x => by simp [mem_allSymbols]) fun _ _ => rfl

/-- A mapped range, with one more index that maps to `a`. -/
theorem map_range_succ_eq {α : Type} {f g : Nat → α} {n : Nat} {a : α} (hlt : ∀ i, i < n → g i = f i) (hn : g n = a) :
    (List.range (n + 1)).map g = (List.range n).map f ++ [a] := by
  rw [List.range_succ, List.map_append, List.map_singleton, hn]
  congr 1
  exact List.map_congr_left fun i hi => hlt i (List.mem_range.mp hi)

/-! ### Counting (10_state.md R46 item 1) -/

theorem State.mem_seenSymbols {s : State} (h : s.CountingInv) (x : Symbol) : x ∈ s.seenSymbols ↔ s.cntAt x ≠ 0#32 := by
  simpa using (perm_filter_allSymbols.mp h.2).2 x

theorem State.seenSymbols_nodup {s : State} (h : s.CountingInv) : s.seenSymbols.Nodup :=
  (perm_filter_allSymbols.mp h.2).1

theorem State.cntAt_le_sumCounts (s : State) (x : Symbol) : (s.cntAt x).toNat ≤ s.sumCounts := by
  rw [State.sumCounts, sum_allSymbols]
  exact Finset.single_le_sum (f := fun x => (s.cntAt x).toNat) (fun _ _ => Nat.zero_le _) (Finset.mem_univ x)

/-- The counts of the symbols seen add up to the sum of all counts: the others are zero. -/
theorem State.sum_seenSymbols {s : State} (h : s.CountingInv) :
    (s.seenSymbols.map fun x => (s.cntAt x).toNat).sum = s.sumCounts := by
  rw [State.sumCounts, sum_allSymbols, ← List.sum_toFinset _ (State.seenSymbols_nodup h)]
  refine Finset.sum_subset (Finset.subset_univ _) fun x _ hx => ?_
  have : s.cntAt x = 0#32 := by simpa [State.mem_seenSymbols h] using hx
  simp [this]

/-- A count below TOTAL's limit does not wrap. -/
theorem toNat_add_one_of_ne_cntMax {w : Word} (h : w ≠ Config.cntMax) : (w + 1#32).toNat = w.toNat + 1 := by
  have h' : w.toNat ≠ 4294967295 := fun e => h (BitVec.eq_of_toNat_eq (by simpa [Config.cntMax] using e))
  have := w.isLt
  simp only [BitVec.toNat_add, BitVec.toNat_ofNat]
  omega

theorem State.countSymbol_sumCounts {s : State} {x : Symbol} (hx : (s.cntAt x + 1#32).toNat = (s.cntAt x).toNat + 1) :
    (s.countSymbol x).sumCounts = s.sumCounts + 1 := by
  have hpt : ∀ y, ((s.countSymbol x).cntAt y).toNat = (s.cntAt y).toNat + if x = y then 1 else 0 := by
    intro y
    rw [State.countSymbol_cntAt]
    by_cases h : x = y
    · subst h; simp [hx]
    · simp [h]
  simp only [State.sumCounts, sum_allSymbols, hpt, Finset.sum_add_distrib, Finset.sum_ite_eq, Finset.mem_univ, if_true]

/-- The first occurrence of a symbol puts it at the end of FSEEN, a later one leaves FSEEN alone (40_frequency.md R110). -/
theorem State.countSymbol_seenSymbols {s : State} {x : Symbol} (hn : s.cntAt x = 0#32 → s.nseen.toNat < 256) :
    (s.countSymbol x).seenSymbols = if s.cntAt x = 0#32 then s.seenSymbols ++ [x] else s.seenSymbols := by
  by_cases h : s.cntAt x = 0#32
  · have hlt := hn h
    have hnext : (s.countSymbol x).nseen.toNat = s.nseen.toNat + 1 := by
      simp only [State.countSymbol_nseen, h, if_true, BitVec.toNat_add, BitVec.toNat_ofNat]
      omega
    rw [if_pos h, State.seenSymbols, hnext]
    refine map_range_succ_eq (fun i hi => ?_) (by simp [State.countSymbol_fseenAt, h])
    rw [State.countSymbol_fseenAt, if_neg (by omega)]
  · have hf : (s.countSymbol x).fseenAt = s.fseenAt := funext fun j => by simp [State.countSymbol_fseenAt, h]
    rw [if_neg h, State.seenSymbols, State.countSymbol_nseen, if_neg h, hf, State.seenSymbols]

/-- An accepted SYM keeps item 1 of R46. -/
theorem State.countSymbol_countingInv {s : State} {x : Symbol} (h : s.CountingInv) (hm : s.total ≠ Config.cntMax)
    (hn : s.cntAt x = 0#32 → s.nseen.toNat < 256) : (s.countSymbol x).CountingInv := by
  have htot := toNat_add_one_of_ne_cntMax hm
  have hcnt : (s.cntAt x + 1#32).toNat = (s.cntAt x).toNat + 1 := by
    have hle := s.cntAt_le_sumCounts x
    have hlt := (s.total + 1#32).isLt
    have hsum := h.1
    simp only [BitVec.toNat_add, BitVec.toNat_ofNat] at htot hlt ⊢
    omega
  have hne : s.cntAt x + 1#32 ≠ 0#32 := fun e => by rw [e] at hcnt; simp at hcnt
  refine ⟨?_, ?_⟩
  · rw [State.countSymbol_total, htot, State.countSymbol_sumCounts hcnt, h.1]
  · rw [State.countSymbol_seenSymbols hn]
    by_cases h0 : s.cntAt x = 0#32
    · rw [if_pos h0]
      refine perm_filter_append h.2 (by simp [h0]) fun y => ?_
      by_cases hy : x = y
      · simp [State.countSymbol_cntAt, hy ▸ hne, hy]
      · simp [State.countSymbol_cntAt, hy]
    · rw [if_neg h0]
      refine h.2.trans (List.Perm.of_eq (List.filter_congr fun y _ => ?_))
      by_cases hy : x = y
      · subst hy; simp [State.countSymbol_cntAt, hne, h0]
      · simp [State.countSymbol_cntAt, hy]

end Sys2Proof.Machine
end

section
/-! SUPPORT. What a command can do to the state, said once for all fourteen: the one case analysis that the invariants of
R46 and the writers of each element are read from. -/

namespace Sys2Proof.Machine

/-- The five commands that answer on RSP (20_memory.md R66). -/
def answersOnRsp (i : Instr) : Prop :=
  (∃ r, i = .rdreg r) ∨ (∃ x, i = .rdcnt x) ∨ (∃ n, i = .rdnode n) ∨ (∃ x, i = .rdcode x) ∨ i = .tblout

/-- An accepted LDSIZE (44_decoder.md R160). -/
def State.beginLoad (n : Index) (s : State) : State :=
  { s with tsize := n, nrow := 0#9, src := true, phase := .load }

/-- The state a command may lead to. Any command, and an illegal encoding too, may leave the state as it is or raise an
error; each other effect is one command's own, with what its checks and the legality matrix of R212 have ensured. -/
inductive State.Does (s : State) : Instr → State → Prop
  | stays (i : Instr) : s.Does i s
  | raises (i : Instr) (e : ErrorKind) (info : BitVec 16) (hp : s.phase ≠ .err) : s.Does i (s.raise e info)
  | clears : s.Does .clear s.clearSession
  | answers (i : Instr) (ws : List Word) (hi : answersOnRsp i) : s.Does i (s.emitRsp ws)
  | encodes (x : Symbol) (bs : List Bool) : s.Does (.enc x) (s.emitBout bs)
  | counts (x : Symbol) (hp : s.phase = .idle ∨ s.phase = .count) (hm : s.total ≠ Config.cntMax)
      (hn : s.cntAt x = 0#32 → s.nseen.toNat < 256) : s.Does (.sym x) (s.countSymbol x)
  | builds (hp : s.phase = .count) (h2 : 2 ≤ s.nseen.toNat) (hn : s.nseen.toNat ≤ 256) :
      s.Does .build (s.buildAll s.nseen.toNat)
  | beginsLoad (n : Index) (hp : s.phase = .idle) (h0 : n ≠ 0#9) (hn : n.toNat ≤ 256) :
      s.Does (.ldsize n) (s.beginLoad n)
  | loadsRow (x : Symbol) (len : BitVec 8) (m : Word) (code : CodeBits) (hp : s.phase = .load)
      (he : s.rowError x len code = none) : s.Does (.ldrow x len m code) (s.commitRow x len m code)
  | takesBit (b : Bool) (hp : s.phase = .ready) (hl : s.buf.len ≠ 255#8) : s.Does (.dbit b) (s.acceptBit b)

variable {s t : State} {i : Instr}

theorem State.Does.of_illegalCommand {info : BitVec 16} (i : Instr) (h : illegalCommand info s = .next t) :
    s.Does i t := by
  by_cases hp : s.phase = .err
  · rw [illegalCommand_err info hp] at h; cases h; exact .stays i
  · rw [illegalCommand_raises info hp] at h; cases h; exact .raises i _ _ hp

/-- What the legality matrix does instead of the command's own rule. -/
theorem State.Does.of_gated (h : gated i s t) : s.Does i t := by
  rcases h with ⟨e, hl, rfl⟩ | ⟨_, rfl⟩
  · exact .raises i _ _ (legality_error hl)
  · exact .stays i

theorem ne_err_of_legality_ok (hd : legality i .err = .drop) (h : legality i s.phase = .ok) : s.phase ≠ .err := by
  intro hp; rw [hp, hd] at h; cases h

theorem phase_of_legality_sym {x : Symbol} (h : legality (.sym x) s.phase = .ok) :
    s.phase = .idle ∨ s.phase = .count := by
  cases hp : s.phase <;> simp_all [legality, legalityRow]

theorem phase_of_legality_build (h : legality .build s.phase = .ok) : s.phase = .count := by
  cases hp : s.phase <;> simp_all [legality, legalityRow]

theorem phase_of_legality_ldsize {n : Index} (h : legality (.ldsize n) s.phase = .ok) : s.phase = .idle := by
  cases hp : s.phase <;> simp_all [legality, legalityRow]

theorem phase_of_legality_ldrow {x : Symbol} {len : BitVec 8} {m : Word} {code : CodeBits}
    (h : legality (.ldrow x len m code) s.phase = .ok) : s.phase = .load := by
  cases hp : s.phase <;> simp_all [legality, legalityRow]

theorem phase_of_legality_dbit {b : Bool} (h : legality (.dbit b) s.phase = .ok) : s.phase = .ready := by
  cases hp : s.phase <;> simp_all [legality, legalityRow]

/-- Every command that goes on has done one of these things. -/
theorem State.Does.of_exec (h : exec i s = .next t) : s.Does i t := by
  cases i with
  | nop =>
    have hl : legality .nop s.phase = .ok := by cases s.phase <;> rfl
    rw [exec, execNop, gate_ok hl] at h; cases h; exact .stays _
  | clear => rw [exec_clear_eq] at h; cases h; exact .clears
  | rdreg r =>
    rw [exec_rdreg_eq] at h
    split at h
    · cases h; exact .answers _ _ (.inl ⟨r, rfl⟩)
    · exact .of_illegalCommand _ h
  | sym x =>
    rcases exec_sym_cases h with ⟨hl, _, rfl⟩ | ⟨hl, hm, hn, rfl⟩ | hg
    · exact .raises _ _ _ (ne_err_of_legality_ok rfl hl)
    · exact .counts x (phase_of_legality_sym hl) hm hn
    · exact .of_gated hg
  | rdcnt x => rw [exec_rdcnt_eq] at h; cases h; exact .answers _ _ (.inr (.inl ⟨x, rfl⟩))
  | build =>
    rcases exec_build_cases h with ⟨hl, _, rfl⟩ | ⟨hl, h2, hn, rfl⟩ | hg
    · exact .raises _ _ _ (ne_err_of_legality_ok rfl hl)
    · exact .builds (phase_of_legality_build hl) h2 hn
    · exact .of_gated hg
  | rdnode n => rw [exec_rdnode_eq] at h; cases h; exact .answers _ _ (.inr (.inr (.inl ⟨n, rfl⟩)))
  | rdcode x => rw [exec_rdcode_eq] at h; cases h; exact .answers _ _ (.inr (.inr (.inr (.inl ⟨x, rfl⟩))))
  | enc x =>
    rcases exec_enc_cases h with ⟨_, _, rfl⟩ | ⟨hl, _, rfl⟩ | hg
    · exact .encodes x _
    · exact .raises _ _ _ (ne_err_of_legality_ok rfl hl)
    · exact .of_gated hg
  | tblout =>
    rcases exec_tblout_cases h with ⟨_, _, rfl⟩ | hg
    · exact .answers _ _ (.inr (.inr (.inr (.inr rfl))))
    · exact .of_gated hg
  | ldsize n =>
    rcases exec_ldsize_cases h with ⟨hl, _, rfl⟩ | ⟨hl, h0, hn, rfl⟩ | hg
    · exact .raises _ _ _ (ne_err_of_legality_ok rfl hl)
    · exact .beginsLoad n (phase_of_legality_ldsize hl) h0 hn
    · exact .of_gated hg
  | ldrow x len m code =>
    rcases exec_ldrow_cases h with ⟨e, info, hl, _, rfl⟩ | ⟨hl, he, _, rfl⟩ | hg
    · exact .raises _ _ _ (ne_err_of_legality_ok rfl hl)
    · exact .loadsRow x len m code (phase_of_legality_ldrow hl) he
    · exact .of_gated hg
  | dbit b =>
    rcases exec_dbit_cases h with ⟨hl, _, rfl⟩ | ⟨hl, hb, rfl⟩ | hg
    · exact .raises _ _ _ (ne_err_of_legality_ok rfl hl)
    · exact .takesBit b (phase_of_legality_dbit hl) hb
    · exact .of_gated hg
  | dend =>
    rcases exec_dend_cases h with ⟨_, _, rfl⟩ | ⟨hl, _, rfl⟩ | hg
    · exact .stays _
    · exact .raises _ _ _ (ne_err_of_legality_ok rfl hl)
    · exact .of_gated hg

/-- Every complete command that goes on, legal or not in encoding, has done one of these things. -/
theorem State.Does.of_runCommand {ws : List Word} (h : runCommand ws s = .next t) : ∃ i, s.Does i t := by
  rcases runCommand_cases h with ⟨i, _, h⟩ | ⟨_, _, h⟩
  · exact ⟨i, .of_exec h⟩
  · exact ⟨.nop, .of_illegalCommand _ h⟩

/-! ### The three effects with a case or a loop of their own -/

theorem State.acceptBit_cases (s : State) (b : Bool) :
    (∃ x, s.matchSymbol (s.buf.snoc b) = some x ∧ s.acceptBit b = { s with buf := BitString.empty }.emitSout x) ∨
    (s.matchSymbol (s.buf.snoc b) = none ∧ s.acceptBit b = { s with buf := s.buf.snoc b }) := by
  cases h : s.matchSymbol (s.buf.snoc b) with
  | some x => exact .inl ⟨x, rfl, by simp only [State.acceptBit, h]⟩
  | none => exact .inr ⟨rfl, by simp only [State.acceptBit, h]⟩

/-- DBIT writes BUF and SOUT only (44_decoder.md R167). -/
theorem State.acceptBit_frame (s : State) (b : Bool) : ∃ buf sout, s.acceptBit b = { s with buf := buf, sout := sout } := by
  rcases s.acceptBit_cases b with ⟨_, _, h⟩ | ⟨_, h⟩
  · exact ⟨_, _, h⟩
  · exact ⟨_, _, h⟩

theorem State.commitRow_cases (s : State) (x : Symbol) (len : BitVec 8) (m : Word) (code : CodeBits) :
    (s.nrow + 1#9 = s.tsize ∧ s.commitRow x len m code = (s.storeRow x len m code).becomeReady) ∨
    (s.nrow + 1#9 ≠ s.tsize ∧ s.commitRow x len m code = s.storeRow x len m code) := by
  by_cases h : s.nrow + 1#9 = s.tsize
  · exact .inl ⟨h, by simp [State.commitRow, h]⟩
  · exact .inr ⟨h, by simp [State.commitRow, h]⟩

/-- The merge loop writes NODE, TOPS, NNODE and NTOP only (41_tree_build.md R126 to R129). -/
theorem State.mergeLoop_frame (fuel : Nat) (s : State) :
    ∃ node tops nnode ntop,
      s.mergeLoop fuel = { s with node := node, tops := tops, nnode := nnode, ntop := ntop } := by
  induction fuel generalizing s with
  | zero => exact ⟨s.node, s.tops, s.nnode, s.ntop, rfl⟩
  | succ fuel ih =>
    rw [State.mergeLoop]
    split
    · obtain ⟨node, tops, nnode, ntop, h⟩ := ih s.mergeStep
      exact ⟨node, tops, nnode, ntop, h⟩
    · exact ⟨s.node, s.tops, s.nnode, s.ntop, rfl⟩

/-- BUILD writes the sorted table, the tree and the code book, and sets the flags of R120 (41_tree_build.md). -/
theorem State.buildAll_frame (k : Nat) (s : State) :
    ∃ nnode ntop root acc node tops cb,
      s.buildAll k =
        { s.sortTable k with
          phase := .ready, cbValid := true, treeValid := true, buf := BitString.empty, nnode := nnode, ntop := ntop
          root := root, acc := acc, node := node, tops := tops, cb := cb } := by
  obtain ⟨node, tops, nnode, ntop, h⟩ := ((s.sortTable k).seedTree k).mergeLoop_frame 255
  rw [State.buildAll, h]
  exact ⟨_, _, _, _, _, _, _, rfl⟩

/-- Settles O58: one case for each thing a command can do. -/
theorem writersOfEachElement : Obligations.WritersOfEachElement := by
  intro i s t h
  cases State.Does.of_exec h with
  | stays => simp [State.SameAssembler]
  | raises _ e info =>
    have hE : ∃ e' info', s.ErrorEntered e' info' (s.raise e info) := ⟨e, info, raise_errorEntered s e info⟩
    simp [State.SameAssembler, hE]
  | clears => simp [State.SameAssembler]
  | answers _ ws hi =>
    rw [answersOnRsp] at hi
    simp [State.SameAssembler, hi]
  | encodes x bs => simp [State.SameAssembler]
  | counts x => simp [State.SameAssembler]
  | builds =>
    obtain ⟨_, _, _, _, _, _, _, hb⟩ := s.buildAll_frame s.nseen.toNat
    rw [hb]
    simp [State.SameAssembler, State.cntAt, State.fseenAt, State.cwAt]
  | beginsLoad n =>
    simp [State.SameAssembler, State.beginLoad, State.cntAt, State.fseenAt, State.tblAt, State.nodeAt, State.topsAt,
      State.cbAt, State.cwAt]
  | loadsRow x len m code =>
    rcases s.commitRow_cases x len m code with ⟨_, hc⟩ | ⟨_, hc⟩
    · rw [hc]; simp [State.SameAssembler]
    · rw [hc]; simp [State.SameAssembler]
  | takesBit b =>
    obtain ⟨buf, sout, hb⟩ := s.acceptBit_frame b
    rw [hb]
    simp [State.SameAssembler, State.cntAt, State.fseenAt, State.tblAt, State.nodeAt, State.topsAt, State.cbAt,
      State.cwAt]

end Sys2Proof.Machine
end

section
/-! SUPPORT. The fields of STATUS and the state after reset. -/

namespace Sys2Proof.Machine

/-- The wider fields of STATUS: each is read back where R23 places it, and no other field reaches there. -/
theorem State.status_fields (s : State) :
    s.status.extractLsb' 0 3 = s.phase.number ∧ s.status.extractLsb' 8 8 = s.buf.len ∧
      s.status.extractLsb' 16 9 = s.tsize ∧ s.status.extractLsb' 25 3 = s.pstate.number ∧
      s.status.extractLsb' 28 4 = 0#4 := by
  simp [State.status, State.bufLen, extractLsb'_or, extractLsb'_place, extractLsb'_place_disjoint]

/-- The bits of STATUS that are no part of a wider field. -/
theorem State.status_bits (s : State) :
    s.status.getLsbD 3 = s.cbValid ∧ s.status.getLsbD 4 = s.treeValid ∧ s.status.getLsbD 5 = s.src ∧
      s.status.getLsbD 6 = s.bufNe ∧ s.status.getLsbD 7 = false := by
  simp only [State.status, BitVec.getLsbD_or, getLsbD_place]
  simp

/-- Settles O14: each field and bit read back from its place. -/
theorem statusWordFields : Obligations.StatusWordFields := by
  intro s
  obtain ⟨hphase, hlen, htsize, hpstate, hhigh⟩ := s.status_fields
  obtain ⟨hcb, htree, hsrc, hne, h7⟩ := s.status_bits
  refine ⟨?_, hcb, htree, hsrc, ?_, h7, hlen, htsize, ?_, hhigh⟩
  · rw [hphase]; cases s.phase <;> rfl
  · rw [hne]; simp [State.bufNe]
  · rw [hpstate]; cases s.pstate <;> rfl

/-- Settles O8: the reset event answers the reset state with the events that follow it. -/
theorem resetPutsStateAtItsValues : Obligations.ResetPutsStateAtItsValues := by
  intro s rest h
  have hstep : step s = .next { State.reset with port := rest } := by simp only [step, takeEvent, h]
  exact ⟨_, hstep, rfl, rfl, rfl, rfl, rfl, rfl, rfl, rfl, rfl, rfl, rfl, rfl, rfl, rfl, rfl, fun _ => ⟨rfl, rfl⟩, rfl,
    rfl, rfl, rfl, rfl, rfl⟩

/-- A state in which nothing has been counted meets item 1 of R46. -/
theorem State.countingInv_of_zero {s : State} (ht : s.total = 0#32) (hn : s.nseen = 0#9)
    (hc : ∀ x, s.cntAt x = 0#32) : s.CountingInv := by
  refine ⟨by simp [State.sumCounts, ht, hc], ?_⟩
  exact perm_filter_allSymbols.mpr ⟨by simp [State.seenSymbols, hn], fun x => by simp [State.seenSymbols, hn, hc]⟩

theorem reset_inv : State.reset.Inv where
  counting := State.countingInv_of_zero rfl rfl fun _ => rfl
  idle _ := ⟨⟨rfl, rfl, rfl, rfl, rfl⟩, ⟨rfl, rfl, rfl, rfl, rfl, rfl⟩, ⟨rfl, rfl, rfl⟩, fun _ => ⟨rfl, rfl⟩⟩
  count := nofun
  load := nofun
  ready := nofun
  prefixFree := nofun
  buffer := ⟨BitString.empty_stored, nofun, fun h => absurd rfl h⟩
  error := by simp [State.ErrorInv, State.reset, ErrReg.none]
  assembler h := absurd rfl h
  accEmpty := rfl
  complete := nofun

/-- Settles O46: clause by clause; the empty tables are canonical. -/
theorem resetMeetsTheInvariants : Obligations.ResetMeetsTheInvariants := ⟨reset_inv, rfl⟩

/-! ### Every effect but BUILD's keeps the invariants of R46 -/

variable {s t : State}

/-- The command assembler and the port play no part but in its own clause. -/
theorem State.Inv.withAssembler (h : s.Inv) (cw : Table Word) (cwn : Fin 10) (port : List PortEvent)
    (ha : cwn ≠ 0 → opcodeOf (Table.read 0#32 cw 0) = 0x41#8) :
    ({ s with cw := cw, cwn := cwn, port := port } : State).Inv :=
  ⟨h.counting, h.idle, h.count, h.load, h.ready, h.prefixFree, h.buffer, h.error, ha, h.accEmpty, h.complete⟩

/-- Nor do the streams. -/
theorem State.Inv.withStreams (h : s.Inv) (rsp : List Word) (bout : List Bool) (sout : List Symbol) :
    ({ s with rsp := rsp, bout := bout, sout := sout } : State).Inv :=
  ⟨h.counting, h.idle, h.count, h.load, h.ready, h.prefixFree, h.buffer, h.error, h.assembler, h.accEmpty, h.complete⟩

theorem ErrorKind.code_ne_zero (e : ErrorKind) : e.code ≠ 0#8 := by cases e <;> decide

/-- Error entry from any phase but ERR (60_exceptions.md R196). -/
theorem State.Inv.raise (h : s.Inv) (hp : s.phase ≠ .err) (e : ErrorKind) (info : BitVec 16) : (s.raise e info).Inv where
  counting := h.counting
  idle := nofun
  count := nofun
  load := nofun
  ready := nofun
  prefixFree := h.prefixFree
  buffer := by
    obtain ⟨hstored, hunmatched, hphase⟩ := h.buffer
    refine ⟨hstored, hunmatched, fun hne => .inr ⟨rfl, ?_⟩⟩
    exact (hphase hne).resolve_right fun hr => hp hr.1
  error := by
    obtain ⟨-, -, -, hvalid⟩ := h.error
    refine ⟨by simp [errRecord, e.code_ne_zero], fun hne => absurd rfl hne, fun _ => hp, ?_⟩
    simpa [hp] using hvalid
  assembler := h.assembler
  accEmpty := h.accEmpty
  complete := nofun

/-- CLEAR (45_system.md R181). -/
theorem State.Inv.clearSession (h : s.Inv) : s.clearSession.Inv where
  counting := State.countingInv_of_zero rfl rfl fun _ => rfl
  idle _ := ⟨⟨rfl, rfl, rfl, rfl, rfl⟩, ⟨rfl, rfl, rfl, rfl, rfl, rfl⟩, ⟨rfl, rfl, rfl⟩,
    fun x => ⟨rfl, by rw [State.clearSession_cbAt]⟩⟩
  count := nofun
  load := nofun
  ready := nofun
  prefixFree x hx := by rw [State.clearSession_cbAt] at hx; cases hx
  buffer := by
    refine ⟨BitString.empty_stored, fun x hx => ?_, fun h => absurd rfl h⟩
    rw [State.clearSession_cbAt] at hx; cases hx
  error := by simp [State.ErrorInv, ErrReg.none]
  assembler := h.assembler
  accEmpty := rfl
  complete := nofun

/-- An empty buffer begins with no non-empty codeword. -/
theorem State.bufferInv_of_empty (hc : s.PrefixFree) (hb : s.buf = BitString.empty) : s.BufferInv := by
  refine ⟨hb ▸ BitString.empty_stored, fun x hx => ?_, fun hne => absurd (by rw [hb]; rfl) hne⟩
  obtain ⟨⟨hlen, -⟩, -⟩ := hc x hx
  rw [hb, BitString.isPrefixOf, BitString.empty]
  simp [hlen]

/-- What R46 items 2 and 3 say alike of IDLE and COUNT: no table, no tree, no code book. -/
theorem State.Inv.no_table (h : s.Inv) (hp : s.phase = .idle ∨ s.phase = .count) :
    (s.cbValid = false ∧ s.treeValid = false ∧ s.src = false) ∧
      (s.tsize = 0#9 ∧ s.nrow = 0#9 ∧ s.nnode = 0#9 ∧ s.ntop = 0#9 ∧ s.root = Config.nil) ∧
      s.buf = BitString.empty ∧ ∀ x, (s.cbAt x).valid = false := by
  rcases hp with hp | hp
  · obtain ⟨⟨hcb, htree, hsrc, -, -⟩, ⟨-, htsize, -, hnrow, hnnode, hntop⟩, ⟨hroot, -, hbuf⟩, hx⟩ := h.idle hp
    exact ⟨⟨hcb, htree, hsrc⟩, ⟨htsize, hnrow, hnnode, hntop, hroot⟩, hbuf, fun x => (hx x).2⟩
  · obtain ⟨-, hflags, hcounters, hbuf, hx⟩ := h.count hp
    exact ⟨hflags, hcounters, hbuf, hx⟩

/-- Where something has been counted, some symbol has been seen. -/
theorem State.one_le_nseen (h : s.CountingInv) (ht : 1 ≤ s.total.toNat) : 1 ≤ s.nseen.toNat := by
  by_contra hn
  have hsum := State.sum_seenSymbols h
  rw [State.seenSymbols, show s.nseen.toNat = 0 by omega, ← h.1] at hsum
  simp at hsum
  omega

/-- Item 8 of R46 holds of a state outside ERR that has the error record of one outside ERR and CB_VALID as its phase
says. -/
theorem State.Inv.error_of_phase (h : s.Inv) (hs : s.phase ≠ .err) (ht : t.phase ≠ .err) (herr : t.err = s.err)
    (hps : t.pstate = s.pstate) (hcb : t.cbValid = true ↔ t.phase = .ready) : t.ErrorInv := by
  obtain ⟨-, hclear, -, -⟩ := h.error
  obtain ⟨hnone, hidle⟩ := hclear hs
  refine ⟨?_, fun _ => ⟨herr.trans hnone, hps.trans hidle⟩, fun hp => absurd hp ht, ?_⟩
  · rw [herr, hnone]; simp [ht, ErrReg.none]
  · rw [hcb]; simp [ht]

/-- An accepted SYM (40_frequency.md R110). -/
theorem State.Inv.countSymbol (h : s.Inv) {x : Symbol} (hp : s.phase = .idle ∨ s.phase = .count)
    (hm : s.total ≠ Config.cntMax) (hn : s.cntAt x = 0#32 → s.nseen.toNat < 256) : (s.countSymbol x).Inv where
  counting := State.countSymbol_countingInv h.counting hm hn
  idle := nofun
  count _ := by
    obtain ⟨hflags, hcounters, hbuf, hx⟩ := h.no_table hp
    have htotal : 1 ≤ (s.countSymbol x).total.toNat := by
      rw [State.countSymbol_total, toNat_add_one_of_ne_cntMax hm]
      exact Nat.le_add_left 1 _
    exact ⟨⟨htotal, State.one_le_nseen (State.countSymbol_countingInv h.counting hm hn) htotal⟩, hflags, hcounters, hbuf, hx⟩
  load := nofun
  ready := nofun
  prefixFree := h.prefixFree
  buffer := by
    obtain ⟨-, -, hbuf, -⟩ := h.no_table hp
    exact State.bufferInv_of_empty h.prefixFree hbuf
  error := by
    have hs : s.phase ≠ .err := by rcases hp with hp | hp <;> simp [hp]
    have hcb : s.cbValid = false := (h.no_table hp).1.1
    exact h.error_of_phase hs nofun rfl rfl (by simp [hcb])
  assembler := h.assembler
  accEmpty := h.accEmpty
  complete := nofun

/-- An accepted LDSIZE (44_decoder.md R160). -/
theorem State.Inv.beginLoad (h : s.Inv) {n : Index} (hp : s.phase = .idle) (h0 : n ≠ 0#9) (hn : n.toNat ≤ 256) :
    (s.beginLoad n).Inv where
  counting := h.counting
  idle := nofun
  count := nofun
  load _ := by
    obtain ⟨⟨hcb, htree, -⟩, ⟨-, -, hnnode, hntop, hroot⟩, hbuf, hx⟩ := h.no_table (.inl hp)
    obtain ⟨-, ⟨htotal, -, hnseen, -⟩, -⟩ := h.idle hp
    have hpos : 1 ≤ n.toNat := Nat.one_le_iff_ne_zero.mpr fun e => h0 (BitVec.eq_of_toNat_eq e)
    refine ⟨⟨rfl, hpos, hn, hpos⟩, ⟨hcb, htree, htotal, hnseen⟩, ⟨hnnode, hntop, hroot⟩, hbuf, ?_⟩
    exact perm_filter_allSymbols.mpr ⟨List.nodup_nil, fun x => iff_of_false nofun (by rw [Bool.not_eq_true]; exact hx x)⟩
  ready := nofun
  prefixFree := h.prefixFree
  buffer := State.bufferInv_of_empty h.prefixFree (h.no_table (.inl hp)).2.2.1
  error := by
    have hcb : s.cbValid = false := (h.no_table (.inl hp)).1.1
    exact h.error_of_phase (by simp [hp]) nofun rfl rfl (by simp [State.beginLoad, hcb])
  assembler := h.assembler
  accEmpty := h.accEmpty
  complete := nofun

/-! ### LDROW (44_decoder.md R162, R163) -/

variable {x : Symbol} {len : BitVec 8} {m : Word} {code : CodeBits}

/-- A row that passes the checks of R162 has a stored, non-empty codeword that collides with no valid one. -/
theorem State.rowCodeword_ok (he : s.rowError x len code = none) :
    (rowCodeword len code).len ≠ 0#8 ∧ (rowCodeword len code).stored = true ∧ (s.cbAt x).valid = false ∧
      ∀ y, (s.cbAt y).valid = true → (s.cbAt y).word.prefixRelated (rowCodeword len code) = false := by
  obtain ⟨hlen, hstray, hnew, hfree⟩ := (rowError_none s x len code).mp he
  refine ⟨hlen, by simpa [BitString.stored, rowCodeword] using hstray, hnew, fun y hy => ?_⟩
  simpa [hy] using (leastSymbol_none _).mp hfree y

theorem BitString.prefixRelated_comm (c d : BitString) : c.prefixRelated d = d.prefixRelated c :=
  Bool.or_comm _ _

/-- The row that is stored keeps item 6 of R46. -/
theorem State.storeRow_prefixFree (h : s.PrefixFree) (he : s.rowError x len code = none) :
    (s.storeRow x len m code).PrefixFree := by
  obtain ⟨hlen, hstored, -, hfree⟩ := State.rowCodeword_ok he
  intro y hy
  rw [State.storeRow_cbAt] at hy ⊢
  by_cases hxy : x = y
  · rw [if_pos hxy]
    refine ⟨⟨hlen, hstored⟩, fun z hz hyz => ?_⟩
    rw [State.storeRow_cbAt, if_neg (hxy ▸ hyz)] at hz ⊢
    rw [BitString.prefixRelated_comm]
    exact hfree z hz
  · rw [if_neg hxy] at hy ⊢
    obtain ⟨hword, hpair⟩ := h y hy
    refine ⟨hword, fun z hz hyz => ?_⟩
    rw [State.storeRow_cbAt] at hz ⊢
    by_cases hxz : x = z
    · rw [if_pos hxz]
      exact hfree y hy
    · rw [if_neg hxz] at hz ⊢
      exact hpair z hz hyz

/-- The row that is stored keeps TBL a list of the symbols with a valid codeword. -/
theorem State.storeRow_rowSymbols (h : s.rowSymbols.Perm s.validSymbols) (hnew : (s.cbAt x).valid = false)
    (hn : (s.nrow + 1#9).toNat = s.nrow.toNat + 1) :
    (s.storeRow x len m code).rowSymbols.Perm (s.storeRow x len m code).validSymbols := by
  have hrows : (s.storeRow x len m code).rowSymbols = s.rowSymbols ++ [x] := by
    rw [State.rowSymbols, State.storeRow_nrow, hn]
    refine map_range_succ_eq (fun i hi => ?_) (by simp [State.storeRow_tblAt])
    rw [State.storeRow_tblAt, if_neg (by omega)]
  rw [hrows]
  refine perm_filter_append h hnew fun y => ?_
  rw [State.storeRow_cbAt]
  by_cases hxy : x = y
  · simp [hxy]
  · simp [hxy]

/-- An accepted LDROW (44_decoder.md R163). -/
theorem State.Inv.commitRow (h : s.Inv) (hp : s.phase = .load) (he : s.rowError x len code = none) :
    (s.commitRow x len m code).Inv := by
  obtain ⟨⟨hsrc, hpos, hle, hlt⟩, ⟨hcb, htree, htotal, hnseen⟩, htop, hbuf, hrows⟩ := h.load hp
  obtain ⟨-, -, hnew, -⟩ := State.rowCodeword_ok he
  have hn : (s.nrow + 1#9).toNat = s.nrow.toNat + 1 := by
    simp only [BitVec.toNat_add, BitVec.toNat_ofNat]
    omega
  have hfree : (s.storeRow x len m code).PrefixFree := State.storeRow_prefixFree h.prefixFree he
  have hsyms := State.storeRow_rowSymbols (len := len) (m := m) (code := code) hrows hnew hn
  rcases s.commitRow_cases x len m code with ⟨hlast, hc⟩ | ⟨hmore, hc⟩
  · rw [hc]
    exact {
      counting := h.counting
      idle := nofun
      count := nofun
      load := nofun
      ready := fun _ => ⟨⟨rfl, hlast, hpos, hsyms⟩, fun hs => absurd (hs.symm.trans hsrc) nofun, fun _ => ⟨htree, htop⟩⟩
      prefixFree := hfree
      buffer := State.bufferInv_of_empty hfree rfl
      error := h.error_of_phase (by simp [hp]) nofun rfl rfl (by simp)
      assembler := h.assembler
      accEmpty := h.accEmpty
      complete := fun _ hs => absurd (hs.symm.trans hsrc) nofun }
  · have hphase : (s.storeRow x len m code).phase = .load := hp
    have hlt' : s.nrow.toNat + 1 < s.tsize.toNat :=
      Nat.lt_of_le_of_ne hlt fun e => hmore (BitVec.eq_of_toNat_eq (hn.trans e))
    rw [hc]
    exact {
      counting := h.counting
      idle := fun e => by simp [hp] at e
      count := fun e => by simp [hp] at e
      load := fun _ => ⟨⟨hsrc, hpos, hle, by rw [State.storeRow_nrow, hn]; exact hlt'⟩, ⟨hcb, htree, htotal, hnseen⟩, htop,
        hbuf, hsyms⟩
      ready := fun e => by simp [hp] at e
      prefixFree := hfree
      buffer := State.bufferInv_of_empty hfree hbuf
      error := h.error_of_phase (by simp [hp]) (by simp [hp]) rfl rfl (by simp [hp, hcb])
      assembler := h.assembler
      accEmpty := h.accEmpty
      complete := fun e => by simp [hp] at e }

/-! ### DBIT (44_decoder.md R167) -/

/-- Where the buffer begins with no codeword and, with the bit appended, equals none, it begins with none then. -/
theorem State.not_isPrefixOf_snoc (h : s.Inv) {b : Bool} (hl : s.buf.len ≠ 255#8)
    (hm : s.matchSymbol (s.buf.snoc b) = none) {x : Symbol} (hx : (s.cbAt x).valid = true) :
    (s.cbAt x).word.isPrefixOf (s.buf.snoc b) = false := by
  obtain ⟨hstored, hunmatched, -⟩ := h.buffer
  obtain ⟨⟨-, hword⟩, -⟩ := h.prefixFree x hx
  rw [Bool.eq_false_iff, Ne, BitString.isPrefixOf_iff, BitString.snoc_toList _ _ hl]
  intro hpre
  rcases List.prefix_concat_iff.mp hpre with heq | hshort
  · have hw : (s.cbAt x).word = s.buf.snoc b :=
      BitString.eq_of_toList hword (BitString.snoc_stored _ _ hl hstored) (by rw [heq, BitString.snoc_toList _ _ hl])
    simpa [hx, hw] using (leastSymbol_none _).mp hm x
  · have := hunmatched x hx
    rw [Bool.eq_false_iff, Ne, BitString.isPrefixOf_iff] at this
    exact this hshort

/-- An accepted DBIT (44_decoder.md R167). -/
theorem State.Inv.acceptBit (h : s.Inv) (b : Bool) (hp : s.phase = .ready) (hl : s.buf.len ≠ 255#8) :
    (s.acceptBit b).Inv := by
  have hbuffer : (s.acceptBit b).BufferInv := by
    rcases s.acceptBit_cases b with ⟨y, -, hb⟩ | ⟨hm, hb⟩
    · rw [hb]
      exact State.bufferInv_of_empty h.prefixFree rfl
    · rw [hb]
      exact ⟨BitString.snoc_stored _ _ hl h.buffer.1, fun x hx => State.not_isPrefixOf_snoc h hl hm hx, fun _ => .inl hp⟩
  obtain ⟨buf, sout, hb⟩ := s.acceptBit_frame b
  rw [hb] at hbuffer ⊢
  exact {
    counting := h.counting
    idle := fun e => by simp [hp] at e
    count := fun e => by simp [hp] at e
    load := fun e => by simp [hp] at e
    ready := h.ready
    prefixFree := h.prefixFree
    buffer := hbuffer
    error := h.error
    assembler := h.assembler
    accEmpty := h.accEmpty
    complete := h.complete }

end Sys2Proof.Machine
end

section
/-! SUPPORT. The tree of BUILD as a binary tree over table rows: what NODE holds of it, the codewords on its root-to-leaf
paths, and the walk that writes them (42_codebook.md R140 to R142). -/

namespace Sys2Proof.Machine

/-- A proper binary tree over table rows; `b` is the label of the left edge, the right edge has the other one. -/
inductive CodeTree where
  | leaf (r : Row)
  | fork (b : Bool) (l r : CodeTree)

namespace CodeTree

/-- The rows of the leaves, left before right. -/
def rows : CodeTree → List Row
  | leaf r => [r]
  | fork _ l r => l.rows ++ r.rows

/-- The number of edges on the longest path to a leaf. -/
def height : CodeTree → Nat
  | leaf _ => 0
  | fork _ l r => max l.height r.height + 1

/-- The sum of META over the leaves, as a word: what W holds (41_tree_build.md R127). -/
def weight (t : CodeTree) : Word := BitVec.ofNat 32 (t.rows.map fun r => r.metaWord.toNat).sum

/-- The symbol of each leaf with the bits on the way to it, after the bits `acc` (42_codebook.md R142). -/
def codes : CodeTree → BitString → List (Symbol × BitString)
  | leaf r, acc => [(r.sym, acc)]
  | fork b l r, acc => l.codes (acc.snoc b) ++ r.codes (acc.snoc !b)

/-- NODE holds the tree with its root at index `n`, each child below its parent (41_tree_build.md R124, R127, R132). -/
def At (node : Table Node) : CodeTree → Index → Prop
  | leaf r, n => Table.read Node.zero node n.toNat = leafOf r
  | fork b l r, n => ∃ nl nr : Index,
      Table.read Node.zero node n.toNat = ⟨false, 0#8, l.weight + r.weight, nl, nr, b, !b⟩ ∧
        (nl.toNat < n.toNat ∧ nr.toNat < n.toNat) ∧ l.At node nl ∧ r.At node nr

variable {node : Table Node} {t : CodeTree} {n : Index} {acc : BitString}

/-- Only the entries up to the root matter. -/
theorem At.congr {node' : Table Node}
    (h : ∀ m, m ≤ n.toNat → Table.read Node.zero node' m = Table.read Node.zero node m) (ht : t.At node n) :
    t.At node' n := by
  induction t generalizing n with
  | leaf r => exact (h _ (Nat.le_refl _)).trans ht
  | fork b l r ihl ihr =>
    obtain ⟨nl, nr, hn, ⟨hl, hr⟩, htl, htr⟩ := ht
    exact ⟨nl, nr, (h _ (Nat.le_refl _)).trans hn, ⟨hl, hr⟩, ihl (fun m hm => h m (by omega)) htl,
      ihr (fun m hm => h m (by omega)) htr⟩

theorem weight_fork (b : Bool) (l r : CodeTree) : (fork b l r).weight = l.weight + r.weight := by
  simp [weight, rows, BitVec.ofNat_add]

/-- W of the root is the weight of the tree. -/
theorem At.root_weight (ht : t.At node n) : (Table.read Node.zero node n.toNat).w = t.weight := by
  cases t with
  | leaf r => rw [show Table.read Node.zero node n.toNat = leafOf r from ht]; simp [leafOf, weight, rows]
  | fork b l r =>
    obtain ⟨_, _, hn, -⟩ := ht
    rw [hn, weight_fork]

/-- A proper binary tree has more leaves than levels of edges. -/
theorem height_lt_length_rows (t : CodeTree) : t.height < t.rows.length := by
  induction t with
  | leaf r => exact Nat.zero_lt_one
  | fork b l r ihl ihr =>
    simp only [height, rows, List.length_append]
    omega

/-! ### Codewords -/

/-- Room for every path of the tree after the bits `acc`. -/
def Fits (t : CodeTree) (acc : BitString) : Prop := acc.stored = true ∧ acc.len.toNat + t.height ≤ 255

theorem Fits.fork {b : Bool} {l r : CodeTree} (h : (fork b l r).Fits acc) (c : Bool) :
    acc.len ≠ 255#8 ∧ l.Fits (acc.snoc c) ∧ r.Fits (acc.snoc c) := by
  obtain ⟨hstored, hlen⟩ := h
  simp only [height] at hlen
  have hne : acc.len ≠ 255#8 := fun e => by rw [e] at hlen; simp at hlen
  have hs := BitString.snoc_stored acc c hne hstored
  have hl := BitString.snoc_len acc c hne
  exact ⟨hne, ⟨hs, by omega⟩, ⟨hs, by omega⟩⟩

/-- The leaves are the symbols the codewords are for. -/
theorem codes_symbols (t : CodeTree) (acc : BitString) : (t.codes acc).map Prod.fst = t.rows.map Row.sym := by
  induction t generalizing acc with
  | leaf r => rfl
  | fork b l r ihl ihr => simp [codes, rows, ihl, ihr]

/-- Every codeword is stored and goes on from the bits before it. -/
theorem codes_extend (h : t.Fits acc) : ∀ p ∈ t.codes acc, p.2.stored = true ∧ acc.toList <+: p.2.toList := by
  induction t generalizing acc with
  | leaf r =>
    intro p hp
    rw [List.mem_singleton.mp hp]
    exact ⟨h.1, List.prefix_rfl⟩
  | fork b l r ihl ihr =>
    have hstep : ∀ c, acc.toList <+: (acc.snoc c).toList := fun c => by
      rw [BitString.snoc_toList acc c (h.fork c).1]
      exact List.prefix_append _ _
    intro p hp
    rcases List.mem_append.mp hp with hp | hp
    · obtain ⟨hs, hpre⟩ := ihl (h.fork b).2.1 p hp
      exact ⟨hs, (hstep _).trans hpre⟩
    · obtain ⟨hs, hpre⟩ := ihr (h.fork !b).2.2 p hp
      exact ⟨hs, (hstep _).trans hpre⟩

/-- With two leaves or more every codeword has a bit of its own. -/
theorem codes_longer (h : t.Fits acc) (h2 : 2 ≤ t.rows.length) :
    ∀ p ∈ t.codes acc, acc.len.toNat < p.2.len.toNat := by
  cases t with
  | leaf r => simp [rows] at h2
  | fork b l r =>
    have hlen : ∀ (c : Bool) (d : BitString), (acc.snoc c).toList <+: d.toList → acc.len.toNat < d.len.toNat := by
      intro c d hd
      have := hd.length_le
      rw [BitString.toList_length, BitString.toList_length, BitString.snoc_len acc c (h.fork c).1] at this
      exact this
    intro p hp
    rcases List.mem_append.mp hp with hp | hp
    · exact hlen b _ (codes_extend (h.fork b).2.1 p hp).2
    · exact hlen (!b) _ (codes_extend (h.fork !b).2.2 p hp).2

/-- Of two sequences that go on from different edges of one node neither begins with the other. -/
theorem prefixRelated_of_edges {b : Bool} {c d : BitString} (hlen : acc.len ≠ 255#8)
    (hc : (acc.snoc b).toList <+: c.toList) (hd : (acc.snoc !b).toList <+: d.toList) : c.prefixRelated d = false := by
  rw [BitString.snoc_toList acc _ hlen] at hc hd
  have hne : ∀ l : List Bool, acc.toList ++ [b] <+: l → ¬ acc.toList ++ [!b] <+: l := by
    intro l h1 h2
    have := List.prefix_of_prefix_length_le h1 h2 (by simp)
    simp at this
  rw [BitString.prefixRelated, Bool.or_eq_false_iff, Bool.eq_false_iff, Bool.eq_false_iff, Ne, Ne,
    BitString.isPrefixOf_iff, BitString.isPrefixOf_iff]
  exact ⟨fun h => hne _ (hc.trans h) hd, fun h => hne _ hc (hd.trans h)⟩

/-- Of the codewords of two leaves neither begins with the other (42_codebook.md R144). -/
theorem codes_prefixFree (h : t.Fits acc) :
    (t.codes acc).Pairwise fun p q => p.2.prefixRelated q.2 = false := by
  induction t generalizing acc with
  | leaf r => exact List.pairwise_singleton _ _
  | fork b l r ihl ihr =>
    obtain ⟨hlen, hl, -⟩ := h.fork b
    obtain ⟨-, -, hr⟩ := h.fork !b
    exact List.pairwise_append.mpr ⟨ihl hl, ihr hr, fun p hp q hq =>
      prefixRelated_of_edges hlen (codes_extend hl p hp).2 (codes_extend hr q hq).2⟩

/-- A sequence at least as long as the tree is high passes a leaf (42_codebook.md R146). -/
theorem codes_complete (h : t.Fits acc) {bits : List Bool} (hb : t.height ≤ bits.length) :
    ∃ p ∈ t.codes acc, p.2.toList <+: acc.toList ++ bits := by
  induction t generalizing acc bits with
  | leaf r => exact ⟨(r.sym, acc), List.mem_singleton_self _, List.prefix_append _ _⟩
  | fork b l r ihl ihr =>
    cases bits with
    | nil => simp [height] at hb
    | cons c bits =>
      obtain ⟨hlen, hl, hr⟩ := h.fork c
      simp only [height, List.length_cons] at hb
      have happ : acc.toList ++ c :: bits = (acc.snoc c).toList ++ bits := by
        rw [BitString.snoc_toList acc c hlen]; simp
      rw [happ]
      by_cases hcb : c = b
      · obtain ⟨p, hp, hpre⟩ := ihl hl (bits := bits) (by omega)
        exact ⟨p, List.mem_append_left _ (hcb ▸ hp), hpre⟩
      · obtain ⟨p, hp, hpre⟩ := ihr hr (bits := bits) (by omega)
        have hcb' : c = !b := by cases b <;> simpa using hcb
        exact ⟨p, List.mem_append_right _ (hcb' ▸ hp), hpre⟩

/-! ### The walk -/

/-- Codewords written to CB in order. -/
def writeCodes (cb : Table Code) (ps : List (Symbol × BitString)) : Table Code :=
  ps.foldl (fun t p => Table.write Code.zero t p.1.toNat ⟨true, p.2⟩) cb

/-- A visit writes the codewords of the tree below and leaves the accumulator as it found it (42_codebook.md R141). -/
theorem At.visit_eq (ht : t.At node n) {fuel : Nat} (hfuel : t.height < fuel) (h : t.Fits acc) (cb : Table Code) :
    visit node fuel n (acc, cb) = (acc, writeCodes cb (t.codes acc)) := by
  induction t generalizing n fuel acc cb with
  | leaf r =>
    cases fuel with
    | zero => cases hfuel
    | succ fuel =>
      rw [visit, show Table.read Node.zero node n.toNat = leafOf r from ht]
      rfl
  | fork b l r ihl ihr =>
    cases fuel with
    | zero => cases hfuel
    | succ fuel =>
      obtain ⟨nl, nr, hn, -, htl, htr⟩ := ht
      obtain ⟨hlen, hl, -⟩ := h.fork b
      obtain ⟨-, -, hr⟩ := h.fork !b
      simp only [height] at hfuel
      simp only [visit, hn, Bool.false_eq_true, if_false, ihl htl (fuel := fuel) (by omega) hl,
        BitString.pop_snoc acc _ hlen h.1, ihr htr (fuel := fuel) (by omega) hr, codes, writeCodes, List.foldl_append]

end CodeTree

/-! ### Entries written in a loop -/

variable {α β : Type} [DecidableEq α] {d : α} {f : β → Nat} {g : β → α} {i : Nat} {js : List β}

/-- An entry the loop does not write reads as before. -/
theorem Table.read_foldl_write_of_ne (t : Table α) (h : ∀ j ∈ js, f j ≠ i) :
    Table.read d (js.foldl (fun t j => Table.write d t (f j) (g j)) t) i = Table.read d t i := by
  induction js generalizing t with
  | nil => rfl
  | cons j js ih =>
    rw [List.foldl_cons, ih _ fun j' hj' => h j' (List.mem_cons_of_mem _ hj'),
      Table.read_write_other d t _ (h j List.mem_cons_self)]

/-- An entry the loop writes only with `a` reads as `a`. -/
theorem Table.read_foldl_write_of_mem (t : Table α) {a : α} {j : β} (hj : j ∈ js) (hfj : f j = i)
    (h : ∀ j ∈ js, f j = i → g j = a) :
    Table.read d (js.foldl (fun t j => Table.write d t (f j) (g j)) t) i = a := by
  induction js generalizing t j with
  | nil => cases hj
  | cons j₀ js ih =>
    have htail : ∀ j ∈ js, f j = i → g j = a := fun j' hj' => h j' (List.mem_cons_of_mem _ hj')
    rw [List.foldl_cons]
    by_cases hlater : ∃ j' ∈ js, f j' = i
    · obtain ⟨j', hj', hf'⟩ := hlater
      exact ih _ hj' hf' htail
    · have hj₀ : j = j₀ := (List.mem_cons.mp hj).resolve_right fun hm => hlater ⟨j, hm, hfj⟩
      rw [Table.read_foldl_write_of_ne _ fun j' hj' hf' => hlater ⟨j', hj', hf'⟩, ← hfj, hj₀, Table.read_write_same]
      exact h j₀ List.mem_cons_self (hj₀ ▸ hfj)

/-- What the walk leaves in CB and ACC, for a tree whose leaves have different symbols (42_codebook.md R140 to R143). -/
theorem State.walk_of_tree {s : State} {T : CodeTree} (hT : T.At s.node s.root) (hh : T.height ≤ 255)
    (hn : (T.rows.map Row.sym).Nodup) :
    s.walk.acc = BitString.empty ∧ (∀ p ∈ T.codes BitString.empty, s.walk.cbAt p.1 = ⟨true, p.2⟩) ∧
      ∀ x, (s.walk.cbAt x).valid = true ↔ x ∈ T.rows.map Row.sym := by
  have hfits : T.Fits BitString.empty := ⟨BitString.empty_stored, by simpa [BitString.empty] using hh⟩
  have hvisit := hT.visit_eq (fuel := Config.nodeN) (by simp only [Config.nodeN]; omega) hfits (invalidateAll s.cb)
  have hcodes : ∀ p ∈ T.codes BitString.empty, s.walk.cbAt p.1 = ⟨true, p.2⟩ := by
    intro p hp
    rw [← CodeTree.codes_symbols T BitString.empty] at hn
    simp only [State.walk, State.cbAt, hvisit, CodeTree.writeCodes]
    refine Table.read_foldl_write_of_mem _ hp rfl fun q hq hqp => ?_
    rw [List.inj_on_of_nodup_map hn hq hp (BitVec.eq_of_toNat_eq hqp)]
  refine ⟨by simp only [State.walk, hvisit], hcodes, fun x => ?_⟩
  rw [← CodeTree.codes_symbols T BitString.empty]
  constructor
  · intro hx
    by_contra hmem
    have hread : s.walk.cbAt x = { s.cbAt x with valid := false } := by
      simp only [State.walk, State.cbAt, hvisit, CodeTree.writeCodes]
      rw [Table.read_foldl_write_of_ne _ fun p hp hpx =>
        hmem (List.mem_map.mpr ⟨p, hp, BitVec.eq_of_toNat_eq hpx⟩), read_invalidateAll]
    rw [hread] at hx
    cases hx
  · intro hx
    obtain ⟨p, hp, rfl⟩ := List.mem_map.mp hx
    rw [hcodes p hp]

end Sys2Proof.Machine
end

section
/-! SUPPORT. BUILD makes one tree over the counted symbols: the sort is a permutation of them, the seed is a forest of
leaves, and every merge step keeps a forest over the same rows (41_tree_build.md R122 to R132). -/

namespace Sys2Proof.Machine

variable {s : State}

/-! ### The sort (41_tree_build.md R122) -/

/-- The rows BUILD makes: every counted symbol with its count, in the order of first occurrence. -/
def State.countedRows (s : State) : List Row := s.seenSymbols.map fun x => ⟨x, s.cntAt x⟩

theorem State.outranks_irrefl (s : State) (j : Nat) : s.outranks j j = false := by simp [State.outranks]

theorem State.outranks_iff (s : State) (i j : Nat) :
    s.outranks i j = true ↔ (s.cntAt (s.fseenAt j)).toNat < (s.cntAt (s.fseenAt i)).toNat ∨
      (s.cntAt (s.fseenAt i)).toNat = (s.cntAt (s.fseenAt j)).toNat ∧ i < j := by
  simp [State.outranks, BitVec.lt_def, BitVec.toNat_inj]

theorem State.outranks_trans {i j l : Nat} (hij : s.outranks i j = true) (hjl : s.outranks j l = true) :
    s.outranks i l = true := by
  rw [State.outranks_iff] at *
  omega

theorem State.outranks_total {i j : Nat} (h : i ≠ j) : s.outranks i j = true ∨ s.outranks j i = true := by
  rw [State.outranks_iff, State.outranks_iff]
  omega

theorem State.rank_eq_card (s : State) (k j : Nat) :
    s.rank k j = ((Finset.range k).filter fun i => s.outranks i j = true).card := by
  rw [State.rank, List.countP_eq_length_filter]
  simp [Finset.card, Finset.filter, Finset.range, Multiset.range]

/-- What outranks has the smaller rank. -/
theorem State.rank_lt_rank {k i j : Nat} (hi : i < k) (h : s.outranks i j = true) : s.rank k i < s.rank k j := by
  rw [State.rank_eq_card, State.rank_eq_card]
  refine Finset.card_lt_card (Finset.ssubset_iff_of_subset ?_ |>.mpr ⟨i, ?_, ?_⟩)
  · intro a ha
    obtain ⟨hak, hai⟩ := Finset.mem_filter.mp ha
    exact Finset.mem_filter.mpr ⟨hak, State.outranks_trans hai h⟩
  · exact Finset.mem_filter.mpr ⟨Finset.mem_range.mpr hi, h⟩
  · simp [State.outranks_irrefl]

theorem State.rank_lt {k j : Nat} (hj : j < k) : s.rank k j < k := by
  rw [State.rank_eq_card]
  have hss : (Finset.range k).filter (fun i => s.outranks i j = true) ⊂ Finset.range k :=
    Finset.filter_ssubset.mpr ⟨j, Finset.mem_range.mpr hj, by simp [State.outranks_irrefl]⟩
  simpa using Finset.card_lt_card hss

theorem State.rank_inj {k i j : Nat} (hi : i < k) (hj : j < k) (h : s.rank k i = s.rank k j) : i = j := by
  by_contra hne
  rcases State.outranks_total (s := s) hne with ho | ho
  · exact absurd h (State.rank_lt_rank hi ho).ne
  · exact absurd h (State.rank_lt_rank hj ho).ne'

/-- The ranks are the row numbers, each once. -/
theorem State.map_rank_perm (s : State) (k : Nat) : ((List.range k).map (s.rank k)).Perm (List.range k) := by
  have hnodup : ((List.range k).map (s.rank k)).Nodup :=
    List.nodup_range.map_on fun i hi j hj h => State.rank_inj (List.mem_range.mp hi) (List.mem_range.mp hj) h
  refine (hnodup.subperm fun r hr => ?_).perm_of_length_le (by simp)
  obtain ⟨j, hj, rfl⟩ := List.mem_map.mp hr
  exact List.mem_range.mpr (State.rank_lt (List.mem_range.mp hj))

/-- The row of rank(FSEEN[j]) is that symbol with its count. -/
theorem State.sortTable_tblAt_rank {k j : Nat} (hj : j < k) :
    (s.sortTable k).tblAt (s.rank k j) = ⟨s.fseenAt j, s.cntAt (s.fseenAt j)⟩ := by
  simp only [State.sortTable, State.tblAt]
  refine Table.read_foldl_write_of_mem _ (List.mem_range.mpr hj) rfl fun i hi hij => ?_
  rw [State.rank_inj (List.mem_range.mp hi) hj hij]

/-- The sorted table is the counted rows in another order. -/
theorem State.sortTable_rows (s : State) :
    ((List.range s.nseen.toNat).map (s.sortTable s.nseen.toNat).tblAt).Perm s.countedRows := by
  have hrows : s.countedRows =
      ((List.range s.nseen.toNat).map (s.rank s.nseen.toNat)).map (s.sortTable s.nseen.toNat).tblAt := by
    rw [State.countedRows, State.seenSymbols, List.map_map, List.map_map]
    exact List.map_congr_left fun j hj => (State.sortTable_tblAt_rank (List.mem_range.mp hj)).symm
  rw [hrows]
  exact ((s.map_rank_perm _).map _).symm

/-! ### The forest of the merge (41_tree_build.md R124 to R132) -/

/-- Index `n` is the root of the finished tree `T`. -/
def State.Roots (s : State) (n : Index) (T : CodeTree) : Prop := T.At s.node n ∧ n.toNat < s.nnode.toNat

/-- The roots in TOPS stand over trees whose leaves are the rows `rows`; NNODE and NTOP count the merge steps; the newest
node is among the roots. -/
structure State.Forest (rows : List Row) (s : State) : Prop where
  few : rows.length ≤ 256
  top : 1 ≤ s.ntop.toNat ∧ s.ntop.toNat ≤ rows.length
  count : s.nnode.toNat + s.ntop.toNat = 2 * rows.length
  newest : ∃ n ∈ s.topsList s.ntop.toNat, n.toNat + 1 = s.nnode.toNat
  trees : ∃ ts, List.Forall₂ s.Roots (s.topsList s.ntop.toNat) ts ∧ (ts.flatMap CodeTree.rows).Perm rows

theorem toNat_ofNat9 {k : Nat} (h : k ≤ 256) : (BitVec.ofNat 9 k).toNat = k := by
  simp only [BitVec.toNat_ofNat]
  omega

/-- The seed is a forest of leaves. -/
theorem State.seedTree_forest {k : Nat} (h1 : 1 ≤ k) (hk : k ≤ 256) :
    (s.seedTree k).Forest ((List.range k).map s.tblAt) := by
  have hk9 := toNat_ofNat9 hk
  have htops : (s.seedTree k).topsList k = (List.range k).map (BitVec.ofNat 9) :=
    List.map_congr_left fun j hj => by rw [State.seedTree_topsAt, if_pos (List.mem_range.mp hj)]
  have hroots : ∀ j ∈ List.range k, (s.seedTree k).Roots (BitVec.ofNat 9 j) (.leaf (s.tblAt j)) := by
    intro j hj
    have hj := List.mem_range.mp hj
    have hj9 := toNat_ofNat9 (k := j) (by omega)
    refine ⟨?_, by rw [hj9, State.seedTree_nnode, hk9]; exact hj⟩
    have hnode : (s.seedTree k).nodeAt j = leafOf (s.tblAt j) := by rw [State.seedTree_nodeAt, if_pos hj]
    rw [CodeTree.At, hj9]
    exact hnode
  refine ⟨by simpa using hk, ?_, ?_, ?_, ?_⟩
  · simpa [State.seedTree_ntop, hk9] using h1
  · simp only [State.seedTree_nnode, State.seedTree_ntop, hk9, List.length_map, List.length_range]
    omega
  · rw [State.seedTree_ntop, hk9, htops, State.seedTree_nnode, hk9]
    refine ⟨BitVec.ofNat 9 (k - 1), List.mem_map_of_mem (List.mem_range.mpr (by omega)), ?_⟩
    rw [toNat_ofNat9 (by omega)]
    omega
  · rw [State.seedTree_ntop, hk9, htops]
    refine ⟨(List.range k).map fun j => .leaf (s.tblAt j), ?_, ?_⟩
    · rw [List.forall₂_map_left_iff, List.forall₂_map_right_iff, List.forall₂_same]
      exact hroots
    · simp [List.flatMap_map, CodeTree.rows, ← List.map_eq_flatMap]

@[simp] theorem State.topsList_length (s : State) (k : Nat) : (s.topsList k).length = k := by simp [State.topsList]

/-- A list written to TOPS from 0 on reads back. -/
theorem State.topsList_writeList {tops : Table Index} {as : List Index} (h : s.tops = Table.writeList 0#9 tops 0 as) :
    s.topsList as.length = as := by
  refine List.ext_getElem (by simp) fun i hi hi' => ?_
  simp [State.topsList, State.topsAt, h, Table.read_writeList, hi']

/-- TOPS with its last two entries apart. -/
theorem State.topsList_eq_append (s : State) {k : Nat} (h2 : 1 < k) :
    s.topsList k = s.topsList (k - 2) ++ [s.topsAt (k - 2), s.topsAt (k - 1)] := by
  obtain ⟨k, rfl⟩ : ∃ k', k = k' + 2 := ⟨k - 2, by omega⟩
  simp [State.topsList, List.range_succ]

/-- The list of roots after a merge step: the two last are gone, the new node is among the others. -/
theorem State.mergeStep_topsList (s : State) :
    (s.mergeStep.topsList (s.ntop.toNat - 2 + 1)).Perm (s.nnode :: s.topsList (s.ntop.toNat - 2)) := by
  have hlist := State.topsList_writeList (s := s.mergeStep) (tops := s.tops) rfl
  rw [insertTop_length, State.topsList_length] at hlist
  rw [hlist]
  exact insertTop_perm _ _ _ _

theorem State.mergeStep_ntop_toNat (h : 1 ≤ s.ntop.toNat) : s.mergeStep.ntop.toNat = s.ntop.toNat - 1 := by
  have hlt := s.ntop.isLt
  simp only [State.mergeStep_ntop, BitVec.toNat_sub, BitVec.toNat_ofNat]
  omega

/-- A merge step writes the node NNODE and no other. -/
theorem State.mergeStep_nodeAt (s : State) (n : Nat) :
    s.mergeStep.nodeAt n =
      if s.nnode.toNat = n then
        mergedNode (s.topsAt (s.ntop.toNat - 2)) (s.topsAt (s.ntop.toNat - 1))
          (s.nodeAt (s.topsAt (s.ntop.toNat - 2)).toNat).w (s.nodeAt (s.topsAt (s.ntop.toNat - 1)).toNat).w
      else s.nodeAt n :=
  Table.read_write _ _ _ _ _

/-- A merge step leaves the trees that stand alone. -/
theorem State.Roots.mergeStep {n : Index} {T : CodeTree} (h : s.Roots n T) (hn : s.nnode.toNat < 511) :
    s.mergeStep.Roots n T := by
  obtain ⟨hT, hlt⟩ := h
  refine ⟨hT.congr fun m hm => ?_, ?_⟩
  · exact (s.mergeStep_nodeAt m).trans (if_neg (by omega))
  · simp only [State.mergeStep_nnode, BitVec.toNat_add, BitVec.toNat_ofNat]
    omega

/-- The new node stands over the trees of the two roots that go. -/
theorem State.mergeStep_roots {tl tr : CodeTree} (hl : s.Roots (s.topsAt (s.ntop.toNat - 2)) tl)
    (hr : s.Roots (s.topsAt (s.ntop.toNat - 1)) tr) (hn : s.nnode.toNat < 511) :
    ∃ b, s.mergeStep.Roots s.nnode (.fork b tl tr) := by
  have hnode := (s.mergeStep_nodeAt s.nnode.toNat).trans (if_pos rfl)
  rw [show (s.nodeAt _).w = tl.weight from hl.1.root_weight, show (s.nodeAt _).w = tr.weight from hr.1.root_weight]
    at hnode
  refine ⟨decide (tl.weight < tr.weight), ⟨_, _, hnode, ⟨hl.2, hr.2⟩, (hl.mergeStep hn).1, (hr.mergeStep hn).1⟩, ?_⟩
  simp only [State.mergeStep_nnode, BitVec.toNat_add, BitVec.toNat_ofNat]
  omega

theorem forall₂_append_left {α β : Type} {R : α → β → Prop} {as bs : List α} {ts : List β}
    (h : List.Forall₂ R (as ++ bs) ts) : ∃ us vs, ts = us ++ vs ∧ List.Forall₂ R as us ∧ List.Forall₂ R bs vs := by
  induction as generalizing ts with
  | nil => exact ⟨[], ts, rfl, .nil, h⟩
  | cons a as ih =>
    cases h with
    | cons ha h =>
      obtain ⟨us, vs, rfl, hus, hvs⟩ := ih h
      exact ⟨_ :: us, vs, rfl, .cons ha hus, hvs⟩

/-- A merge step keeps a forest over the same rows (41_tree_build.md R126 to R129). -/
theorem State.Forest.mergeStep {rows : List Row} (h : s.Forest rows) (h2 : 1 < s.ntop.toNat) :
    s.mergeStep.Forest rows := by
  obtain ⟨hpos, hle⟩ := h.top
  have hfew := h.few
  have hcount := h.count
  have hn : s.nnode.toNat < 511 := by omega
  have hntop := State.mergeStep_ntop_toNat hpos
  have hnnode : s.mergeStep.nnode.toNat = s.nnode.toNat + 1 := by
    simp only [State.mergeStep_nnode, BitVec.toNat_add, BitVec.toNat_ofNat]
    omega
  have htops : (s.mergeStep.topsList s.mergeStep.ntop.toNat).Perm (s.nnode :: s.topsList (s.ntop.toNat - 2)) := by
    rw [hntop, show s.ntop.toNat - 1 = s.ntop.toNat - 2 + 1 by omega]
    exact s.mergeStep_topsList
  refine ⟨hfew, by omega, by omega, ⟨s.nnode, htops.mem_iff.mpr List.mem_cons_self, hnnode.symm⟩, ?_⟩
  obtain ⟨ts, hts, hperm⟩ := h.trees
  rw [s.topsList_eq_append h2] at hts
  obtain ⟨us, vs, rfl, hus, hvs⟩ := forall₂_append_left hts
  cases hvs with
  | cons hl hvs =>
    rename_i tl _
    cases hvs with
    | cons hr hvs =>
      rename_i tr _
      cases hvs
      obtain ⟨b, hfork⟩ := State.mergeStep_roots hl hr hn
      obtain ⟨ws, hws, hwperm⟩ := List.perm_comp_forall₂ htops (.cons hfork (hus.imp fun _ _ hu => hu.mergeStep hn))
      refine ⟨ws, hws, (hwperm.flatMap_right _).trans (List.Perm.trans ?_ hperm)⟩
      simpa [CodeTree.rows] using List.perm_append_comm (l₁ := tl.rows ++ tr.rows)

/-- The loop ends with one root, the newest node. -/
theorem State.Forest.mergeLoop {rows : List Row} {fuel : Nat} (h : s.Forest rows) (hf : s.ntop.toNat ≤ fuel + 1) :
    (s.mergeLoop fuel).Forest rows ∧ (s.mergeLoop fuel).ntop.toNat = 1 := by
  have hpos := h.top.1
  induction fuel generalizing s with
  | zero => exact ⟨h, by rw [State.mergeLoop]; omega⟩
  | succ fuel ih =>
    rw [State.mergeLoop]
    split
    · rename_i h2
      have h' := h.mergeStep h2
      have hdec := State.mergeStep_ntop_toNat hpos
      exact ih h' (by omega) h'.top.1
    · exact ⟨h, by omega⟩

/-- One root left: it is the newest node, over all the rows. -/
theorem State.Forest.one_root {rows : List Row} (h : s.Forest rows) (h1 : s.ntop.toNat = 1) :
    (s.topsAt 0).toNat + 1 = s.nnode.toNat ∧ ∃ T : CodeTree, T.At s.node (s.topsAt 0) ∧ T.rows.Perm rows := by
  obtain ⟨n, hn, hnew⟩ := h.newest
  obtain ⟨ts, hts, hperm⟩ := h.trees
  have hlist : s.topsList 1 = [s.topsAt 0] := rfl
  rw [h1, hlist] at hn hts
  rw [List.mem_singleton.mp hn] at hnew
  refine ⟨hnew, ?_⟩
  cases hts with
  | cons hT hnil =>
    cases hnil
    exact ⟨_, hT.1, by simpa using hperm⟩

/-! ### BUILD (41_tree_build.md R120) -/

/-- What BUILD leaves: the tree `T` over the rows, the indices that R46 item 5 gives it, and the code book of its paths. -/
structure State.Built (rows : List Row) (s : State) (T : CodeTree) : Prop where
  tree : T.At s.node s.root
  leaves : T.rows.Perm rows
  nnode : s.nnode.toNat = 2 * rows.length - 1
  ntop : s.ntop = 1#9
  root : s.root.toNat = s.nnode.toNat - 1
  accEmpty : s.acc = BitString.empty
  codes : ∀ p ∈ T.codes BitString.empty, s.cbAt p.1 = ⟨true, p.2⟩
  valid : ∀ x, (s.cbAt x).valid = true ↔ x ∈ rows.map Row.sym

theorem State.length_countedRows (s : State) : s.countedRows.length = s.nseen.toNat := by
  simp [State.countedRows, State.seenSymbols]

theorem State.countedRows_symbols (s : State) : s.countedRows.map Row.sym = s.seenSymbols := by
  simp [State.countedRows, Function.comp_def]

theorem State.buildAll_built (h : s.CountingInv) (h1 : 1 ≤ s.nseen.toNat) (hn : s.nseen.toNat ≤ 256) :
    ∃ T, (s.buildAll s.nseen.toNat).Built s.countedRows T := by
  have hseed := State.seedTree_forest (s := s.sortTable s.nseen.toNat) h1 hn
  obtain ⟨hforest, h1top⟩ := hseed.mergeLoop (fuel := 255)
    (by rw [State.seedTree_ntop, toNat_ofNat9 hn]; exact hn)
  obtain ⟨hroot, T, hT, hTrows⟩ := hforest.one_root h1top
  have hperm := hTrows.trans s.sortTable_rows
  have hsyms : (T.rows.map Row.sym).Perm s.seenSymbols := by
    rw [← s.countedRows_symbols]
    exact hperm.map _
  have hheight : T.height ≤ 255 := by
    have := T.height_lt_length_rows
    rw [hperm.length_eq, State.length_countedRows] at this
    omega
  obtain ⟨hacc, hcodes, hvalid⟩ := State.walk_of_tree
    (s := State.finishTree (State.mergeLoop 255 _)) hT hheight
    (hsyms.nodup_iff.mpr (State.seenSymbols_nodup h))
  have hcount := hforest.count
  rw [h1top, List.length_map, List.length_range] at hcount
  refine ⟨T, hT, hperm, ?_, BitVec.eq_of_toNat_eq h1top, Nat.eq_sub_of_add_eq hroot, hacc, hcodes, fun x => ?_⟩
  · rw [State.length_countedRows]
    exact Nat.eq_sub_of_add_eq hcount
  · rw [s.countedRows_symbols, ← hsyms.mem_iff]
    exact hvalid x

/-- The valid codewords of a built code book are the codewords of the tree. -/
theorem State.Built.mem_codes {rows : List Row} {T : CodeTree} (h : s.Built rows T) {x : Symbol}
    (hx : (s.cbAt x).valid = true) : (x, (s.cbAt x).word) ∈ T.codes BitString.empty := by
  have hmem : x ∈ (T.codes BitString.empty).map Prod.fst := by
    rw [CodeTree.codes_symbols, (h.leaves.map Row.sym).mem_iff]
    exact (h.valid x).mp hx
  obtain ⟨p, hp, rfl⟩ := List.mem_map.mp hmem
  rw [h.codes p hp]
  exact hp

theorem State.Built.fits {rows : List Row} {T : CodeTree} (h : s.Built rows T) (hn : rows.length ≤ 256) :
    T.Fits BitString.empty := by
  have hheight := T.height_lt_length_rows
  rw [h.leaves.length_eq] at hheight
  refine ⟨BitString.empty_stored, ?_⟩
  simp only [BitString.empty, BitVec.toNat_ofNat]
  omega

/-- A built code book meets item 6 of R46. -/
theorem State.Built.prefixFree {rows : List Row} {T : CodeTree} (h : s.Built rows T) (h2 : 2 ≤ rows.length)
    (hn : rows.length ≤ 256) : s.PrefixFree := by
  have hfits := h.fits hn
  intro x hx
  have hxm := h.mem_codes hx
  refine ⟨⟨fun h0 => ?_, (CodeTree.codes_extend hfits _ hxm).1⟩, fun y hy hxy => ?_⟩
  · have := CodeTree.codes_longer hfits (h.leaves.length_eq ▸ h2) _ hxm
    simp [h0] at this
  · have : Std.Symm fun p q : Symbol × BitString => p.2.prefixRelated q.2 = false :=
      ⟨fun p q hpq => (BitString.prefixRelated_comm _ _).trans hpq⟩
    exact (CodeTree.codes_prefixFree hfits).forall hxm (h.mem_codes hy) fun e => hxy (congrArg Prod.fst e)

/-- A built code book is complete (42_codebook.md R146). -/
theorem State.Built.complete {rows : List Row} {T : CodeTree} (h : s.Built rows T) (hn : rows.length ≤ 256) :
    s.CompleteInv := by
  intro _ _ bits hbits
  have hfits := h.fits hn
  obtain ⟨p, hp, hpre⟩ := CodeTree.codes_complete hfits (bits := bits) (by have := hfits.2; omega)
  exact ⟨p.1, by rw [h.codes p hp], by rw [h.codes p hp]; exact hpre⟩

/-- W of ROOT is the sum of META (R46 item 5). -/
theorem State.Built.root_weight {rows : List Row} {T : CodeTree} (h : s.Built rows T) :
    (s.nodeAt s.root.toNat).w = BitVec.ofNat 32 (rows.map fun r => r.metaWord.toNat).sum := by
  rw [show (s.nodeAt s.root.toNat).w = T.weight from h.tree.root_weight, CodeTree.weight, (h.leaves.map _).sum_eq]

theorem State.sum_countedRows (h : s.CountingInv) :
    (s.countedRows.map fun r => r.metaWord.toNat).sum = s.total.toNat := by
  rw [h.1, ← State.sum_seenSymbols h]
  simp [State.countedRows, Function.comp_def]

theorem State.sortTable_rowSymbols (hn : s.nseen.toNat ≤ 256) :
    (s.sortTable s.nseen.toNat).rowSymbols.Perm s.seenSymbols := by
  rw [State.rowSymbols, State.sortTable_nrow, toNat_ofNat9 hn, ← s.countedRows_symbols]
  simpa [Function.comp_def] using s.sortTable_rows.map Row.sym

theorem State.sortTable_sumMetas (h : s.CountingInv) (hn : s.nseen.toNat ≤ 256) :
    (s.sortTable s.nseen.toNat).sumMetas = s.total.toNat := by
  rw [State.sumMetas, State.sortTable_tsize, toNat_ofNat9 hn, ← State.sum_countedRows h,
    ← (s.sortTable_rows.map fun r => r.metaWord.toNat).sum_eq]
  simp [Function.comp_def]

/-- BUILD over two symbols or more (41_tree_build.md R120). -/
theorem State.Inv.buildAll (h : s.Inv) (hp : s.phase = .count) (h2 : 2 ≤ s.nseen.toNat) (hn : s.nseen.toNat ≤ 256) :
    (s.buildAll s.nseen.toNat).Inv := by
  have hk9 := toNat_ofNat9 hn
  have hlen := s.length_countedRows
  have hmetas := State.sortTable_sumMetas h.counting hn
  have hsyms := State.sortTable_rowSymbols hn
  obtain ⟨-, ⟨-, -, hsrc⟩, -⟩ := h.count hp
  obtain ⟨T, hbuilt⟩ := State.buildAll_built h.counting (by omega) hn
  obtain ⟨_, _, _, _, _, _, _, hb⟩ := s.buildAll_frame s.nseen.toNat
  rw [hb] at hbuilt ⊢
  have hfree := hbuilt.prefixFree (by omega) (by omega)
  have hweight := hbuilt.root_weight
  rw [State.sum_countedRows h.counting] at hweight
  have hvalid : ∀ x, x ∈ s.seenSymbols ↔ _ := fun x => s.countedRows_symbols ▸ (hbuilt.valid x).symm
  exact {
    counting := h.counting
    idle := nofun
    count := nofun
    load := nofun
    ready := fun _ => by
      refine ⟨⟨rfl, rfl, ?_, ?_⟩, fun _ => ⟨⟨rfl, ?_, ?_⟩, ⟨?_, hbuilt.ntop, hbuilt.root⟩, ?_, hmetas.symm⟩,
        fun hs => absurd (hs.symm.trans hsrc) nofun⟩
      · rw [State.sortTable_tsize, hk9]; omega
      · exact hsyms.trans (perm_filter_allSymbols.mpr ⟨State.seenSymbols_nodup h.counting, hvalid⟩)
      · exact BitVec.eq_of_toNat_eq hk9
      · rw [State.sortTable_tsize, hk9]; exact h2
      · rw [State.sortTable_tsize, hk9, ← hlen]; exact hbuilt.nnode
      · exact hweight.trans (by simp)
    prefixFree := hfree
    buffer := State.bufferInv_of_empty hfree rfl
    error := h.error_of_phase (by simp [hp]) nofun rfl rfl (by simp)
    assembler := h.assembler
    accEmpty := hbuilt.accEmpty
    complete := hbuilt.complete (by omega) }

end Sys2Proof.Machine
end

section
/-! SUPPORT. Every step keeps the invariants of R46, and the statements that say so clause by clause. -/

namespace Sys2Proof.Machine

variable {s t : State} {i : Instr}

/-- Every command keeps the invariants. -/
theorem State.Does.inv (h : s.Does i t) (hs : s.Inv) : t.Inv := by
  cases h with
  | stays => exact hs
  | raises _ e info hp => exact hs.raise hp e info
  | clears => exact hs.clearSession
  | answers _ ws => exact hs.withStreams _ _ _
  | encodes x bs => exact hs.withStreams _ _ _
  | counts x hp hm hn => exact hs.countSymbol hp hm hn
  | builds hp h2 hn => exact hs.buildAll hp h2 hn
  | beginsLoad n hp h0 hn => exact hs.beginLoad hp h0 hn
  | loadsRow x len m code hp he => exact hs.commitRow hp he
  | takesBit b hp hl => exact hs.acceptBit b hp hl

/-- The first word of a command of more than one word is an LDROW header (30_encoding.md R80). -/
theorem opcodeOf_of_one_ne_lengthOf {w : Word} (h : 1 ≠ lengthOf w) : opcodeOf w = 0x41#8 := by
  by_contra hne
  exact h (by simp [lengthOf, hne])

/-- A word that completes no command is the header of an LDROW or follows one (30_encoding.md R81, R82). -/
theorem receiveWord_holds {w : Word} (hs : s.AssemblerInv)
    (hn : s.cwn.val + 1 ≠ lengthOf (Table.read 0#32 (Table.write 0#32 s.cw s.cwn.val w) 0)) :
    opcodeOf (Table.read 0#32 (Table.write 0#32 s.cw s.cwn.val w) 0) = 0x41#8 := by
  by_cases h0 : s.cwn = 0
  · simp only [h0, Fin.val_zero, Nat.zero_add] at hn ⊢
    exact opcodeOf_of_one_ne_lengthOf hn
  · have hne : s.cwn.val ≠ 0 := fun e => h0 (Fin.ext e)
    rw [Table.read_write_other _ _ _ hne]
    exact hs h0

/-- A word that arrives keeps the invariants. -/
theorem receiveWord_inv {w : Word} (hs : s.Inv) (h : receiveWord w s = .next t) : t.Inv := by
  simp only [receiveWord] at h
  split at h
  · obtain ⟨i, hdoes⟩ := State.Does.of_runCommand h
    exact hdoes.inv (hs.withAssembler _ 0 s.port fun h0 => absurd rfl h0)
  · rename_i hc
    split at h
    · cases h
      exact hs.withAssembler _ _ s.port fun _ => receiveWord_holds hs.assembler hc
    · cases h

/-- Every step keeps the invariants of R46. -/
theorem step_inv (hs : s.Inv) (h : step s = .next t) : t.Inv := by
  rcases step_cases h with ⟨_, rfl⟩ | ⟨rest, _, rfl⟩ | ⟨w, rest, _, hw⟩
  · exact hs
  · exact reset_inv.withAssembler _ _ _ fun h0 => absurd rfl h0
  · exact receiveWord_inv (hs.withAssembler s.cw s.cwn rest hs.assembler) hw

/-- Settles O48: item 1 is a clause of the invariants that every step keeps. -/
theorem stepKeepsTheCounts : Obligations.StepKeepsTheCounts :=
  fun _ _ hs h => (step_inv hs h).counting

/-- Settles O49: items 2, 3, 4 and R34 are clauses of the invariants that every step keeps. -/
theorem stepKeepsThePhaseMeanings : Obligations.StepKeepsThePhaseMeanings := fun _ _ hs h =>
  have ht := step_inv hs h
  ⟨ht.idle, ht.count, ht.load, ht.accEmpty⟩

/-- Settles O50: item 5 is a clause of the invariants that every step keeps; for BUILD it is read from the tree that the merge leaves. -/
theorem stepKeepsTheReadyMeaning : Obligations.StepKeepsTheReadyMeaning :=
  fun _ _ hs h => (step_inv hs h).ready

/-- Settles O51: item 6 is a clause of the invariants that every step keeps; for BUILD the codewords are the paths of one tree. -/
theorem stepKeepsTheCodeBookPrefixFree : Obligations.StepKeepsTheCodeBookPrefixFree :=
  fun _ _ hs h => (step_inv hs h).prefixFree

/-- Settles O52: item 7 is a clause of the invariants that every step keeps. -/
theorem stepKeepsTheBufferUnmatched : Obligations.StepKeepsTheBufferUnmatched :=
  fun _ _ hs h => (step_inv hs h).buffer

/-- Settles O53: items 8 and 9 are clauses of the invariants that every step keeps. -/
theorem stepKeepsTheErrorRecord : Obligations.StepKeepsTheErrorRecord := fun _ _ hs h =>
  have ht := step_inv hs h
  ⟨ht.error, ht.assembler⟩

end Sys2Proof.Machine
end

section
/-! SUPPORT. The table memories stay in canonical form (20_memory.md R60, R61): each update of the state writes inside its
memories, and so every step does. -/

namespace Sys2Proof.Machine

/-- Entries written in a loop inside the memory keep the canonical form. -/
theorem Table.wf_foldl_write {α β : Type} [DecidableEq α] {d : α} {size : Nat} {f : β → Nat} {g : β → α} {js : List β}
    {t : Table α} (hf : ∀ j ∈ js, f j < size) (ht : Table.wf d size t = true) :
    Table.wf d size (js.foldl (fun t j => Table.write d t (f j) (g j)) t) = true := by
  induction js generalizing t with
  | nil => exact ht
  | cons j js ih =>
    obtain ⟨hj, hjs⟩ := List.forall_mem_cons.mp hf
    exact ih hjs (Table.wf_write d _ hj ht)

/-- `Memory.wf`, one field a memory. -/
structure Memory.Canonical (s : State) : Prop where
  cnt : Table.wf 0#32 256 s.cnt = true
  fseen : Table.wf 0#8 256 s.fseen = true
  tbl : Table.wf Row.zero 256 s.tbl = true
  node : Table.wf Node.zero 511 s.node = true
  tops : Table.wf 0#9 256 s.tops = true
  cb : Table.wf Code.zero 256 s.cb = true
  cw : Table.wf 0#32 10 s.cw = true

/-- The entry a symbol names is inside CB. -/
theorem wf_writeCode {cb : Table Code} (x : Symbol) (c : Code) (h : Table.wf Code.zero 256 cb = true) :
    Table.wf Code.zero 256 (Table.write Code.zero cb x.toNat c) = true :=
  Table.wf_write Code.zero c x.isLt h

variable {s t : State} {i : Instr}

theorem Memory.wf_iff_canonical : Memory.wf s = true ↔ Memory.Canonical s := by
  simp only [Memory.wf, Bool.and_eq_true]
  constructor
  · rintro ⟨⟨⟨⟨⟨⟨hcnt, hfseen⟩, htbl⟩, hnode⟩, htops⟩, hcb⟩, hcw⟩
    exact ⟨hcnt, hfseen, htbl, hnode, htops, hcb, hcw⟩
  · rintro ⟨hcnt, hfseen, htbl, hnode, htops, hcb, hcw⟩
    exact ⟨⟨⟨⟨⟨⟨hcnt, hfseen⟩, htbl⟩, hnode⟩, htops⟩, hcb⟩, hcw⟩

namespace Memory.Canonical

/-! ### The updates of one command each -/

/-- CLEAR (45_system.md R181). -/
theorem clearSession (h : Canonical s) : Canonical s.clearSession :=
  { h with cnt := rfl, cb := wf_invalidateAll h.cb }

/-- SYM (40_frequency.md R110): the index of a first occurrence is NSEEN. -/
theorem countSymbol (h : Canonical s) {x : Symbol} (hn : s.cntAt x = 0#32 → s.nseen.toNat < 256) :
    Canonical (s.countSymbol x) := by
  refine { h with cnt := Table.wf_write _ _ x.isLt h.cnt, fseen := ?_ }
  by_cases h0 : s.cntAt x = 0#32
  · simpa [State.countSymbol, h0] using Table.wf_write _ _ (hn h0) h.fseen
  · simpa [State.countSymbol, h0] using h.fseen

/-- LDROW (44_decoder.md R163): the row's index is NROW. -/
theorem commitRow (h : Canonical s) {x : Symbol} {len : BitVec 8} {m : Word} {code : CodeBits}
    (hn : s.nrow.toNat < 256) : Canonical (s.commitRow x len m code) := by
  have hrow : Canonical (s.storeRow x len m code) :=
    { h with tbl := Table.wf_write _ _ hn h.tbl, cb := wf_writeCode x ⟨true, rowCodeword len code⟩ h.cb }
  rcases s.commitRow_cases x len m code with ⟨_, hc⟩ | ⟨_, hc⟩
  · rw [hc]; exact { hrow with }
  · rw [hc]; exact hrow

/-- DBIT writes no memory (44_decoder.md R167). -/
theorem acceptBit (h : Canonical s) (b : Bool) : Canonical (s.acceptBit b) := by
  obtain ⟨_, _, hb⟩ := s.acceptBit_frame b
  rw [hb]
  exact { h with }

/-- A word that arrives is stored at CWN (30_encoding.md R81). -/
theorem storeWord (h : Canonical s) (w : Word) (n : Fin 10) :
    Canonical { s with cw := Table.write 0#32 s.cw s.cwn.val w, cwn := n } :=
  { h with cw := Table.wf_write _ _ s.cwn.isLt h.cw }

/-! ### BUILD (41_tree_build.md R120) -/

/-- The sort writes the rows of the ranks, all below K (R122). -/
theorem sortTable (h : Canonical s) {k : Nat} (hk : k ≤ 256) : Canonical (s.sortTable k) :=
  { h with tbl := Table.wf_foldl_write (fun _ hj => (State.rank_lt (List.mem_range.mp hj)).trans_le hk) h.tbl }

/-- The seed writes K leaves and K roots (R124). -/
theorem seedTree (h : Canonical s) {k : Nat} (hk : k ≤ 256) : Canonical (s.seedTree k) :=
  { h with
    node := Table.wf_writeList _ _ (by simp only [List.length_map, List.length_range]; omega) h.node
    tops := Table.wf_writeList _ _ (by simp only [List.length_map, List.length_range]; omega) h.tops }

/-- A merge step on a forest writes the node NNODE, below 511, and NTOP − 1 roots (R126 to R130). -/
theorem mergeStep (h : Canonical s) {rows : List Row} (hf : s.Forest rows) (h2 : 1 < s.ntop.toNat) :
    Canonical s.mergeStep := by
  obtain ⟨-, htop⟩ := hf.top
  have hfew := hf.few
  have hcount := hf.count
  exact {
    h with
    node := Table.wf_write _ _ (by omega) h.node
    tops := Table.wf_writeList _ _ (by rw [insertTop_length, State.topsList_length]; omega) h.tops }

/-- The merge loop: every state it passes holds a forest over the same rows. -/
theorem mergeLoop (h : Canonical s) {rows : List Row} (hf : s.Forest rows) (fuel : Nat) :
    Canonical (s.mergeLoop fuel) := by
  induction fuel generalizing s with
  | zero => exact h
  | succ fuel ih =>
    rw [State.mergeLoop]
    split
    · rename_i h2
      exact ih (h.mergeStep hf h2) (hf.mergeStep h2)
    · exact h

/-- A visit writes entries of CB that symbols name (42_codebook.md R141). -/
theorem visit_cb (node : Table Node) (fuel : Nat) (n : Index) (acc : BitString) {cb : Table Code}
    (h : Table.wf Code.zero 256 cb = true) : Table.wf Code.zero 256 (visit node fuel n (acc, cb)).2 = true := by
  induction fuel generalizing n acc cb with
  | zero => exact h
  | succ fuel ih =>
    rw [visit]
    split
    · exact wf_writeCode _ ⟨true, acc⟩ h
    · exact ih _ _ (ih _ _ h)

/-- The walk (42_codebook.md R140). -/
theorem walk (h : Canonical s) : Canonical s.walk :=
  { h with cb := visit_cb _ _ _ _ (wf_invalidateAll h.cb) }

/-- BUILD over K symbols. -/
theorem buildAll (h : Canonical s) {k : Nat} (h1 : 1 ≤ k) (hk : k ≤ 256) : Canonical (s.buildAll k) := by
  have hmerged := ((h.sortTable hk).seedTree hk).mergeLoop (State.seedTree_forest h1 hk) 255
  have hfinished : Canonical (State.finishTree _) := { hmerged with }
  exact { hfinished.walk with }

end Memory.Canonical

/-! ### Every step -/

/-- An LDROW that passes its checks goes on only where TBL has an entry at NROW. -/
theorem nrow_lt_of_exec_ldrow {x : Symbol} {len : BitVec 8} {m : Word} {code : CodeBits} (hp : s.phase = .load)
    (he : s.rowError x len code = none) (h : exec (.ldrow x len m code) s = .next t) : s.nrow.toNat < 256 := by
  have hl : legality (.ldrow x len m code) s.phase = .ok := by rw [hp]; rfl
  rcases exec_ldrow_cases h with ⟨_, _, _, hsome, _⟩ | ⟨_, _, hn, _⟩ | ⟨_, herr, _⟩ | ⟨hdrop, _⟩
  · rw [he] at hsome; cases hsome
  · exact hn
  · rw [hl] at herr; cases herr
  · rw [hl] at hdrop; cases hdrop

/-- Every command keeps the canonical form. -/
theorem exec_canonical (hs : Memory.Canonical s) (h : exec i s = .next t) : Memory.Canonical t := by
  cases State.Does.of_exec h with
  | stays => exact hs
  | raises _ e info => exact { hs with }
  | clears => exact hs.clearSession
  | answers _ ws => exact { hs with }
  | encodes x bs => exact { hs with }
  | counts x _ _ hn => exact hs.countSymbol hn
  | builds _ h2 hn => exact hs.buildAll (by omega) hn
  | beginsLoad n => exact { hs with }
  | loadsRow x len m code hp he => exact hs.commitRow (nrow_lt_of_exec_ldrow hp he h)
  | takesBit b => exact hs.acceptBit b

/-- Every complete command, legal or not in encoding, keeps the canonical form. -/
theorem runCommand_canonical {ws : List Word} (hs : Memory.Canonical s) (h : runCommand ws s = .next t) :
    Memory.Canonical t := by
  rcases runCommand_cases h with ⟨i, _, hi⟩ | ⟨_, _, hill⟩
  · exact exec_canonical hs hi
  · by_cases hp : s.phase = .err
    · rw [illegalCommand_err _ hp] at hill; cases hill; exact hs
    · rw [illegalCommand_raises _ hp] at hill; cases hill; exact { hs with }

/-- Every step keeps the canonical form. -/
theorem step_canonical (hs : Memory.Canonical s) (h : step s = .next t) : Memory.Canonical t := by
  rcases step_cases h with ⟨_, rfl⟩ | ⟨rest, _, rfl⟩ | ⟨w, rest, _, hw⟩
  · exact hs
  · exact { Memory.wf_iff_canonical.mp resetMeetsTheInvariants.2 with }
  · have hport : Memory.Canonical { s with port := rest } := { hs with }
    rcases receiveWord_cases hw with ⟨_, hrun⟩ | ⟨_, rfl⟩
    · exact runCommand_canonical (hport.storeWord w 0) hrun
    · exact hport.storeWord w _

/-- Settles O47: each update writes inside its memories; the merge does because it keeps a forest over at most 256 rows. -/
theorem stepKeepsMemoriesCanonical : Obligations.StepKeepsMemoriesCanonical := fun _ _ hs h =>
  Memory.wf_iff_canonical.mpr (step_canonical (Memory.wf_iff_canonical.mp hs) h)

end Sys2Proof.Machine
end

section
/-! SUPPORT. From a state that meets the invariants every command, and so every step, goes on: each counter that indexes a
memory is inside it (20_memory.md R61, 10_state.md R46). -/

namespace Sys2Proof.Machine

variable {s : State}

/-! ### The counters are in range -/

/-- No list of distinct symbols is longer than the alphabet. -/
theorem length_le_of_nodup {l : List Symbol} (h : l.Nodup) : l.length ≤ 256 := by
  simpa [allSymbols, Config.nsym] using (h.subperm fun x _ => mem_allSymbols x).length_le

theorem State.Inv.nseen_le (h : s.Inv) : s.nseen.toNat ≤ 256 := by
  simpa [State.seenSymbols] using length_le_of_nodup (State.seenSymbols_nodup h.counting)

/-- FSEEN has room for a symbol not counted before: it is none of those listed. -/
theorem State.Inv.nseen_lt (h : s.Inv) {x : Symbol} (hx : s.cntAt x = 0#32) : s.nseen.toNat < 256 := by
  have hnew : x ∉ s.seenSymbols := fun hmem => (State.mem_seenSymbols h.counting x).mp hmem hx
  simpa [State.seenSymbols] using length_le_of_nodup (List.nodup_cons.mpr ⟨hnew, State.seenSymbols_nodup h.counting⟩)

/-- In READY the rows are those of distinct symbols. -/
theorem State.Inv.tsize_le (h : s.Inv) (hp : s.phase = .ready) : s.tsize.toNat ≤ 256 := by
  obtain ⟨⟨-, hnrow, -, hrows⟩, -⟩ := h.ready hp
  rw [← hnrow]
  simpa [State.rowSymbols] using length_le_of_nodup (perm_filter_allSymbols.mp hrows).1

theorem State.Inv.nrow_lt (h : s.Inv) (hp : s.phase = .load) : s.nrow.toNat < 256 := by
  obtain ⟨⟨-, -, hle, hlt⟩, -⟩ := h.load hp
  omega

/-! ### Every command goes on -/

/-- A gated command goes on where its own rule does. -/
theorem gate_goes_on {i : Instr} {rule : State → Host.Outcome State Fault Refusal}
    (h : legality i s.phase = .ok → ∃ t, rule s = .next t) : ∃ t, gate i s rule = .next t := by
  cases hl : legality i s.phase with
  | ok => rw [gate_ok hl]; exact h hl
  | error e => exact ⟨_, gate_error hl⟩
  | drop => exact ⟨_, gate_drop hl⟩

/-- A rule of one check goes on whatever the check says. -/
theorem ite_goes_on (c : Prop) [Decidable c] (a b : State) :
    ∃ t, (if c then .next a else .next b : Host.Outcome State Fault Refusal) = .next t :=
  ⟨if c then a else b, (apply_ite _ c a b).symm⟩

theorem illegalCommand_goes_on (s : State) (info : BitVec 16) : ∃ t, illegalCommand info s = .next t := by
  by_cases hp : s.phase = .err
  · exact ⟨_, illegalCommand_err info hp⟩
  · exact ⟨_, illegalCommand_raises info hp⟩

theorem phase_of_legality_tblout (h : legality .tblout s.phase = .ok) : s.phase = .ready := by
  cases hp : s.phase <;> simp_all [legality, legalityRow]

theorem State.Inv.execSym_goes_on (h : s.Inv) (x : Symbol) : ∃ t, execSym x s = .next t := by
  refine gate_goes_on fun _ => ?_
  split
  · exact ⟨_, rfl⟩
  · exact ⟨_, if_neg fun ⟨hx, hn⟩ => Nat.not_le.mpr (h.nseen_lt hx) hn⟩

theorem State.Inv.execBuild_goes_on (h : s.Inv) : ∃ t, execBuild s = .next t := by
  refine gate_goes_on fun hl => ?_
  obtain ⟨⟨-, hpos⟩, -⟩ := h.count (phase_of_legality_build hl)
  split
  · exact ⟨_, rfl⟩
  · rename_i hne
    have h1 : s.nseen.toNat ≠ 1 := fun e => hne (BitVec.eq_of_toNat_eq e)
    exact ⟨_, if_pos ⟨by omega, h.nseen_le⟩⟩

theorem State.Inv.execTblout_goes_on (h : s.Inv) : ∃ t, execTblout s = .next t :=
  gate_goes_on fun hl => ⟨_, if_pos (h.tsize_le (phase_of_legality_tblout hl))⟩

theorem State.Inv.execLdrow_goes_on (h : s.Inv) (x : Symbol) (len : BitVec 8) (m : Word) (code : CodeBits) :
    ∃ t, execLdrow x len m code s = .next t := by
  refine gate_goes_on fun hl => ?_
  split
  · exact ⟨_, rfl⟩
  · exact ⟨_, if_neg (Nat.not_le.mpr (h.nrow_lt (phase_of_legality_ldrow hl)))⟩

/-- From a state that meets the invariants every command goes on: only SYM, BUILD, TBLOUT and LDROW need them. -/
theorem State.Inv.exec_goes_on (h : s.Inv) (i : Instr) : ∃ t, exec i s = .next t := by
  cases i with
  | nop => exact gate_goes_on fun _ => ⟨_, rfl⟩
  | clear => exact ⟨_, exec_clear_eq s⟩
  | rdreg r =>
    rw [exec_rdreg_eq]
    split
    · exact ⟨_, rfl⟩
    · exact illegalCommand_goes_on s _
  | sym x => exact h.execSym_goes_on x
  | rdcnt x => exact ⟨_, exec_rdcnt_eq x s⟩
  | build => exact h.execBuild_goes_on
  | rdnode n => exact ⟨_, exec_rdnode_eq n s⟩
  | rdcode x => exact ⟨_, exec_rdcode_eq x s⟩
  | enc x => rw [exec, execEnc]; exact gate_goes_on fun _ => ite_goes_on _ _ _
  | tblout => exact h.execTblout_goes_on
  | ldsize n => rw [exec, execLdsize]; exact gate_goes_on fun _ => ite_goes_on _ _ _
  | ldrow x len m code => exact h.execLdrow_goes_on x len m code
  | dbit b => rw [exec, execDbit]; exact gate_goes_on fun _ => ite_goes_on _ _ _
  | dend => rw [exec, execDend]; exact gate_goes_on fun _ => ite_goes_on _ _ _

/-! ### Every step goes on -/

theorem State.Inv.runCommand_goes_on (h : s.Inv) (ws : List Word) : ∃ t, runCommand ws s = .next t := by
  rw [runCommand]
  split
  · exact h.exec_goes_on _
  · exact illegalCommand_goes_on s _

/-- A word that completes no command finds CW with an entry left: an LDROW is complete at its tenth word (30_encoding.md
R80). -/
theorem State.Inv.receiveWord_goes_on (h : s.Inv) (w : Word) : ∃ t, receiveWord w s = .next t := by
  simp only [receiveWord]
  split
  · exact (h.withAssembler _ 0 s.port fun h0 => absurd rfl h0).runCommand_goes_on _
  · rename_i hc
    have hlen : lengthOf (Table.read 0#32 (Table.write 0#32 s.cw s.cwn.val w) 0) = 10 :=
      if_pos (receiveWord_holds h.assembler hc)
    have hne : s.cwn.val + 1 ≠ 10 := fun e => hc (e.trans hlen.symm)
    have hlt : s.cwn.val + 1 < Config.cwWords := Nat.lt_of_le_of_ne s.cwn.isLt hne
    exact ⟨_, dif_pos hlt⟩

/-- Settles O55: the counters that could stop a command or a word are in range in every state that meets the invariants. -/
theorem noStepStops : Obligations.NoStepStops := by
  intro s h
  rw [step, takeEvent]
  split
  · exact ⟨_, rfl⟩
  · exact ⟨_, rfl⟩
  · exact (h.withAssembler s.cw s.cwn _ h.assembler).receiveWord_goes_on _

end Sys2Proof.Machine
end

section
/-! SUPPORT. Which commands append to which stream (20_memory.md R66 to R68). -/

namespace Sys2Proof.Machine

/-- Settles O57: one case for each thing a command can do; all but three of them leave the streams alone. -/
theorem streamsGrowOnlyByTheirCommands : Obligations.StreamsGrowOnlyByTheirCommands := by
  intro i s t h
  cases State.Does.of_exec h with
  | stays => simp
  | raises => simp
  | clears => simp
  | answers _ ws hi =>
    rw [answersOnRsp] at hi
    simp [hi]
  | encodes x bs => simp
  | counts x => simp
  | builds =>
    obtain ⟨_, _, _, _, _, _, _, hb⟩ := s.buildAll_frame s.nseen.toNat
    simp [hb]
  | beginsLoad n => simp [State.beginLoad]
  | loadsRow x len m code =>
    rcases s.commitRow_cases x len m code with ⟨_, hc⟩ | ⟨_, hc⟩
    · simp [hc]
    · simp [hc]
  | takesBit b =>
    rcases s.acceptBit_cases b with ⟨_, _, hb⟩ | ⟨_, hb⟩
    · simp [hb]
    · simp [hb]

end Sys2Proof.Machine
end

section
/-! SUPPORT. Words by their fields: two words agree when their fields do, a header is its opcode and its operand fields, and
a code is its eight words (30_encoding.md R80 to R88, 20_memory.md R64). -/

namespace Sys2Proof

/-! ### Fields that stand side by side -/

/-- Two fields that stand side by side are one field. -/
theorem extractLsb'_glue {w : Nat} {a b : BitVec w} {lo : Nat} (m n : Nat)
    (hlow : a.extractLsb' lo m = b.extractLsb' lo m) (hhigh : a.extractLsb' (lo + m) n = b.extractLsb' (lo + m) n) :
    a.extractLsb' lo (n + m) = b.extractLsb' lo (n + m) := by
  rw [← BitVec.extractLsb'_append_extractLsb'_eq_extractLsb' rfl, hlow, hhigh,
    BitVec.extractLsb'_append_extractLsb'_eq_extractLsb' rfl]

/-- Two words agree when their opcodes and their bits [23:0] do. -/
theorem word_eq_of_fields {a b : Word} (hopc : opcodeOf a = opcodeOf b)
    (hlow : a.extractLsb' 0 24 = b.extractLsb' 0 24) : a = b := by
  simpa only [BitVec.extractLsb'_eq_self] using extractLsb'_glue 24 8 hlow hopc

/-! ### The formats of R83 to R87, read -/

@[simp] theorem decodeN_headerN (opc : BitVec 8) (i : Instr) : decodeN (headerN opc) i = .ok i := by
  simp [decodeN, headerN, extractLsb'_place_disjoint]

@[simp] theorem decodeS_headerS (opc : BitVec 8) (x : Symbol) (mk : Symbol → Instr) :
    decodeS (headerS opc x) mk = .ok (mk x) := by
  simp [decodeS, headerS, extractLsb'_or, extractLsb'_place, extractLsb'_place_disjoint]

@[simp] theorem headerB_bit (opc : BitVec 8) (b : Bool) : (headerB opc b).getLsbD 0 = b := by
  simp only [headerB, BitVec.getLsbD_or, getLsbD_place]
  simp

@[simp] theorem decodeB_headerB (opc : BitVec 8) (b : Bool) (mk : Bool → Instr) :
    decodeB (headerB opc b) mk = .ok (mk b) := by
  have hz : (headerB opc b).extractLsb' 1 23 = 0#23 := by simp [headerB, extractLsb'_or, extractLsb'_place_disjoint]
  rw [decodeB, if_pos hz, headerB_bit]

@[simp] theorem extractLsb'_headerI (opc : BitVec 8) (n : Index) : (headerI opc n).extractLsb' 0 9 = n := by
  simp [headerI, extractLsb'_or, extractLsb'_place, extractLsb'_place_disjoint]

@[simp] theorem decodeI_headerI (opc : BitVec 8) (n : Index) (mk : Index → Instr) :
    decodeI (headerI opc n) mk = .ok (mk n) := by
  simp [decodeI, headerI, extractLsb'_or, extractLsb'_place, extractLsb'_place_disjoint]

@[simp] theorem headerR_sym (opc len : BitVec 8) (x : Symbol) : (headerR opc len x).extractLsb' 0 8 = x := by
  simp [headerR, extractLsb'_or, extractLsb'_place, extractLsb'_place_disjoint]

@[simp] theorem headerR_len (opc len : BitVec 8) (x : Symbol) : (headerR opc len x).extractLsb' 16 8 = len := by
  simp [headerR, extractLsb'_or, extractLsb'_place, extractLsb'_place_disjoint]

theorem headerR_reserved (opc len : BitVec 8) (x : Symbol) : (headerR opc len x).extractLsb' 8 8 = 0#8 := by
  simp [headerR, extractLsb'_or, extractLsb'_place_disjoint]

/-! ### A word whose reserved bits are zero is a header -/

theorem eq_headerN {h : Word} (hz : h.extractLsb' 0 24 = 0#24) : h = headerN (opcodeOf h) := by
  refine word_eq_of_fields (opcodeOf_headerN _).symm ?_
  simp [headerN, hz, extractLsb'_place_disjoint]

theorem eq_headerS {h : Word} (hz : h.extractLsb' 8 16 = 0#16) : h = headerS (opcodeOf h) (h.extractLsb' 0 8) := by
  refine word_eq_of_fields (opcodeOf_headerS _ _).symm (extractLsb'_glue 8 16 ?_ ?_)
  · simp [headerS, extractLsb'_or, extractLsb'_place, extractLsb'_place_disjoint]
  · simp [headerS, hz, extractLsb'_or, extractLsb'_place_disjoint]

theorem eq_headerB {h : Word} (hz : h.extractLsb' 1 23 = 0#23) : h = headerB (opcodeOf h) (h.getLsbD 0) := by
  refine word_eq_of_fields (opcodeOf_headerB _ _).symm (extractLsb'_glue 1 23 ?_ ?_)
  · refine BitVec.eq_of_getLsbD_eq fun i hi => ?_
    obtain rfl : i = 0 := by omega
    rw [BitVec.getLsbD_extractLsb', BitVec.getLsbD_extractLsb', Nat.add_zero, headerB_bit]
  · simp [headerB, hz, extractLsb'_or, extractLsb'_place_disjoint]

theorem eq_headerI {h : Word} (hz : h.extractLsb' 9 15 = 0#15) : h = headerI (opcodeOf h) (h.extractLsb' 0 9) := by
  refine word_eq_of_fields (opcodeOf_headerI _ _).symm (extractLsb'_glue 9 15 ?_ ?_)
  · simp
  · simp [headerI, hz, extractLsb'_or, extractLsb'_place_disjoint]

theorem eq_headerR {h : Word} (hz : h.extractLsb' 8 8 = 0#8) :
    h = headerR (opcodeOf h) (h.extractLsb' 16 8) (h.extractLsb' 0 8) := by
  refine word_eq_of_fields (opcodeOf_headerR _ _ _).symm
    (extractLsb'_glue 16 8 (extractLsb'_glue 8 8 ?_ ?_) ?_)
  · simp
  · simp [hz, headerR_reserved]
  · simp

/-! ### The eight words of a code (R64, R88) -/

/-- Eight words read back from the code they make. -/
@[simp] theorem codeWords_codeOfWords (c0 c1 c2 c3 c4 c5 c6 c7 : Word) :
    codeWords (codeOfWords c0 c1 c2 c3 c4 c5 c6 c7) = [c0, c1, c2, c3, c4, c5, c6, c7] := by
  simp [codeWords, List.range_succ, codeWord, codeOfWords, extractLsb'_or, extractLsb'_place,
    extractLsb'_place_disjoint]

/-- A code is determined by its eight words. -/
theorem codeWords_injective : Function.Injective codeWords := by
  intro a b h
  refine BitVec.eq_of_getLsbD_eq fun i hi => ?_
  have hk : codeWord a (i / 32) = codeWord b (i / 32) := 
    List.map_inj_left.mp h (i / 32) (List.mem_range.mpr (by omega))
  have hbit := congrArg (fun v => v.getLsbD (i % 32)) hk
  simpa [codeWord, Nat.mod_lt, Nat.div_add_mod] using hbit

theorem codeWords_eq (code : CodeBits) :
    codeWords code = [codeWord code 0, codeWord code 1, codeWord code 2, codeWord code 3, codeWord code 4,
      codeWord code 5, codeWord code 6, codeWord code 7] := rfl

/-- The code is made again from its eight words. -/
@[simp] theorem codeOfWords_codeWord (code : CodeBits) :
    codeOfWords (codeWord code 0) (codeWord code 1) (codeWord code 2) (codeWord code 3) (codeWord code 4)
      (codeWord code 5) (codeWord code 6) (codeWord code 7) = code :=
  codeWords_injective (codeWords_codeOfWords ..)

@[simp] theorem decodeR_headerR (opc len : BitVec 8) (x : Symbol) (m : Word) (code : CodeBits) :
    decodeR (headerR opc len x) (m :: codeWords code) = .ok (.ldrow x len m code) := by
  simp [decodeR, codeWords_eq, headerR_reserved]

end Sys2Proof
end

section
/-! SUPPORT. The decoder and the encoder are inverse (30_encoding.md R83 to R93). -/

namespace Sys2Proof

/-! ### What each format reads -/

theorem eq_ok_of_ite {α ε : Type} {c : Prop} [Decidable c] {a i : α} {e : ε}
    (h : (if c then .ok a else .error e : Except ε α) = .ok i) : c ∧ i = a := by
  split at h
  · rename_i hc; cases h; exact ⟨hc, rfl⟩
  · cases h

theorem decodeN_ok {h : Word} {j i : Instr} (hd : decodeN h j = .ok i) : h = headerN (opcodeOf h) ∧ i = j :=
  have ⟨hz, hi⟩ := eq_ok_of_ite hd
  ⟨eq_headerN hz, hi⟩

theorem decodeS_ok {h : Word} {mk : Symbol → Instr} {i : Instr} (hd : decodeS h mk = .ok i) :
    ∃ x, h = headerS (opcodeOf h) x ∧ i = mk x :=
  have ⟨hz, hi⟩ := eq_ok_of_ite hd
  ⟨_, eq_headerS hz, hi⟩

theorem decodeB_ok {h : Word} {mk : Bool → Instr} {i : Instr} (hd : decodeB h mk = .ok i) :
    ∃ b, h = headerB (opcodeOf h) b ∧ i = mk b :=
  have ⟨hz, hi⟩ := eq_ok_of_ite hd
  ⟨_, eq_headerB hz, hi⟩

theorem decodeI_ok {h : Word} {mk : Index → Instr} {i : Instr} (hd : decodeI h mk = .ok i) :
    h = headerI (opcodeOf h) (h.extractLsb' 0 9) ∧ i = mk (h.extractLsb' 0 9) :=
  have ⟨hz, hi⟩ := eq_ok_of_ite hd
  ⟨eq_headerI hz, hi⟩

theorem decodeR_ok {h : Word} {data : List Word} {i : Instr} (hd : decodeR h data = .ok i) :
    ∃ x len m code, h = headerR (opcodeOf h) len x ∧ data = m :: codeWords code ∧ i = .ldrow x len m code := by
  rw [decodeR.eq_def] at hd
  split at hd
  · obtain ⟨hz, rfl⟩ := eq_ok_of_ite hd
    exact ⟨_, _, _, _, eq_headerR hz, by rw [codeWords_codeOfWords], rfl⟩
  · cases hd

/-! ### Decoding is the inverse of encoding -/

/-- Decoding the words of a well-formed command gives the command: each format reads back the header it writes. -/
theorem decode_encode (i : Instr) (hi : i.WellFormed = true) : decode (encode i) = .ok i := by
  cases i with
  | nop | clear | build | tblout | dend => simp [encode, decode, decodeHeader, opcodeOf_headerN]
  | sym | rdcnt | rdcode | enc => simp [encode, decode, decodeHeader, opcodeOf_headerS]
  | rdnode | ldsize => simp [encode, decode, decodeHeader, opcodeOf_headerI]
  | dbit => simp [encode, decode, decodeHeader, opcodeOf_headerB]
  | ldrow => simp only [encode, decode, opcodeOf_headerR, if_true, decodeR_headerR]
  | rdreg r =>
    have hr : isRegisterNumber r = true := hi
    simp [encode, decode, decodeHeader, opcodeOf_headerI, hr]

/-- Where a header of a known opcode other than LDROW's stands in the opcode map: its format, the bits the format marks 0,
the commands of the row, and what the decoder reads (30_encoding.md R83 to R86, R89, R93). -/
inductive HeaderRow (h : Word) : Prop
  | formatN (i : Instr) (reserved : reservedBits (opcodeOf h) = 0x00FFFFFF#32)
      (encodes : i.WellFormed = true ∧ encode i = [headerN (opcodeOf h)]) (decodes : decodeHeader h = decodeN h i)
  | formatS (mk : Symbol → Instr) (reserved : reservedBits (opcodeOf h) = 0x00FFFF00#32)
      (encodes : ∀ x, (mk x).WellFormed = true ∧ encode (mk x) = [headerS (opcodeOf h) x])
      (decodes : decodeHeader h = decodeS h mk)
  | formatB (mk : Bool → Instr) (reserved : reservedBits (opcodeOf h) = 0x00FFFFFE#32)
      (encodes : ∀ b, (mk b).WellFormed = true ∧ encode (mk b) = [headerB (opcodeOf h) b])
      (decodes : decodeHeader h = decodeB h mk)
  | formatI (mk : Index → Instr) (reserved : reservedBits (opcodeOf h) = 0x00FFFE00#32)
      (wellFormed : ∀ n, (mk n).WellFormed = true ↔ (opcodeOf h = 0x02#8 → Index.NamesRegister n = true))
      (encodes : ∀ n, encode (mk n) = [headerI (opcodeOf h) n])
      (decodes : ∀ i, decodeHeader h = .ok i ↔ decodeI h mk = .ok i ∧ (mk (h.extractLsb' 0 9)).WellFormed = true)

/-- RDREG decodes when its format does and IDX is a register number (R93). -/
theorem decodeHeader_rdreg {h : Word} (ho : opcodeOf h = 0x02#8) (i : Instr) :
    decodeHeader h = .ok i ↔
      decodeI h .rdreg = .ok i ∧ (Instr.rdreg (h.extractLsb' 0 9)).WellFormed = true := by
  have hw : (Instr.rdreg (h.extractLsb' 0 9)).WellFormed = isRegisterNumber (h.extractLsb' 0 9) := rfl
  rw [hw]
  cases hd : decodeI h .rdreg with
  | ok j => by_cases hr : isRegisterNumber (h.extractLsb' 0 9) = true <;> simp [decodeHeader, ho, hd, hr]
  | error e => simp [decodeHeader, ho, hd]

theorem headerRow_of_known {h : Word} (hk : opcodeOf h ∈ knownOpcodes) (hl : opcodeOf h ≠ 0x41#8) : HeaderRow h := by
  simp only [knownOpcodes, List.mem_cons, List.not_mem_nil, or_false] at hk
  rcases hk with ho | ho | ho | ho | ho | ho | ho | ho | ho | ho | ho | ho | ho | ho
  · exact .formatN .nop (ho ▸ rfl) ⟨rfl, ho ▸ rfl⟩ (by simp [decodeHeader, ho])
  · exact .formatN .clear (ho ▸ rfl) ⟨rfl, ho ▸ rfl⟩ (by simp [decodeHeader, ho])
  · exact .formatI .rdreg (ho ▸ rfl) (by simp [ho, Instr.WellFormed]) (ho ▸ fun _ => rfl)
      (decodeHeader_rdreg ho)
  · exact .formatS .sym (ho ▸ rfl) (ho ▸ fun _ => ⟨rfl, rfl⟩) (by simp [decodeHeader, ho])
  · exact .formatS .rdcnt (ho ▸ rfl) (ho ▸ fun _ => ⟨rfl, rfl⟩) (by simp [decodeHeader, ho])
  · exact .formatN .build (ho ▸ rfl) ⟨rfl, ho ▸ rfl⟩ (by simp [decodeHeader, ho])
  · exact .formatI .rdnode (ho ▸ rfl) (by simp [ho, Instr.WellFormed]) (ho ▸ fun _ => rfl)
      (by simp [decodeHeader, ho, Instr.WellFormed])
  · exact .formatS .rdcode (ho ▸ rfl) (ho ▸ fun _ => ⟨rfl, rfl⟩) (by simp [decodeHeader, ho])
  · exact .formatS .enc (ho ▸ rfl) (ho ▸ fun _ => ⟨rfl, rfl⟩) (by simp [decodeHeader, ho])
  · exact .formatN .tblout (ho ▸ rfl) ⟨rfl, ho ▸ rfl⟩ (by simp [decodeHeader, ho])
  · exact .formatI .ldsize (ho ▸ rfl) (by simp [ho, Instr.WellFormed]) (ho ▸ fun _ => rfl)
      (by simp [decodeHeader, ho, Instr.WellFormed])
  · exact absurd ho hl
  · exact .formatB .dbit (ho ▸ rfl) (ho ▸ fun _ => ⟨rfl, rfl⟩) (by simp [decodeHeader, ho])
  · exact .formatN .dend (ho ▸ rfl) ⟨rfl, ho ▸ rfl⟩ (by simp [decodeHeader, ho])

theorem decodeHeader_of_unknown {h : Word} (hk : opcodeOf h ∉ knownOpcodes) :
    decodeHeader h = .error .reservedOpcode := by
  simp only [knownOpcodes, List.mem_cons, List.not_mem_nil, or_false, not_or] at hk
  simp [decodeHeader, hk]

theorem decode_of_ne_ldrow {h : Word} (hl : opcodeOf h ≠ 0x41#8) : decode [h] = decodeHeader h := if_neg hl

theorem decode_of_ne_ldrow_of_long {h w : Word} {ws : List Word} (hl : opcodeOf h ≠ 0x41#8) :
    decode (h :: w :: ws) = .error .wrongLength := if_neg hl

theorem decode_of_ldrow {h : Word} (hl : opcodeOf h = 0x41#8) (data : List Word) : decode (h :: data) = decodeR h data :=
  if_pos hl

theorem HeaderRow.encode_of_decode {h : Word} (row : HeaderRow h) {i : Instr} (hd : decodeHeader h = .ok i) :
    i.WellFormed = true ∧ encode i = [h] := by
  cases row with
  | formatN j _ he hdec =>
    rw [hdec] at hd
    obtain ⟨hh, rfl⟩ := decodeN_ok hd
    rwa [hh]
  | formatS mk _ he hdec =>
    rw [hdec] at hd
    obtain ⟨x, hh, rfl⟩ := decodeS_ok hd
    exact ⟨(he x).1, by rw [(he x).2, ← hh]⟩
  | formatB mk _ he hdec =>
    rw [hdec] at hd
    obtain ⟨b, hh, rfl⟩ := decodeB_ok hd
    exact ⟨(he b).1, by rw [(he b).2, ← hh]⟩
  | formatI mk _ _ he hdec =>
    obtain ⟨hi, hw⟩ := (hdec i).mp hd
    obtain ⟨hh, rfl⟩ := decodeI_ok hi
    exact ⟨hw, by rw [he, ← hh]⟩

/-- What decodes is well formed, and encodes as the words it was decoded from. -/
theorem encode_of_decode {ws : List Word} {i : Instr} (hd : decode ws = .ok i) : i.WellFormed = true ∧ encode i = ws := by
  cases ws with
  | nil => cases hd
  | cons h data =>
    by_cases hl : opcodeOf h = 0x41#8
    · rw [decode_of_ldrow hl] at hd
      obtain ⟨x, len, m, code, hh, rfl, rfl⟩ := decodeR_ok hd
      exact ⟨rfl, by rw [encode, ← hl, ← hh]⟩
    · cases data with
      | cons _ _ => rw [decode_of_ne_ldrow_of_long hl] at hd; cases hd
      | nil =>
        rw [decode_of_ne_ldrow hl] at hd
        by_cases hk : opcodeOf h ∈ knownOpcodes
        · exact (headerRow_of_known hk hl).encode_of_decode hd
        · rw [decodeHeader_of_unknown hk] at hd; cases hd

/-- Settles O1: each format reads back the header it writes. -/
theorem decodeOfEncode : Obligations.DecodeOfEncode := decode_encode

/-- Settles O2: where the reserved bits are zero the header is the one its fields write, row by row. -/
theorem encodeOfDecode : Obligations.EncodeOfDecode := fun _ _ => encode_of_decode

/-! ### Which words decode -/

/-- A field is zero exactly when the word has no bit under the field's mask. -/
theorem and_mask_eq_zero_iff {w : Nat} (h : BitVec w) {n lo : Nat} (hn : lo + n ≤ w) :
    h &&& place w (BitVec.allOnes n) lo = 0#w ↔ h.extractLsb' lo n = 0#n := by
  constructor
  · intro hz
    have := congrArg (BitVec.extractLsb' lo n) hz
    rw [BitVec.extractLsb'_and, extractLsb'_place _ _ _ hn, BitVec.and_allOnes] at this
    rw [this, BitVec.extractLsb'_zero]
  · intro hz
    refine BitVec.eq_of_getLsbD_eq fun i hi => ?_
    have hbit := congrArg (fun v => v.getLsbD (i - lo)) hz
    simp only [BitVec.getLsbD_extractLsb', BitVec.getLsbD_zero, Bool.and_eq_false_iff, decide_eq_false_iff_not] at hbit
    simp only [BitVec.getLsbD_and, getLsbD_place, BitVec.getLsbD_zero, BitVec.getLsbD_allOnes]
    by_cases hlo : lo ≤ i
    · rw [Nat.add_sub_cancel' hlo] at hbit
      rcases hbit with hb | hb <;> simp [hb]
    · simp [hlo]

theorem isOk_ite {α ε : Type} (c : Prop) [Decidable c] (a : α) (e : ε) :
    (∃ i, (if c then .ok a else .error e : Except ε α) = .ok i) ↔ c :=
  ⟨fun ⟨_, h⟩ => (eq_ok_of_ite h).1, fun hc => ⟨a, if_pos hc⟩⟩

theorem decodeN_isOk (h : Word) (i : Instr) : (∃ j, decodeN h i = .ok j) ↔ h &&& 0x00FFFFFF#32 = 0#32 :=
  (isOk_ite ..).trans (and_mask_eq_zero_iff h (n := 24) (lo := 0) (by omega)).symm

theorem decodeS_isOk (h : Word) (mk : Symbol → Instr) : (∃ j, decodeS h mk = .ok j) ↔ h &&& 0x00FFFF00#32 = 0#32 :=
  (isOk_ite ..).trans (and_mask_eq_zero_iff h (n := 16) (lo := 8) (by omega)).symm

theorem decodeB_isOk (h : Word) (mk : Bool → Instr) : (∃ j, decodeB h mk = .ok j) ↔ h &&& 0x00FFFFFE#32 = 0#32 :=
  (isOk_ite ..).trans (and_mask_eq_zero_iff h (n := 23) (lo := 1) (by omega)).symm

theorem decodeI_isOk (h : Word) (mk : Index → Instr) : (∃ j, decodeI h mk = .ok j) ↔ h &&& 0x00FFFE00#32 = 0#32 :=
  (isOk_ite ..).trans (and_mask_eq_zero_iff h (n := 15) (lo := 9) (by omega)).symm

theorem decodeR_isOk (h : Word) {data : List Word} (hdata : data.length = 9) :
    (∃ j, decodeR h data = .ok j) ↔ h &&& 0x0000FF00#32 = 0#32 := by
  match data, hdata with
  | [m, c0, c1, c2, c3, c4, c5, c6, c7], _ =>
    exact (isOk_ite ..).trans (and_mask_eq_zero_iff h (n := 8) (lo := 8) (by omega)).symm

end Sys2Proof
end

section
/-! SUPPORT. Which words decode, by the bits each format marks 0, and the opcode map by mask and match (30_encoding.md R89 to
R93). -/

namespace Sys2Proof

theorem HeaderRow.isOk_iff {h : Word} (row : HeaderRow h) :
    (∃ i, decodeHeader h = .ok i) ↔
      h &&& reservedBits (opcodeOf h) = 0#32 ∧
        (opcodeOf h = 0x02#8 → Index.NamesRegister (h.extractLsb' 0 9) = true) := by
  have not_rdreg {m : Word} (hr : reservedBits (opcodeOf h) = m) (hm : m ≠ 0x00FFFE00#32) : opcodeOf h ≠ 0x02#8 :=
    fun ho => hm (by rw [← hr, ho]; rfl)
  cases row with
  | formatN i hr _ hd => simp [hd, hr, decodeN_isOk, not_rdreg hr]
  | formatS mk hr _ hd => simp [hd, hr, decodeS_isOk, not_rdreg hr]
  | formatB mk hr _ hd => simp [hd, hr, decodeB_isOk, not_rdreg hr]
  | formatI mk hr hw _ hd => simp only [hd, hr, exists_and_right, decodeI_isOk, hw]

/-- The words of a complete command decode exactly when the opcode is known, every bit its format marks 0 is zero, and IDX of
RDREG is a register number (R89 to R93). -/
theorem decode_isOk_iff {h : Word} {data : List Word} (hlen : data.length + 1 = lengthOf h) :
    (∃ i, decode (h :: data) = .ok i) ↔
      opcodeOf h ∈ knownOpcodes ∧ h &&& reservedBits (opcodeOf h) = 0#32 ∧
        (opcodeOf h = 0x02#8 → Index.NamesRegister (h.extractLsb' 0 9) = true) := by
  by_cases hl : opcodeOf h = 0x41#8
  · have hdata : data.length = 9 := by simpa [lengthOf, hl] using hlen
    have hr : reservedBits 0x41#8 = 0x0000FF00#32 := rfl
    simp [decode_of_ldrow hl, decodeR_isOk h hdata, hl, hr, knownOpcodes]
  · have hdata : data = [] := by simpa [lengthOf, hl] using hlen
    rw [hdata, decode_of_ne_ldrow hl]
    by_cases hk : opcodeOf h ∈ knownOpcodes
    · simp only [(headerRow_of_known hk hl).isOk_iff, hk, true_and]
    · simp [decodeHeader_of_unknown hk, hk]

/-! ### The opcode map -/

theorem encodedLength (i : Instr) : Laws.EncodedLength.Statement i := by
  cases i with
  | nop => exact Laws.EncodedLength.nop
  | clear => exact Laws.EncodedLength.clear
  | rdreg r => exact Laws.EncodedLength.rdreg r
  | sym x => exact Laws.EncodedLength.sym x
  | rdcnt x => exact Laws.EncodedLength.rdcnt x
  | build => exact Laws.EncodedLength.build
  | rdnode n => exact Laws.EncodedLength.rdnode n
  | rdcode x => exact Laws.EncodedLength.rdcode x
  | enc x => exact Laws.EncodedLength.enc x
  | tblout => exact Laws.EncodedLength.tblout
  | ldsize n => exact Laws.EncodedLength.ldsize n
  | ldrow x len m code => exact Laws.EncodedLength.ldrow x len m code
  | dbit b => exact Laws.EncodedLength.dbit b
  | dend => exact Laws.EncodedLength.dend

/-- What decodes has the header's opcode and as many words as that opcode says. -/
theorem opcode_of_decode {h : Word} {data : List Word} {i : Instr} (hd : decode (h :: data) = .ok i) :
    opcodeOf h = opcode i ∧ data.length + 1 = lengthOf h := by
  obtain ⟨h', data', he, hopc, hlen⟩ := encodedLength i
  rw [(encode_of_decode hd).2] at he
  cases he
  exact ⟨hopc, hlen⟩

/-- The row of the opcode map of an opcode: its match, its mask and its number of words. -/
def opcodeRow (opc : BitVec 8) : Word × Word × Nat :=
  (headerN opc, 0xFF000000#32 ||| reservedBits opc, if opc = 0x41#8 then 10 else 1)

theorem opcodeMap_eq : opcodeMap = knownOpcodes.map opcodeRow := by decide

/-- The bits a format marks 0 are below the opcode. -/
theorem opcodeOf_reservedBits (opc : BitVec 8) : opcodeOf (reservedBits opc) = 0#8 := by
  unfold reservedBits
  split_ifs <;> rfl

theorem opcodeOf_and (a b : Word) : opcodeOf (a &&& b) = opcodeOf a &&& opcodeOf b := BitVec.extractLsb'_and

theorem opcodeOf_or (a b : Word) : opcodeOf (a ||| b) = opcodeOf a ||| opcodeOf b := extractLsb'_or ..

theorem word_eq_iff (a b : Word) : a = b ↔ opcodeOf a = opcodeOf b ∧ a.extractLsb' 0 24 = b.extractLsb' 0 24 :=
  ⟨fun h => h ▸ ⟨rfl, rfl⟩, fun ⟨hopc, hlow⟩ => word_eq_of_fields hopc hlow⟩

/-- A header matches the row of an opcode exactly when the opcode is its own and no bit its format marks 0 is set. -/
theorem and_mask_eq_match_iff (h : Word) (opc : BitVec 8) :
    h &&& (opcodeRow opc).2.1 = (opcodeRow opc).1 ↔ opcodeOf h = opc ∧ h &&& reservedBits opc = 0#32 := by
  have hmask : opcodeOf 0xFF000000#32 = BitVec.allOnes 8 ∧ (0xFF000000#32).extractLsb' 0 24 = 0#24 := ⟨rfl, rfl⟩
  have hzero : opcodeOf 0#32 = 0#8 ∧ (0#32).extractLsb' 0 24 = 0#24 := ⟨rfl, rfl⟩
  have hlow : (headerN opc).extractLsb' 0 24 = 0#24 := extractLsb'_place_disjoint _ _ _ _ _ (.inl (by omega))
  simp only [opcodeRow, word_eq_iff, opcodeOf_and, opcodeOf_or, BitVec.extractLsb'_and, extractLsb'_or, hmask, hzero, hlow,
    opcodeOf_headerN, opcodeOf_reservedBits, BitVec.or_zero, BitVec.zero_or, BitVec.and_zero, BitVec.and_allOnes, true_and]

/-- Settles O3: a row matches exactly when the opcode is the row's and no bit its format marks 0 is set, which is when the
decoder answers a command. -/
theorem headerSelectsRowByMask : Obligations.HeaderSelectsRowByMask := by
  intro h data hlen
  have hrow (opc : BitVec 8) : (opcodeRow opc).1 = 0x02000000#32 ↔ opc = 0x02#8 := by
    refine ⟨fun e => ?_, fun e => e ▸ rfl⟩
    have := congrArg opcodeOf e
    rwa [opcodeRow, opcodeOf_headerN] at this
  rw [decode_isOk_iff hlen, opcodeMap_eq]
  refine ⟨⟨?_, ?_⟩, fun i hd => ?_⟩
  · rintro ⟨hk, hz, hreg⟩
    exact ⟨_, List.mem_map_of_mem hk, (and_mask_eq_match_iff ..).mpr ⟨rfl, hz⟩, fun e => hreg ((hrow _).mp e)⟩
  · rintro ⟨r, hr, hmatch, hreg⟩
    obtain ⟨opc, hk, rfl⟩ := List.mem_map.mp hr
    obtain ⟨rfl, hz⟩ := (and_mask_eq_match_iff ..).mp hmatch
    exact ⟨hk, hz, fun e => hreg ((hrow _).mpr e)⟩
  · obtain ⟨hopc, -⟩ := opcode_of_decode hd
    obtain ⟨hk, hz, -⟩ := (decode_isOk_iff hlen).mp ⟨i, hd⟩
    exact ⟨_, List.mem_map_of_mem hk, (and_mask_eq_match_iff ..).mpr ⟨rfl, hz⟩, by rw [← hopc]; rfl, hlen.symm⟩

end Sys2Proof
end

section
/-! SUPPORT. The command port: what an arriving word stores, when it completes a command, and what a complete command that
does not decode does (30_encoding.md R80 to R93). -/

namespace Sys2Proof.Machine

variable {s : State} {w : Word} {rest : List PortEvent}

/-- Settles O4: the words are the encodings of the commands. -/
theorem sampleWordsDecode : Obligations.SampleWordsDecode :=
  ⟨decode_encode (.sym 0x61#8) rfl, decode_encode (.rdreg 1#9) rfl, decode_encode (.ldsize 5#9) rfl,
    decode_encode (.dbit true) rfl, decode_encode (.ldrow 0x63#8 4#8 1#32 4#256) rfl⟩

/-! ### The word stored -/

/-- `s` with another command assembler and port, all that an arriving word writes (30_encoding.md R81). -/
def State.withAssembler (s : State) (cw : Table Word) (cwn : Fin 10) (port : List PortEvent) : State :=
  { s with cw := cw, cwn := cwn, port := port }

/-- `s` with the word `w` taken from the port and stored at CW[CWN], and CWN at `n` (30_encoding.md R81). -/
def State.takeWord (s : State) (w : Word) (rest : List PortEvent) (n : Fin 10) : State :=
  s.withAssembler (Table.write 0#32 s.cw s.cwn.val w) n rest

/-- The words of the incomplete command: CW[0 .. CWN-1] (R81). -/
def State.heldWords (s : State) : List Word := s.cwList s.cwn.val

/-- CW[0] once `w` has arrived: the first word of the command held (R81). -/
def State.firstWord (s : State) (w : Word) : Word := if s.cwn = 0 then w else s.cwAt 0

/-- The command assembler and the port are no part of the core. -/
theorem State.sameCore_withAssembler (s : State) (cw : Table Word) (cwn : Fin 10) (port : List PortEvent) :
    s.SameCore (s.withAssembler cw cwn port) :=
  ⟨⟨rfl, rfl, rfl, rfl, rfl, rfl⟩, ⟨rfl, rfl, rfl, rfl, rfl, rfl, rfl⟩, ⟨rfl, rfl⟩,
    ⟨⟨fun _ => rfl, fun _ => rfl⟩, ⟨fun _ => rfl, fun _ => rfl⟩, fun _ => rfl, fun _ => rfl⟩, rfl, rfl, rfl⟩

theorem State.takeWord_cwAt (s : State) (w : Word) (rest : List PortEvent) (n : Fin 10) (k : Nat) :
    (s.takeWord w rest n).cwAt k = if k = s.cwn.val then w else s.cwAt k := by
  simp only [State.cwAt, State.takeWord, State.withAssembler, Table.read_write, eq_comm]

theorem State.takeWord_takesWord (s : State) (w : Word) (rest : List PortEvent) : s.TakesWord w rest (s.takeWord w rest 0) :=
  ⟨s.sameCore_withAssembler _ _ _, s.takeWord_cwAt w rest 0, rfl, rfl⟩

theorem State.takeWord_cwAt_zero (s : State) (w : Word) (rest : List PortEvent) (n : Fin 10) :
    (s.takeWord w rest n).cwAt 0 = s.firstWord w := by
  have h0 : 0 = s.cwn.val ↔ s.cwn = 0 := by rw [Fin.ext_iff, eq_comm]; rfl
  simp only [State.takeWord_cwAt, State.firstWord, h0]

/-- The words held once `w` has arrived. -/
theorem State.takeWord_cwList (s : State) (w : Word) (rest : List PortEvent) (n : Fin 10) :
    (s.takeWord w rest n).cwList (s.cwn.val + 1) = s.wordsWith w := by
  refine map_range_succ_eq (fun i hi => ?_) ?_
  · rw [State.takeWord_cwAt, if_neg (Nat.ne_of_lt hi)]
  · rw [State.takeWord_cwAt, if_pos rfl]

/-- The first of the words held is CW[0]. -/
theorem State.wordsWith_eq_cons (s : State) (w : Word) :
    ∃ data, s.wordsWith w = s.firstWord w :: data ∧ data.length = s.cwn.val := by
  refine ⟨(s.wordsWith w).tail, ?_, by simp [State.wordsWith, State.cwList]⟩
  rw [← State.takeWord_cwList s w [] 0, State.cwList, List.range_succ_eq_map, List.map_cons,
    State.takeWord_cwAt_zero, List.tail_cons]

/-! ### The step of an arriving word (R81) -/

/-- A word that makes the words held as many as the first word's opcode says runs the command they hold. -/
theorem step_of_complete (hp : s.port = .word w :: rest) (hc : s.cwn.val + 1 = lengthOf (s.firstWord w)) :
    step s = runCommand (s.wordsWith w) (s.takeWord w rest 0) := by
  rw [← State.takeWord_cwAt_zero s w rest 0] at hc
  rw [← State.takeWord_cwList s w rest 0]
  simp only [step, takeEvent, hp]
  exact if_pos hc

theorem lengthOf_le (h : Word) : lengthOf h ≤ 10 := by
  unfold lengthOf; split <;> omega

/-- A word that leaves the words held fewer than that is counted. -/
theorem step_of_held (hp : s.port = .word w :: rest) (hc : s.cwn.val + 1 < lengthOf (s.firstWord w)) :
    ∃ hn : s.cwn.val + 1 < 10, step s = .next (s.takeWord w rest ⟨s.cwn.val + 1, hn⟩) := by
  have hn : s.cwn.val + 1 < 10 := Nat.lt_of_lt_of_le hc (lengthOf_le _)
  rw [← State.takeWord_cwAt_zero s w rest 0] at hc
  refine ⟨hn, ?_⟩
  simp only [step, takeEvent, hp]
  exact (if_neg (Nat.ne_of_lt hc)).trans (dif_pos hn)

/-- Settles O5: the word is stored, and the number of words held decides between the two clauses. -/
theorem arrivingWordIsAssembled : Obligations.ArrivingWordIsAssembled := by
  rintro s w rest _ hp rfl
  refine ⟨fun hc => ⟨_, s.takeWord_takesWord w rest, step_of_complete hp hc⟩, fun hc => ?_⟩
  obtain ⟨hn, hstep⟩ := step_of_held hp hc
  exact ⟨_, hstep, s.sameCore_withAssembler _ _ _, s.takeWord_cwAt w rest _, rfl, rfl⟩

/-- Settles O6: words that decode are as many as their opcode says, so the step runs them. -/
theorem stepRunsTheDecodedCommand : Obligations.StepRunsTheDecodedCommand := by
  refine ⟨fun s w rest i hp hd => ⟨_, s.takeWord_takesWord w rest, ?_⟩, fun s hp => ?_⟩
  · obtain ⟨data, hws, hlen⟩ := s.wordsWith_eq_cons w
    have hc := (opcode_of_decode (hws ▸ hd)).2
    rw [hlen] at hc
    rw [step_of_complete hp hc, runCommand, hd]
  · simp only [step, takeEvent, hp]

/-! ### Illegal commands (R91 to R93) -/

/-- A complete command that does not decode is discarded in ERR and raises E_ILLCMD with bits [31:16] of its header outside
ERR (R90 steps 2 and 3). -/
theorem step_of_illegal (hp : s.port = .word w :: rest) (hc : s.cwn.val + 1 = lengthOf (s.firstWord w))
    (hbad : ¬ ∃ i, decode (s.wordsWith w) = .ok i) :
    ∃ s', s.TakesWord w rest s' ∧ (s.phase = .err → step s = .next s') ∧
      (s.phase ≠ .err → ∃ t, step s = .next t ∧ s'.ErrorEntered .illcmd ((s.firstWord w).extractLsb' 16 16) t) := by
  have hrun : step s = illegalCommand ((s.firstWord w).extractLsb' 16 16) (s.takeWord w rest 0) := by
    obtain ⟨data, hws, -⟩ := s.wordsWith_eq_cons w
    rw [step_of_complete hp hc, runCommand]
    cases hd : decode (s.wordsWith w) with
    | ok i => exact absurd ⟨i, hd⟩ hbad
    | error e => rw [hws]; rfl
  refine ⟨_, s.takeWord_takesWord w rest, fun he => ?_, fun he => ?_⟩
  · exact hrun.trans (illegalCommand_err _ he)
  · exact ⟨_, hrun.trans (illegalCommand_raises _ he), raise_errorEntered _ _ _⟩

/-- When the words of a complete command decode, by the header alone. -/
theorem decode_wordsWith_isOk_iff (hc : s.cwn.val + 1 = lengthOf (s.firstWord w)) :
    (∃ i, decode (s.wordsWith w) = .ok i) ↔
      opcodeOf (s.firstWord w) ∈ knownOpcodes ∧ s.firstWord w &&& reservedBits (opcodeOf (s.firstWord w)) = 0#32 ∧
        (opcodeOf (s.firstWord w) = 0x02#8 → Index.NamesRegister ((s.firstWord w).extractLsb' 0 9) = true) := by
  obtain ⟨data, hws, hlen⟩ := s.wordsWith_eq_cons w
  rw [hws]
  exact decode_isOk_iff (hlen ▸ hc)

/-- The header of a command of which no word is held is the word that arrives. -/
theorem State.firstWord_of_empty (h0 : s.cwn = 0) (w : Word) : s.firstWord w = w := if_pos h0

/-- With no word held, a word of an opcode other than LDROW's is a complete command. -/
theorem complete_of_empty (h0 : s.cwn = 0) (hl : opcodeOf w ≠ 0x41#8) :
    s.cwn.val + 1 = lengthOf (s.firstWord w) := by
  rw [State.firstWord_of_empty h0, h0, lengthOf, if_neg hl]; rfl

/-- Settles O9: no row of the opcode map has the opcode, and no opcode but LDROW's waits for more words. -/
theorem reservedOpcodeIsIllegal : Obligations.ReservedOpcodeIsIllegal := by
  intro s w rest hp h0 hk
  have hl : opcodeOf w ≠ 0x41#8 := fun e => hk (by rw [opcodeOf] at e; rw [e]; decide)
  have hc := complete_of_empty h0 hl
  have := step_of_illegal hp hc fun hok => hk (by
    obtain ⟨hmem, -⟩ := (decode_wordsWith_isOk_iff hc).mp hok
    rwa [State.firstWord_of_empty h0] at hmem)
  rwa [State.firstWord_of_empty h0] at this

/-- Settles O10: the words of a complete command decode only when the bits their format marks 0 are zero. -/
theorem reservedFieldIsIllegal : Obligations.ReservedFieldIsIllegal := by
  rintro s w rest _ hp rfl hc hz
  exact step_of_illegal hp hc fun hok => hz ((decode_wordsWith_isOk_iff hc).mp hok).2.1

/-- The word of RDREG r is the header the encoder writes. -/
theorem rdreg_word (r : Index) : 0x02000000#32 ||| r.setWidth 32 = headerI 0x02#8 r := by
  simp [headerI, place]

/-- Settles O11: the word is the header of an RDREG, whose IDX is no register number. -/
theorem reservedRegisterIsIllegal : Obligations.ReservedRegisterIsIllegal := by
  intro s r rest hp h0 hr
  rw [rdreg_word] at hp ⊢
  have hopc : opcodeOf (headerI 0x02#8 r) = 0x02#8 := opcodeOf_headerI _ _
  have hinfo : (headerI 0x02#8 r).extractLsb' 16 16 = 0x0200#16 := by
    rw [headerI, extractLsb'_or, extractLsb'_place_disjoint 32 r 0 16 16 (.inr (by omega))]; rfl
  have hc := complete_of_empty h0 (by rw [hopc]; decide)
  have := step_of_illegal hp hc fun hok => hr (by
    obtain ⟨-, -, hreg⟩ := (decode_wordsWith_isOk_iff hc).mp hok
    rw [State.firstWord_of_empty h0, extractLsb'_headerI] at hreg
    simpa [Index.NamesRegister] using hreg hopc)
  rwa [State.firstWord_of_empty h0, hinfo] at this

/-! ### The words of an LDROW (R82) -/

theorem run_succ_of_next {M : Host.Core} {s t : M.State} (h : M.step s = .next t) (k : Nat) :
    M.run (k + 1) s = M.run k t := by
  simp only [Host.Core.run, h]

theorem run_one (M : Host.Core) (s : M.State) : M.run 1 s = M.step s := by
  simp only [Host.Core.run]
  cases M.step s <;> rfl

/-- While an LDROW is incomplete its words are stored one after another, and nothing else happens. -/
theorem run_of_held {h : Word} (ho : opcodeOf h = 0x41#8) (ws : List Word) (s : State)
    (hp : s.port = ws.map PortEvent.word ++ rest) (hh : (s.heldWords ++ ws).head? = some h)
    (hn : s.cwn.val + ws.length < 10) :
    ∃ cw cwn, cwn.val = s.cwn.val + ws.length ∧ (s.withAssembler cw cwn rest).heldWords = s.heldWords ++ ws ∧
      ∀ k, Host.Core.run core (ws.length + k) s = Host.Core.run core k (s.withAssembler cw cwn rest) := by
  induction ws generalizing s with
  | nil =>
    obtain rfl : s.port = rest := hp
    exact ⟨s.cw, s.cwn, rfl, (List.append_nil _).symm, fun k => by rw [List.length_nil, Nat.zero_add]; rfl⟩
  | cons w ws ih =>
    rw [List.length_cons] at hn
    obtain ⟨data, hws, -⟩ := s.wordsWith_eq_cons w
    have happend : s.heldWords ++ w :: ws = s.wordsWith w ++ ws := by simp [State.wordsWith, State.heldWords]
    have hfirst : s.firstWord w = h := by simpa [happend, hws] using hh
    have hlen : s.cwn.val + 1 < lengthOf (s.firstWord w) := by rw [hfirst, lengthOf, if_pos ho]; omega
    obtain ⟨hlt, hstep⟩ := step_of_held hp hlen
    have hheld : (s.takeWord w (ws.map PortEvent.word ++ rest) ⟨s.cwn.val + 1, hlt⟩).heldWords = s.wordsWith w :=
      s.takeWord_cwList ..
    obtain ⟨cw, cwn, hcwn, hcw, hrun⟩ := ih (s.takeWord w _ ⟨s.cwn.val + 1, hlt⟩) rfl
      (by rw [hheld, ← happend, hh]) (show s.cwn.val + 1 + ws.length < 10 by omega)
    refine ⟨cw, cwn, ?_, ?_, fun k => ?_⟩
    · rw [hcwn, List.length_cons, Nat.add_comm ws.length, ← Nat.add_assoc]; rfl
    · rw [happend, ← hheld, ← hcw]; rfl
    · rw [List.length_cons, Nat.add_right_comm]
      exact (run_succ_of_next hstep _).trans (hrun k)

/-- Settles O7: nine words are held, and the tenth makes as many words as the opcode says. -/
theorem ldrowTakesTenWordsInEveryPhase : Obligations.LdrowTakesTenWordsInEveryPhase := by
  intro s w0 w1 w2 w3 w4 w5 w6 w7 w8 w9 rest ho h0 hp
  have hnone : s.heldWords = [] := by rw [State.heldWords, h0]; rfl
  obtain ⟨cw, cwn, hcwn, hheld, hrun⟩ := run_of_held (rest := .word w9 :: rest) ho
    [w0, w1, w2, w3, w4, w5, w6, w7, w8] s hp (by rw [hnone]; rfl) (by rw [h0]; simp)
  have hnine : cwn.val = 9 := by rw [hcwn, h0]; rfl
  generalize ht : s.withAssembler cw cwn (.word w9 :: rest) = t at hheld hrun
  have htp : t.port = .word w9 :: rest := ht ▸ rfl
  have hwords : t.wordsWith w9 = [w0, w1, w2, w3, w4, w5, w6, w7, w8, w9] := by
    rw [State.wordsWith, ← State.heldWords, hheld, hnone]; rfl
  have hfirst : t.firstWord w9 = w0 := by
    obtain ⟨data, hws, -⟩ := t.wordsWith_eq_cons w9
    exact (List.cons.inj (hws.symm.trans hwords)).1
  have hc : t.cwn.val + 1 = lengthOf (t.firstWord w9) := by
    rw [hfirst, lengthOf, if_pos ho, ← ht]; exact congrArg (· + 1) hnine
  have hten : Host.Core.run core 10 s = runCommand (t.wordsWith w9) (t.takeWord w9 rest 0) :=
    (hrun 1).trans ((run_one core t).trans (step_of_complete htp hc))
  rw [hwords] at hten
  subst ht
  exact ⟨⟨_, hrun 0, s.sameCore_withAssembler .., Fin.ext hnine, rfl⟩,
    _, s.sameCore_withAssembler .., rfl, rfl, hten⟩

end Sys2Proof.Machine
end

section
/-! SUPPORT. The text layout of 30_encoding.md R100 to R105: what the writer makes of each part, and what the reader makes of
it again. -/

namespace Sys2Proof.Machine

/-! ### Bits and codewords -/

@[simp] theorem byteBit_bitByte (b : Bool) : byteBit (bitByte b) = some b := by cases b <;> rfl

/-- Bits written as characters read back (R103, R104). -/
@[simp] theorem bytesBits_map_bitByte (bs : List Bool) : bytesBits (bs.map bitByte) = some bs := by
  induction bs with
  | nil => rfl
  | cons b bs ih => rw [List.map_cons, bytesBits, byteBit_bitByte, ih]

theorem lineByte_notMem_map_bitByte (bs : List Bool) : lineByte ∉ bs.map bitByte := by
  intro h
  obtain ⟨b, -, hb⟩ := List.mem_map.mp h
  cases b <;> exact absurd hb (by decide)

/-- A sequence of at most 255 bits is the sequence of its stored form (00_scope.md R11). -/
theorem bitStringOf_toList {bs : List Bool} (h : bs.length ≤ 255) : (bitStringOf bs).toList = bs := by
  induction bs using List.reverseRecOn with
  | nil => rfl
  | append_singleton bs b ih =>
    rw [List.length_append, List.length_singleton] at h
    have ih := ih (by omega)
    have hlen : (bitStringOf bs).len ≠ 255#8 := by
      intro e
      have := (bitStringOf bs).toList_length
      rw [ih, e] at this
      simp at this
      omega
    rw [bitStringOf, List.foldl_append, List.foldl_cons, List.foldl_nil, ← bitStringOf, BitString.snoc_toList _ _ hlen, ih]

/-! ### The number of rows -/

/-- A digit is one of the bytes 0x30 to 0x39. -/
theorem digit_toNat {c : Char} (hc : c.isDigit = true) :
    (BitVec.ofNat 8 c.toNat).toNat = c.toNat ∧ 0x30 ≤ c.toNat ∧ c.toNat ≤ 0x39 := by
  have hr : 0x30 ≤ c.toNat ∧ c.toNat ≤ 0x39 := Char.isDigit_iff_toNat.mp hc
  refine ⟨?_, hr⟩
  rw [BitVec.toNat_ofNat]
  omega

theorem decimalValue_digits {cs : List Char} (h : ∀ c ∈ cs, c.isDigit = true) (acc : Nat) :
    decimalValue acc (cs.map fun c => BitVec.ofNat 8 c.toNat) = some (Nat.ofDigitChars 10 cs acc) := by
  induction cs generalizing acc with
  | nil => rfl
  | cons c cs ih =>
    obtain ⟨hc, hcs⟩ := List.forall_mem_cons.mp h
    obtain ⟨hbyte, hr⟩ := digit_toNat hc
    rw [List.map_cons, decimalValue, hbyte, if_pos hr, ih hcs, Nat.ofDigitChars_cons, Nat.mul_comm]
    rfl

/-- A number written in decimal reads back (R101, R104). -/
theorem decimalValue_decimalBytes (n : Nat) : decimalValue 0 (decimalBytes n) = some n := by
  rw [decimalBytes, decimalValue_digits fun c => Nat.isDigit_of_mem_toDigits (by omega) (by omega),
    Nat.ofDigitChars_toDigits (by omega) (by omega)]

theorem decimalBytes_ne_nil (n : Nat) : decimalBytes n ≠ [] := fun h => Nat.toDigits_ne_nil (List.map_eq_nil_iff.mp h)

theorem lineByte_notMem_decimalBytes (n : Nat) : lineByte ∉ decimalBytes n := by
  intro h
  obtain ⟨c, hc, he⟩ := List.mem_map.mp h
  obtain ⟨hbyte, hr⟩ := digit_toNat (Nat.isDigit_of_mem_toDigits (by omega) (by omega) hc)
  rw [he] at hbyte
  have : lineByte.toNat = 10 := rfl
  omega

/-! ### Rows -/

/-- The LDROW of a row with the META word `m` (R104). -/
def loadRow (m : Word) (r : Symbol × Word × List Bool) : Instr :=
  .ldrow r.1 (bitStringOf r.2.2).len m (bitStringOf r.2.2).bits

/-- The line of a row (R102). -/
def rowText (fmt : Word → Nat → List TextByte) (total : Nat) (r : Symbol × Word × List Bool) : List TextByte :=
  [r.1, tabByte] ++ fmt r.2.1 total ++ [tabByte] ++ r.2.2.map bitByte ++ [lineByte]

theorem recordMetas_rows (rows : List (Symbol × Word × List Bool)) :
    recordMetas (commandWords (rows.map fun r => loadRow r.2.1 r)) = rows.map fun r => r.2.1 := by
  induction rows with
  | nil => rfl
  | cons r rows ih => exact congrArg (r.2.1 :: ·) ih

/-- The writer makes one line of each row (R102). -/
theorem rowsText_rows (fmt : Word → Nat → List TextByte) (total : Nat) {rows : List (Symbol × Word × List Bool)}
    (h : ∀ r ∈ rows, r.2.2.length ≤ 255) :
    rowsText fmt total (commandWords (rows.map fun r => loadRow r.2.1 r)) = rows.flatMap (rowText fmt total) := by
  induction rows with
  | nil => rfl
  | cons r rows ih =>
    obtain ⟨hr, hrows⟩ := List.forall_mem_cons.mp h
    have hw : commandWords ((r :: rows).map fun r => loadRow r.2.1 r) =
        headerR 0x41#8 (bitStringOf r.2.2).len r.1 :: r.2.1 :: (codeWords (bitStringOf r.2.2).bits ++
          commandWords (rows.map fun r => loadRow r.2.1 r)) := rfl
    rw [hw, codeWords_eq]
    simp only [List.cons_append, List.nil_append, rowsText, headerR_len, headerR_sym, codeOfWords_codeWord,
      bitStringOf_toList hr, ih hrows, List.flatMap_cons, rowText, List.append_assoc]

/-- The bytes before the first `stop` are read up to it. -/
theorem splitAtByte_append {stop : TextByte} {a : List TextByte} (h : stop ∉ a) (b : List TextByte) :
    splitAtByte stop (a ++ stop :: b) = some (a, b) := by
  induction a with
  | nil => rw [List.nil_append, splitAtByte, if_pos rfl]
  | cons c a ih =>
    obtain ⟨hc, ha⟩ := not_or.mp (mt List.mem_cons.mpr h)
    rw [List.cons_append, splitAtByte, if_neg (Ne.symm hc), ih ha]

section

variable {fmt : Word → Nat → List TextByte} (metaOf : List TextByte → Word)
  (hfmt : ∀ m total, tabByte ∉ fmt m total)

include hfmt in
/-- A line reads back as the LDROW of its row: the text of the probability ends at the next TAB, the codeword at the end of
the line (R104). -/
theorem readRow_rowText (total : Nat) {r : Symbol × Word × List Bool} (h : r.2.2.length ≤ 255) (rest : List TextByte) :
    readRow metaOf (rowText fmt total r ++ rest) = some (loadRow (metaOf (fmt r.2.1 total)) r, rest) := by
  simp only [rowText, List.append_assoc, List.cons_append, List.nil_append, readRow, if_true,
    splitAtByte_append (hfmt _ _), splitAtByte_append (lineByte_notMem_map_bitByte _), bytesBits_map_bitByte, h, loadRow]

include hfmt in
theorem readRows_rowText (total : Nat) {rows : List (Symbol × Word × List Bool)}
    (h : ∀ r ∈ rows, r.2.2.length ≤ 255) (rest : List TextByte) :
    readRows metaOf rows.length (rows.flatMap (rowText fmt total) ++ rest) =
      some (rows.map fun r => loadRow (metaOf (fmt r.2.1 total)) r, rest) := by
  induction rows with
  | nil => rfl
  | cons r rows ih =>
    obtain ⟨hr, hrows⟩ := List.forall_mem_cons.mp h
    rw [List.flatMap_cons, List.append_assoc, List.length_cons, readRows, readRow_rowText metaOf hfmt total hr]
    simp only [ih hrows, List.map_cons]

end

/-! ### The whole text -/

/-- The text of a record of rows and a payload, part by part (R100 to R103). -/
theorem renderText_record (fmt : Word → Nat → List TextByte) {rows : List (Symbol × Word × List Bool)}
    (hn : rows.length ≤ 256) (h : ∀ r ∈ rows, r.2.2.length ≤ 255) (payload : List Bool) :
    renderText fmt (commandWords (.ldsize (BitVec.ofNat 9 rows.length) :: rows.map fun r => loadRow r.2.1 r)) payload =
      decimalBytes rows.length ++ lineByte ::
        (rows.flatMap (rowText fmt (rows.map fun r => r.2.1.toNat).sum) ++ lineByte :: payload.map bitByte) := by
  have hlen : (BitVec.ofNat 9 rows.length).toNat = rows.length := by rw [BitVec.toNat_ofNat]; omega
  have hw : commandWords (.ldsize (BitVec.ofNat 9 rows.length) :: rows.map fun r => loadRow r.2.1 r) =
      headerI 0x40#8 (BitVec.ofNat 9 rows.length) :: commandWords (rows.map fun r => loadRow r.2.1 r) := rfl
  have htotal : ((rows.map fun r => r.2.1).map BitVec.toNat) = rows.map fun r => r.2.1.toNat := List.map_map ..
  simp only [hw, renderText, extractLsb'_headerI, hlen, recordMetas_rows, htotal, rowsText_rows _ _ h, List.append_assoc,
    List.cons_append, List.nil_append]

/-- What the reader answers where every part of the text is well formed (R104). -/
theorem readText_parts (metaOf : List TextByte → Word) {digits text payload : List TextByte} {n : Nat}
    {rows : List Instr} {bits : List Bool} (hline : lineByte ∉ digits) (hne : digits ≠ [])
    (hval : decimalValue 0 digits = some n)
    (hn : n ≤ 511) (hrows : readRows metaOf n text = some (rows, lineByte :: payload))
    (hbits : bytesBits payload = some bits) :
    readText metaOf (digits ++ lineByte :: text) =
      some ([.clear, .ldsize (BitVec.ofNat 9 n)] ++ rows ++ expandBits bits) := by
  obtain ⟨d, ds, rfl⟩ := List.exists_cons_of_ne_nil hne
  have hn' : ¬ 511 < n := by omega
  simp only [readText, splitAtByte_append hline, hval, hn', if_false, hrows, if_true, hbits]

/-- Settles O59: the text is written part by part and each part reads back. -/
theorem textLayoutReadsBack : Obligations.TextLayoutReadsBack := by
  intro fmt metaOf rows payload hfmt _ hn hlen total row record
  have hread := readText_parts metaOf (lineByte_notMem_decimalBytes _) (decimalBytes_ne_nil _)
    (decimalValue_decimalBytes _) (by omega) (readRows_rowText metaOf hfmt total hlen _) (bytesBits_map_bitByte payload)
  exact (congrArg (readText metaOf) (renderText_record fmt hn hlen payload)).trans hread

end Sys2Proof.Machine
end

section
/-! SUPPORT. The read-out commands and the counting commands: the fields of the records that RDNODE and RDCODE append,
what an accepted SYM leaves, and the errors of SYM and BUILD (40_frequency.md R110 to R115, 41_tree_build.md R134,
42_codebook.md R145). -/

namespace Sys2Proof.Machine

/-! ### The records of a node and of a codeword -/

theorem State.nodeWords_of_node {s : State} {n : Index} (h : s.treeValid = true ∧ n.toNat < s.nnode.toNat) :
    s.nodeWords n = nodeRecord (s.nodeAt n.toNat) := by
  simp [State.nodeWords, BitVec.lt_def, h]

theorem State.nodeWords_of_no_node {s : State} {n : Index} (h : ¬ (s.treeValid = true ∧ n.toNat < s.nnode.toNat)) :
    s.nodeWords n = [0#32, 0#32, 0#32] := by
  have hc : (s.treeValid && decide (n < s.nnode)) = false := by simpa [BitVec.lt_def] using h
  simp [State.nodeWords, hc]

/-- `getLsbD_place` in the form to which `simp` brings a bit of literal number. -/
@[simp] theorem getElem_place {n w : Nat} (v : BitVec n) (pos i : Nat) (hi : i < w) :
    (place w v pos)[i] = (decide (pos ≤ i) && v.getLsbD (i - pos)) := by
  simp [← BitVec.getLsbD_eq_getElem, hi]

/-- The first word of a node's record holds its four bits and its symbol, the third its children (R134). -/
theorem nodeRecord_fields (nd : Node) :
    ∃ w0 w2, nodeRecord nd = [w0, nd.w, w2] ∧
      (w0.getLsbD 31 = true ∧ w0.getLsbD 30 = nd.leaf ∧ w0.getLsbD 29 = nd.lbit ∧ w0.getLsbD 28 = nd.rbit ∧
        w0.extractLsb' 8 20 = 0#20 ∧ w0.extractLsb' 0 8 = nd.sym) ∧
      (w2.extractLsb' 25 7 = 0#7 ∧ w2.extractLsb' 16 9 = nd.right ∧ w2.extractLsb' 9 7 = 0#7 ∧
        w2.extractLsb' 0 9 = nd.left) := by
  refine ⟨_, _, rfl, ?_, ?_⟩
  · simp [extractLsb'_or, extractLsb'_place, extractLsb'_place_disjoint]
  · simp [extractLsb'_or, extractLsb'_place, extractLsb'_place_disjoint]

theorem State.codeRecord_of_valid {s : State} {x : Symbol} (h : (s.cbAt x).valid = true) :
    s.codeRecord x =
      (place 32 1#1 31 ||| place 32 (s.cbAt x).word.len 16 ||| place 32 x 0) :: codeWords (s.cbAt x).word.bits :=
  if_pos h

theorem State.codeRecord_of_invalid {s : State} {x : Symbol} (h : (s.cbAt x).valid = false) :
    s.codeRecord x = place 32 x 0 :: List.replicate 8 0#32 :=
  if_neg (by simp [h])

theorem codeWords_getElem? (bits : CodeBits) {k : Nat} (hk : k < 8) :
    (codeWords bits)[k]? = some (bits.extractLsb' (32 * k) 32) := by
  simp [codeWords, codeWord, hk]

/-- The first word of a codeword's record holds V, LEN and the symbol, the other eight BITS (R145). -/
theorem State.codeRecord_fields (s : State) (x : Symbol) :
    ∃ w0 ws, s.codeRecord x = w0 :: ws ∧ ws.length = 8 ∧
      (w0.getLsbD 31 = (s.cbAt x).valid ∧ w0.extractLsb' 24 7 = 0#7 ∧ w0.extractLsb' 8 8 = 0#8 ∧
        w0.extractLsb' 0 8 = x) ∧
      ((s.cbAt x).valid = true → w0.extractLsb' 16 8 = (s.cbAt x).word.len ∧
        ∀ k : Nat, k < 8 → ws[k]? = some ((s.cbAt x).word.bits.extractLsb' (32 * k) 32)) ∧
      ((s.cbAt x).valid = false → w0.extractLsb' 16 8 = 0#8 ∧ ws = List.replicate 8 0#32) := by
  cases hv : (s.cbAt x).valid with
  | true =>
    refine ⟨_, _, State.codeRecord_of_valid hv, by simp [codeWords], ⟨?_, ?_⟩, fun _ => ⟨?_, ?_⟩, nofun⟩
    · simp
    · simp [extractLsb'_or, extractLsb'_place, extractLsb'_place_disjoint]
    · simp [extractLsb'_or, extractLsb'_place, extractLsb'_place_disjoint]
    · exact fun k hk => codeWords_getElem? _ hk
  | false =>
    refine ⟨_, _, State.codeRecord_of_invalid hv, List.length_replicate, ⟨?_, ?_⟩, nofun, fun _ => ⟨?_, rfl⟩⟩
    · simp
    · simp [extractLsb'_place, extractLsb'_place_disjoint]
    · exact extractLsb'_place_disjoint 32 x 0 16 8 (by omega)

/-- Settles O23: each command appends its record to RSP and nothing else; the fields of the records are read back. -/
theorem readOutCommandsAppendTheirRecords : Obligations.ReadOutCommandsAppendTheirRecords := by
  intro s
  refine ⟨fun x => ⟨_, exec_rdcnt_eq x s, emitRsp_onlyAppends s _⟩, fun n => ?_, fun x => ?_⟩
  · by_cases h : s.treeValid = true ∧ n.toNat < s.nnode.toNat
    · obtain ⟨w0, w2, hrec, hw0, hw2⟩ := nodeRecord_fields (s.nodeAt n.toNat)
      refine ⟨w0, _, w2, _, exec_rdnode_eq n s, ?_, fun _ => ⟨hw0, rfl, hw2⟩, fun hn => absurd h hn⟩
      rw [State.nodeWords_of_node h, hrec]
      exact emitRsp_onlyAppends s _
    · refine ⟨_, _, _, _, exec_rdnode_eq n s, ?_, fun hn => absurd hn h, fun _ => ⟨rfl, rfl, rfl⟩⟩
      rw [State.nodeWords_of_no_node h]
      exact emitRsp_onlyAppends s _
  · obtain ⟨w0, ws, hrec, hfields⟩ := s.codeRecord_fields x
    exact ⟨w0, ws, _, exec_rdcode_eq x s, hrec ▸ emitRsp_onlyAppends s _, hfields⟩

/-! ### Counting (40_frequency.md R110, R113) -/

section
variable {s : State} {x : Symbol}

theorem legality_sym_ok (x : Symbol) (hp : s.phase = .idle ∨ s.phase = .count) : legality (.sym x) s.phase = .ok := by
  rcases hp with hp | hp <;> simp [legality, legalityRow, hp]

theorem exec_sym_of_count (hp : s.phase = .idle ∨ s.phase = .count) (hm : s.total ≠ Config.cntMax)
    (hn : s.cntAt x = 0#32 → s.nseen.toNat < 256) : exec (.sym x) s = .next (s.countSymbol x) := by
  rw [exec, execSym, gate_ok (legality_sym_ok x hp), if_neg hm, if_neg]
  exact fun ⟨h0, hle⟩ => Nat.not_le.mpr (hn h0) hle

theorem exec_sym_of_full (hp : s.phase = .idle ∨ s.phase = .count) (hm : s.total = Config.cntMax) :
    exec (.sym x) s = .next (s.raise .cntovf (x.setWidth 16)) := by
  rw [exec, execSym, gate_ok (legality_sym_ok x hp), if_pos hm]

/-- A first occurrence fills the next entry of FSEEN. -/
theorem State.countSymbol_of_first (h0 : s.cntAt x = 0#32) (hn : s.nseen.toNat < 256) :
    (s.countSymbol x).nseen.toNat = s.nseen.toNat + 1 ∧
      ∀ j, (s.countSymbol x).fseenAt j = if j = s.nseen.toNat then x else s.fseenAt j := by
  constructor
  · simp only [State.countSymbol_nseen, h0, if_true, BitVec.toNat_add, BitVec.toNat_ofNat]
    omega
  · simp [State.countSymbol_fseenAt, h0, eq_comm]

/-- A later occurrence leaves FSEEN alone. -/
theorem State.countSymbol_of_later (h0 : s.cntAt x ≠ 0#32) :
    (s.countSymbol x).nseen = s.nseen ∧ ∀ j, (s.countSymbol x).fseenAt j = s.fseenAt j := by
  simp [State.countSymbol_nseen, State.countSymbol_fseenAt, h0]

/-- Counting writes neither the tree nor the book, nor a stream, nor the assembler. -/
theorem State.countSymbol_frame (s : State) (x : Symbol) :
    s.SameStrings (s.countSymbol x) ∧ s.SameTree (s.countSymbol x) ∧ s.SameBook (s.countSymbol x) ∧
      s.SameStreams (s.countSymbol x) ∧ s.SameAssembler (s.countSymbol x) :=
  ⟨⟨rfl, rfl⟩, ⟨fun _ => rfl, fun _ => rfl⟩, ⟨fun _ => rfl, fun _ => rfl⟩, ⟨rfl, rfl, rfl⟩, fun _ => rfl, rfl, rfl⟩

end

/-- Settles O24: a first occurrence and a later one differ in what they do to FSEEN. -/
theorem symCountsOneOccurrence : Obligations.SymCountsOneOccurrence := by
  intro s x hp hm hn
  have hcnt (y : Symbol) : (s.countSymbol x).cntAt y = if y = x then s.cntAt x + 1#32 else s.cntAt y :=
    (s.countSymbol_cntAt x y).trans (if_congr eq_comm rfl rfl)
  exact ⟨_, exec_sym_of_count hp hm hn, rfl, toNat_add_one_of_ne_cntMax hm, hcnt,
    fun h0 => State.countSymbol_of_first h0 (hn h0), State.countSymbol_of_later, ⟨rfl, rfl, rfl, rfl, rfl⟩,
    ⟨rfl, rfl, rfl, rfl, rfl⟩, s.countSymbol_frame x⟩

/-- Settles O25: the check on TOTAL raises the error before anything is counted. -/
theorem symAtTheLimitCountsNothing : Obligations.SymAtTheLimitCountsNothing :=
  fun s _ hp hm => ⟨_, exec_sym_of_full hp hm, raise_errorEntered s _ _⟩

/-! ### BUILD over fewer than two symbols (40_frequency.md R115, 41_tree_build.md R121) -/

theorem exec_build_of_idle {s : State} (hp : s.phase = .idle) : exec .build s = .next (s.raise .empty 0#16) := by
  have hl : legality .build s.phase = .error .empty := by rw [hp]; rfl
  rw [exec, execBuild]
  exact gate_error hl

theorem exec_build_of_single {s : State} (hp : s.phase = .count) (h1 : s.nseen = 1#9) :
    exec .build s = .next (s.raise .single ((s.fseenAt 0).setWidth 16)) := by
  have hl : legality .build s.phase = .ok := by rw [hp]; rfl
  rw [exec, execBuild, gate_ok hl, if_pos h1]

/-- Settles O26: in IDLE the legality matrix gives the error, in COUNT the check on NSEEN does. -/
theorem buildRejectsFewerThanTwoSymbols : Obligations.BuildRejectsFewerThanTwoSymbols :=
  fun s => ⟨fun hp => ⟨_, exec_build_of_idle hp, raise_errorEntered s _ _⟩,
    fun hp h1 => ⟨_, exec_build_of_single hp h1, raise_errorEntered s _ _⟩⟩

end Sys2Proof.Machine
end

section
/-! SUPPORT. One merge step on a sorted list of roots: the new node, its place in the list, and that the list stays sorted
(41_tree_build.md R125 to R129). -/

namespace Sys2Proof.Machine

variable {s : State}

/-! ### The place of the new node (41_tree_build.md R129) -/

/-- What holds along a sorted list, of the elements not lighter than the new one before it and of the new one before
the lighter ones, holds along the list with the new one in its place. -/
theorem insertTop_pairwise {weight : Index → Word} {w : Word} {n : Index} {ts : List Index} {R : Index → Index → Prop}
    (hsorted : ts.Pairwise fun a b => weight b ≤ weight a) (hR : ts.Pairwise R)
    (hbefore : ∀ t ∈ ts, ¬ weight t < w → R t n) (hafter : ∀ t ∈ ts, weight t < w → R n t) :
    (insertTop weight w n ts).Pairwise R := by
  induction ts with
  | nil => exact List.pairwise_singleton _ _
  | cons t ts ih =>
    obtain ⟨hle, hsorted'⟩ := List.pairwise_cons.mp hsorted
    obtain ⟨hRt, hR'⟩ := List.pairwise_cons.mp hR
    rw [insertTop]
    split
    · rename_i hlt
      refine List.pairwise_cons.mpr ⟨fun x hx => hafter x hx ?_, hR⟩
      rcases List.mem_cons.mp hx with rfl | hx
      · exact hlt
      · exact Nat.lt_of_le_of_lt (hle x hx) hlt
    · rename_i hge
      refine List.pairwise_cons.mpr ⟨fun x hx => ?_, ih hsorted' hR'
        (fun x hx => hbefore x (List.mem_cons_of_mem _ hx)) fun x hx => hafter x (List.mem_cons_of_mem _ hx)⟩
      rcases List.mem_cons.mp ((insertTop_perm weight w n ts).mem_iff.mp hx) with rfl | hx
      · exact hbefore t List.mem_cons_self hge
      · exact hRt x hx

/-! ### One step on a sorted list -/

/-- W of node `n`, as a number that does not wrap when it is added. -/
def State.weightOf (s : State) (n : Index) : Nat := (s.nodeAt n.toNat).w.toNat

/-- The node that becomes the left child (41_tree_build.md R126). -/
abbrev State.mergeLeft (s : State) : Index := s.topsAt (s.ntop.toNat - 2)

/-- The node that becomes the right child (41_tree_build.md R126). -/
abbrev State.mergeRight (s : State) : Index := s.topsAt (s.ntop.toNat - 1)

/-- TOPS is sorted by descending weight (41_tree_build.md R125). -/
def State.TopsSorted (s : State) : Prop :=
  (s.topsList s.ntop.toNat).Pairwise fun a b => s.weightOf b ≤ s.weightOf a

/-- What a merge step needs: two roots or more, all of them nodes, in descending order, room for one more node,
and a sum that does not wrap. -/
structure State.CanMerge (s : State) : Prop where
  two : 1 < s.ntop.toNat
  room : s.nnode.toNat < 511
  below : ∀ t ∈ s.topsList s.ntop.toNat, t.toNat < s.nnode.toNat
  sorted : s.TopsSorted
  fits : s.weightOf s.mergeLeft + s.weightOf s.mergeRight < 2 ^ 32

theorem State.mergeStep_nnode_toNat (h : s.nnode.toNat < 511) : s.mergeStep.nnode.toNat = s.nnode.toNat + 1 := by
  simp only [State.mergeStep_nnode, BitVec.toNat_add, BitVec.toNat_ofNat]
  omega

/-- A merge step leaves every older node as it was. -/
theorem State.mergeStep_nodeAt_of_ne {n : Nat} (h : n ≠ s.nnode.toNat) : s.mergeStep.nodeAt n = s.nodeAt n :=
  (s.mergeStep_nodeAt n).trans (if_neg h.symm)

theorem State.mergeStep_weightOf {t : Index} (h : t.toNat < s.nnode.toNat) : s.mergeStep.weightOf t = s.weightOf t := by
  rw [State.weightOf, State.mergeStep_nodeAt_of_ne h.ne, State.weightOf]

namespace State.CanMerge

/-- The roots that stay are nodes in descending order, and so are the two that go. -/
theorem rest (h : s.CanMerge) :
    (∀ t ∈ s.topsList (s.ntop.toNat - 2), t.toNat < s.nnode.toNat) ∧
      (s.topsList (s.ntop.toNat - 2)).Pairwise (fun a b => s.weightOf b ≤ s.weightOf a) ∧
      s.weightOf s.mergeRight ≤ s.weightOf s.mergeLeft := by
  have hbelow := h.below
  have hsorted := h.sorted
  rw [State.TopsSorted] at hsorted
  rw [s.topsList_eq_append h.two] at hbelow hsorted
  obtain ⟨hrest, hpair, -⟩ := List.pairwise_append.mp hsorted
  exact ⟨fun t ht => hbelow t (List.mem_append_left _ ht), hrest, List.rel_of_pairwise_cons hpair (by simp)⟩

/-- The new node: the smaller weight, or the right child on equal weights, gets bit 1, which on a sorted list is always the
right child (41_tree_build.md R127, R128). -/
theorem newNode (h : s.CanMerge) :
    s.mergeStep.nodeAt s.nnode.toNat =
      ⟨false, 0#8, (s.nodeAt s.mergeLeft.toNat).w + (s.nodeAt s.mergeRight.toNat).w, s.mergeLeft, s.mergeRight, false,
        true⟩ := by
  have hle : ¬ (s.nodeAt s.mergeLeft.toNat).w < (s.nodeAt s.mergeRight.toNat).w := Nat.not_lt.mpr h.rest.2.2
  rw [State.mergeStep_nodeAt, if_pos rfl, mergedNode, decide_eq_false hle, Bool.not_false]

/-- W of the new node is the sum of its children's. -/
theorem newWeight (h : s.CanMerge) :
    s.mergeStep.weightOf s.nnode = s.weightOf s.mergeLeft + s.weightOf s.mergeRight := by
  rw [State.weightOf, h.newNode]
  exact BitVec.toNat_add_of_lt h.fits

/-- The list after the step is the one without its last two elements, with the new node in its place. -/
theorem topsList_eq (h : s.CanMerge) :
    s.mergeStep.topsList s.mergeStep.ntop.toNat =
      insertTop (fun t => (s.nodeAt t.toNat).w) (s.mergeStep.nodeAt s.nnode.toNat).w s.nnode
        (s.topsList (s.ntop.toNat - 2)) := by
  have hlist := State.topsList_writeList (s := s.mergeStep) (tops := s.tops) rfl
  have htwo := h.two
  rw [insertTop_length, State.topsList_length] at hlist
  rw [State.mergeStep_ntop_toNat (by omega), show s.ntop.toNat - 1 = s.ntop.toNat - 2 + 1 by omega, hlist,
    State.mergeStep_nodeAt, if_pos rfl]

theorem topsList_perm (h : s.CanMerge) :
    (s.mergeStep.topsList s.mergeStep.ntop.toNat).Perm (s.nnode :: s.topsList (s.ntop.toNat - 2)) := by
  rw [h.topsList_eq]
  exact insertTop_perm _ _ _ _

/-- After the step the list is sorted, and what follows the new node is lighter (41_tree_build.md R129). -/
theorem topsList_pairwise (h : s.CanMerge) :
    (s.mergeStep.topsList s.mergeStep.ntop.toNat).Pairwise fun a b =>
      s.mergeStep.weightOf b ≤ s.mergeStep.weightOf a ∧
        (a = s.nnode → s.mergeStep.weightOf b < s.mergeStep.weightOf s.nnode) := by
  obtain ⟨hbelow, hsorted, -⟩ := h.rest
  have hold : ∀ t ∈ s.topsList (s.ntop.toNat - 2), s.mergeStep.weightOf t = s.weightOf t ∧ t ≠ s.nnode := fun t ht =>
    ⟨State.mergeStep_weightOf (hbelow t ht), fun e => (hbelow t ht).ne (congrArg _ e)⟩
  rw [h.topsList_eq]
  refine insertTop_pairwise hsorted (hsorted.imp_of_mem fun {a b} ha hb hab => ?_) (fun t ht hge => ?_) fun t ht hlt => ?_
  · rw [(hold a ha).1, (hold b hb).1]
    exact ⟨hab, fun e => absurd e (hold a ha).2⟩
  · rw [(hold t ht).1]
    exact ⟨Nat.not_lt.mp hge, fun e => absurd e (hold t ht).2⟩
  · rw [(hold t ht).1]
    exact ⟨Nat.le_of_lt hlt, fun _ => hlt⟩

/-- A merge step keeps TOPS sorted. -/
theorem mergeStep_topsSorted (h : s.CanMerge) : s.mergeStep.TopsSorted :=
  h.topsList_pairwise.imp And.left

end State.CanMerge

/-- Settles O29: the new node is written where nothing stood, and inserting it before the first lighter element keeps the
order. -/
theorem mergeStepKeepsTheListSorted : Obligations.MergeStepKeepsTheListSorted := by
  intro s h2 _ hroom w old hbelow hsorted hfits u l r new
  have hlr : [l, r].Sublist old := by
    simp only [old, s.topsList_eq_append h2]
    exact List.sublist_append_right _ _
  have h : s.CanMerge := ⟨h2, hroom, hbelow, hsorted, hfits l r hlr⟩
  have hntop : u.ntop.toNat = s.ntop.toNat - 1 := State.mergeStep_ntop_toNat (by omega)
  have hnode : u.nodeAt s.nnode.toNat = _ := h.newNode
  refine ⟨⟨by omega, State.mergeStep_nnode_toNat hroom⟩, ?_, fun n hn => State.mergeStep_nodeAt_of_ne hn,
    h.mergeStep_topsSorted, h.topsList_perm, fun j hj hnew j' hjj' hj' => ?_⟩
  · rw [hnode]
    exact ⟨rfl, rfl, h.newWeight, rfl, rfl, rfl, rfl⟩
  · have hlen : (u.topsList u.ntop.toNat).length = u.ntop.toNat := State.topsList_length _ _
    have hpair := List.pairwise_iff_getElem.mp h.topsList_pairwise j j' (hlen.symm ▸ hj) (hlen.symm ▸ hj') hjj'
    simp only [State.topsList, List.getElem_map, List.getElem_range] at hpair
    exact hpair.2 hnew

end Sys2Proof.Machine
end

section
/-! SUPPORT. What BUILD leaves: the sorted table, the registers, and the entries it does not use (41_tree_build.md R120 to
R130). -/

namespace Sys2Proof.Machine

variable {s : State} {k : Nat}

/-! ### The sorted table (41_tree_build.md R122) -/

/-- The sort writes no row at or above K. -/
theorem State.sortTable_tblAt_of_le {i : Nat} (h : k ≤ i) : (s.sortTable k).tblAt i = s.tblAt i :=
  Table.read_foldl_write_of_ne _ fun _ hj => (lt_of_lt_of_le (State.rank_lt (List.mem_range.mp hj)) h).ne

/-- Every row number is the rank of a symbol seen. -/
theorem State.exists_rank_eq (s : State) {i : Nat} (h : i < k) : ∃ j < k, s.rank k j = i := by
  obtain ⟨j, hj, hij⟩ := List.mem_map.mp ((s.map_rank_perm k).mem_iff.mpr (List.mem_range.mpr h))
  exact ⟨j, List.mem_range.mp hj, hij⟩

/-- META does not rise from row to row: the symbol of a greater count has the smaller rank. -/
theorem State.sortTable_descends {i i' : Nat} (h : i < i') (hi' : i' < k) :
    ((s.sortTable k).tblAt i').metaWord.toNat ≤ ((s.sortTable k).tblAt i).metaWord.toNat := by
  obtain ⟨j, hj, rfl⟩ := s.exists_rank_eq (h.trans hi')
  obtain ⟨j', hj', rfl⟩ := s.exists_rank_eq hi'
  rw [State.sortTable_tblAt_rank hj, State.sortTable_tblAt_rank hj']
  by_contra hlt
  exact absurd (State.rank_lt_rank hj' ((s.outranks_iff j' j).mpr (.inl (Nat.not_le.mp hlt)))) h.le.not_gt

/-- The rank, with the counts as numbers. -/
theorem State.rank_eq_length (s : State) (k j : Nat) :
    s.rank k j = ((List.range k).filter fun j' =>
      decide ((s.cntAt (s.fseenAt j)).toNat < (s.cntAt (s.fseenAt j')).toNat) ||
        (decide ((s.cntAt (s.fseenAt j')).toNat = (s.cntAt (s.fseenAt j)).toNat) && decide (j' < j))).length := by
  rw [State.rank, List.countP_eq_length_filter]
  refine congrArg _ (List.filter_congr fun j' _ => Bool.eq_iff_iff.mpr ?_)
  simp [State.outranks_iff]

/-! ### The steps of BUILD (41_tree_build.md R120) -/

theorem exec_build_of_count (hp : s.phase = .count) (h2 : 2 ≤ s.nseen.toNat) (hn : s.nseen.toNat ≤ 256) :
    exec .build s = .next (s.buildAll s.nseen.toNat) := by
  have hl : legality .build s.phase = .ok := by rw [hp]; rfl
  have h1 : s.nseen ≠ 1#9 := fun e => by simp [e] at h2
  rw [exec, execBuild, gate_ok hl, if_neg h1, if_pos ⟨h2, hn⟩]

/-- The state after the last merge step over `k` rows. -/
def State.merged (k : Nat) (s : State) : State := ((s.sortTable k).seedTree k).mergeLoop 255

/-- After the last merge step ROOT is read from TOPS, and NODE, TOPS, NNODE and NTOP stay (42_codebook.md R140,
41_tree_build.md R130). -/
theorem State.buildAll_tree (k : Nat) (s : State) :
    (s.buildAll k).nodeAt = (s.merged k).nodeAt ∧ (s.buildAll k).topsAt = (s.merged k).topsAt ∧
      (s.buildAll k).nnode = (s.merged k).nnode ∧ (s.buildAll k).ntop = (s.merged k).ntop ∧
      (s.buildAll k).root = (s.merged k).topsAt 0 :=
  ⟨rfl, rfl, rfl, rfl, rfl⟩

/-- Nothing after the sort writes TBL, TSIZE and NROW (41_tree_build.md R123). -/
theorem State.buildAll_table (k : Nat) (s : State) :
    (∀ i, (s.buildAll k).tblAt i = (s.sortTable k).tblAt i) ∧ (s.buildAll k).tsize = BitVec.ofNat 9 k ∧
      (s.buildAll k).nrow = BitVec.ofNat 9 k := by
  obtain ⟨_, _, _, _, _, _, _, hb⟩ := s.buildAll_frame k
  rw [hb]
  exact ⟨fun _ => rfl, rfl, rfl⟩

/-- BUILD makes as many rows as symbols were seen. -/
theorem State.buildAll_sizes (hn : s.nseen.toNat ≤ 256) :
    (s.buildAll s.nseen.toNat).tsize = s.nseen ∧ (s.buildAll s.nseen.toNat).nrow = s.nseen := by
  obtain ⟨-, htsize, hnrow⟩ := s.buildAll_table s.nseen.toNat
  have hk : BitVec.ofNat 9 s.nseen.toNat = s.nseen := BitVec.eq_of_toNat_eq (toNat_ofNat9 hn)
  exact ⟨htsize.trans hk, hnrow.trans hk⟩

/-- Settles O28: the row of a symbol is its rank, and the ranks are the row numbers, each once. -/
theorem buildSortsTheTable : Obligations.BuildSortsTheTable := by
  intro s t hp h2 hn hexec k count rank
  obtain rfl : s.buildAll k = t := Host.Outcome.next.inj ((exec_build_of_count hp h2 hn).symm.trans hexec)
  have hrank : ∀ j, rank j = s.rank k j := fun j => (s.rank_eq_length k j).symm
  obtain ⟨htbl, -, -⟩ := s.buildAll_table k
  simp only [hrank, htbl]
  refine ⟨fun j hj => ⟨State.rank_lt hj, State.sortTable_tblAt_rank hj⟩, State.buildAll_sizes hn,
    fun j j' hj hj' h => State.rank_inj hj hj' h, fun i hi => State.sortTable_descends i.lt_succ_self hi,
    fun j j' hjj' hj' hcount => ?_⟩
  exact State.rank_lt_rank (hjj'.trans hj') ((s.outranks_iff j j').mpr (.inr ⟨hcount, hjj'⟩))

/-! ### What the merge loop keeps -/

/-- What every merge step keeps, the merge loop keeps. -/
theorem State.mergeLoop_induction {P : State → Prop} (hstep : ∀ u : State, 1 < u.ntop.toNat → P u → P u.mergeStep)
    (fuel : Nat) (h : P s) : P (s.mergeLoop fuel) := by
  induction fuel generalizing s with
  | zero => exact h
  | succ fuel ih =>
    rw [State.mergeLoop]
    split
    · rename_i h2
      exact ih (hstep s h2 h)
    · exact h

/-- `u` has the leaves of `s`, and the entries of NODE from 2K − 1 on and of TOPS from K on. -/
structure State.SameOutside (k : Nat) (s u : State) : Prop where
  node : ∀ n, n < k ∨ 2 * k - 1 ≤ n → u.nodeAt n = s.nodeAt n
  tops : ∀ j, k ≤ j → u.topsAt j = s.topsAt j

/-- A merge step writes TOPS below NTOP only. -/
theorem State.mergeStep_topsAt_of_le {j : Nat} (h2 : 1 < s.ntop.toNat) (h : s.ntop.toNat ≤ j) :
    s.mergeStep.topsAt j = s.topsAt j := by
  refine (Table.read_writeList _ _ _ _ _).trans ?_
  rw [if_pos (Nat.zero_le _), List.getElem?_eq_none]
  · rfl
  · rw [insertTop_length, State.topsList_length]
    omega

/-- A merge step over K rows writes an internal node and entries of TOPS below K. -/
theorem State.Forest.mergeStep_sameOutside {rows : List Row} (h : s.Forest rows) (h2 : 1 < s.ntop.toNat) :
    s.SameOutside rows.length s.mergeStep := by
  obtain ⟨-, htop⟩ := h.top
  have hcount := h.count
  exact ⟨fun n hn => State.mergeStep_nodeAt_of_ne (by omega),
    fun j hj => State.mergeStep_topsAt_of_le h2 (htop.trans hj)⟩

/-- The rows that BUILD makes the leaves of, in table order. -/
def State.sortedRows (k : Nat) (s : State) : List Row := (List.range k).map (s.sortTable k).tblAt

@[simp] theorem State.sortedRows_length (k : Nat) (s : State) : (s.sortedRows k).length = k := by
  simp [State.sortedRows]

theorem State.sortTable_seedTree_forest (h1 : 1 ≤ k) (hk : k ≤ 256) :
    ((s.sortTable k).seedTree k).Forest (s.sortedRows k) :=
  State.seedTree_forest h1 hk

theorem State.merged_forest (h1 : 1 ≤ k) (hk : k ≤ 256) :
    (s.merged k).Forest (s.sortedRows k) ∧ (s.merged k).ntop.toNat = 1 :=
  (State.sortTable_seedTree_forest h1 hk).mergeLoop (by rw [State.seedTree_ntop, toNat_ofNat9 hk]; exact hk)

/-- The counters after the last merge step: one root, the newest of 2K − 1 nodes (41_tree_build.md R130). -/
theorem State.merged_counters (h1 : 1 ≤ k) (hk : k ≤ 256) :
    (s.merged k).nnode.toNat = 2 * k - 1 ∧ (s.merged k).ntop = 1#9 ∧ ((s.merged k).topsAt 0).toNat = 2 * k - 2 := by
  obtain ⟨hforest, hone⟩ := s.merged_forest h1 hk
  obtain ⟨hroot, -⟩ := hforest.one_root hone
  have hcount := hforest.count
  rw [State.sortedRows_length] at hcount
  exact ⟨by omega, BitVec.eq_of_toNat_eq hone, by omega⟩

/-- The merge leaves the leaves, and the entries that no tree over K rows uses. -/
theorem State.merged_sameOutside (h1 : 1 ≤ k) (hk : k ≤ 256) :
    ((s.sortTable k).seedTree k).SameOutside k (s.merged k) := by
  refine And.right (State.mergeLoop_induction
    (P := fun u => u.Forest (s.sortedRows k) ∧ ((s.sortTable k).seedTree k).SameOutside k u) ?_ 255
    ⟨State.sortTable_seedTree_forest h1 hk, fun _ _ => rfl, fun _ _ => rfl⟩)
  rintro u h2 ⟨hforest, hsame⟩
  have hstep := hforest.mergeStep_sameOutside h2
  rw [State.sortedRows_length] at hstep
  exact ⟨hforest.mergeStep h2, fun n hn => (hstep.node n hn).trans (hsame.node n hn),
    fun j hj => (hstep.tops j hj).trans (hsame.tops j hj)⟩

/-- Nodes 0 to K − 1 are the leaves of the rows (41_tree_build.md R124). -/
theorem State.merged_leaf (h1 : 1 ≤ k) (hk : k ≤ 256) {n : Nat} (hn : n < k) :
    (s.merged k).nodeAt n = leafOf ((s.sortTable k).tblAt n) := by
  rw [(s.merged_sameOutside h1 hk).node n (.inl hn), State.seedTree_nodeAt, if_pos hn]

theorem State.merged_nodeAt_of_le (h1 : 1 ≤ k) (hk : k ≤ 256) {n : Nat} (hn : 2 * k - 1 ≤ n) :
    (s.merged k).nodeAt n = s.nodeAt n := by
  rw [(s.merged_sameOutside h1 hk).node n (.inr hn), State.seedTree_nodeAt, if_neg (by omega)]
  rfl

theorem State.merged_topsAt_of_le (h1 : 1 ≤ k) (hk : k ≤ 256) {j : Nat} (hj : k ≤ j) :
    (s.merged k).topsAt j = s.topsAt j := by
  rw [(s.merged_sameOutside h1 hk).tops j hj, State.seedTree_topsAt, if_neg (by omega)]
  rfl

/-! ### BUILD completes (41_tree_build.md R120) -/

/-- The walk leaves ACC empty, whatever the symbols of the leaves (42_codebook.md R141). -/
theorem State.walk_acc_of_tree {T : CodeTree} (hT : T.At s.node s.root) (hh : T.height ≤ 255) :
    s.walk.acc = BitString.empty := by
  have hfits : T.Fits BitString.empty := ⟨BitString.empty_stored, by simpa [BitString.empty] using hh⟩
  simp only [State.walk, hT.visit_eq (fuel := Config.nodeN) (by simp only [Config.nodeN]; omega) hfits]

theorem State.buildAll_acc (h1 : 1 ≤ k) (hk : k ≤ 256) : (s.buildAll k).acc = BitString.empty := by
  obtain ⟨hforest, hone⟩ := s.merged_forest h1 hk
  obtain ⟨-, T, hT, hrows⟩ := hforest.one_root hone
  have hheight := T.height_lt_length_rows
  rw [hrows.length_eq, State.sortedRows_length] at hheight
  exact State.walk_acc_of_tree (s := (s.merged k).finishTree) hT (by omega)

/-- BUILD sets the phase and the two flags, and leaves the other registers, the counts, the streams and the assembler. -/
theorem State.buildAll_flags_and_frame (k : Nat) (s : State) :
    ((s.buildAll k).phase = .ready ∧ (s.buildAll k).cbValid = true ∧ (s.buildAll k).treeValid = true ∧
      (s.buildAll k).src = s.src ∧ (s.buildAll k).pstate = s.pstate ∧ (s.buildAll k).err = s.err) ∧
    ((s.buildAll k).total = s.total ∧ (s.buildAll k).nseen = s.nseen) ∧ (s.buildAll k).buf = BitString.empty ∧
    s.SameCounts (s.buildAll k) ∧ s.SameStreams (s.buildAll k) ∧ s.SameAssembler (s.buildAll k) := by
  obtain ⟨_, _, _, _, _, _, _, hb⟩ := s.buildAll_frame k
  rw [hb]
  exact ⟨⟨rfl, rfl, rfl, rfl, rfl, rfl⟩, ⟨rfl, rfl⟩, rfl, ⟨fun _ => rfl, fun _ => rfl⟩, ⟨rfl, rfl, rfl⟩,
    fun _ => rfl, rfl, rfl⟩

/-- Settles O27: the merge ends with one root over the rows, and each of BUILD's parts leaves what is not its own. -/
theorem buildCompletes : Obligations.BuildCompletes := by
  intro s hp h2 hn
  have h1 : 1 ≤ s.nseen.toNat := by omega
  obtain ⟨hflags, hcounters, hbuf, hcounts, hstreams, hassembler⟩ := s.buildAll_flags_and_frame s.nseen.toNat
  obtain ⟨htbl, -, -⟩ := s.buildAll_table s.nseen.toNat
  obtain ⟨htsize, hnrow⟩ := State.buildAll_sizes hn
  obtain ⟨hnodes, htops, hnnode, hntop, hroot⟩ := s.buildAll_tree s.nseen.toNat
  obtain ⟨hcount, hone, hlast⟩ := s.merged_counters h1 hn
  refine ⟨_, exec_build_of_count hp h2 hn, hflags, ⟨htsize, hnrow, ?_⟩, hcounters, ⟨State.buildAll_acc h1 hn, hbuf⟩,
    hcounts, fun i hi => (htbl i).trans (State.sortTable_tblAt_of_le hi), fun n => ?_, fun j => ?_, hstreams, hassembler⟩
  · rw [hnnode, hntop, hroot, htops]
    exact ⟨hcount, hone, hlast, rfl⟩
  · rw [hnodes]
    exact State.merged_nodeAt_of_le h1 hn
  · rw [htops]
    exact State.merged_topsAt_of_le h1 hn

end Sys2Proof.Machine
end

section
/-! SUPPORT. BUILD makes one proper binary tree over the sorted table: the merge loop keeps a forest with sorted roots in
which every node is once a child or a root (41_tree_build.md R124 to R132). -/

namespace Sys2Proof.Machine

variable {s : State} {k : Nat}

/-! ### What a merge step keeps -/

/-- Node `n` is internal: bit 0 on its left edge and 1 on its right, children of smaller index, W the sum of theirs
(41_tree_build.md R127, R128). -/
structure State.Internal (s : State) (n : Nat) : Prop where
  kind : (s.nodeAt n).leaf = false ∧ (s.nodeAt n).sym = 0#8 ∧ (s.nodeAt n).lbit = false ∧ (s.nodeAt n).rbit = true
  below : (s.nodeAt n).left.toNat < n ∧ (s.nodeAt n).right.toNat < n
  weight : (s.nodeAt n).w.toNat = s.weightOf (s.nodeAt n).left + s.weightOf (s.nodeAt n).right

/-- The children of node `p`. -/
def State.childrenAt (s : State) (p : Nat) : List Nat := [(s.nodeAt p).left.toNat, (s.nodeAt p).right.toNat]

theorem State.mem_childrenAt {p c : Nat} :
    c ∈ s.childrenAt p ↔ (s.nodeAt p).left.toNat = c ∨ (s.nodeAt p).right.toNat = c := by
  simp [State.childrenAt, eq_comm]

theorem State.childrenAt_nodup {p : Nat} : (s.childrenAt p).Nodup ↔ (s.nodeAt p).left ≠ (s.nodeAt p).right := by
  simp [State.childrenAt, BitVec.toNat_inj]

/-- The children of the nodes from K up to NNODE. -/
def State.children (k : Nat) (s : State) : List Nat := (List.Ico k s.nnode.toNat).flatMap s.childrenAt

/-- What the merge loop keeps: the roots sorted, their weights adding without wrapping, every node from K on internal, and
every node made so far either the child of one of them or a root, once. -/
structure State.SortedForest (rows : List Row) (s : State) : Prop extends s.Forest rows where
  sorted : s.TopsSorted
  fits : ((s.topsList s.ntop.toNat).map s.weightOf).sum < 2 ^ 32
  internal : ∀ n, rows.length ≤ n → n < s.nnode.toNat → s.Internal n
  owned : (s.children rows.length ++ (s.topsList s.ntop.toNat).map BitVec.toNat).Perm (List.range s.nnode.toNat)

theorem State.topsList_eq_rest_append (h2 : 1 < s.ntop.toNat) :
    s.topsList s.ntop.toNat = s.topsList (s.ntop.toNat - 2) ++ [s.mergeLeft, s.mergeRight] :=
  s.topsList_eq_append h2

namespace State.SortedForest

variable {rows : List Row}

theorem below (h : s.SortedForest rows) : ∀ t ∈ s.topsList s.ntop.toNat, t.toNat < s.nnode.toNat := fun _ ht =>
  List.mem_range.mp (h.owned.mem_iff.mp (List.mem_append_right _ (List.mem_map_of_mem ht)))

theorem canMerge (h : s.SortedForest rows) (h2 : 1 < s.ntop.toNat) : s.CanMerge := by
  have hfew := h.few
  have hcount := h.count
  have hfits := h.fits
  rw [s.topsList_eq_rest_append h2] at hfits
  simp only [List.map_append, List.map_cons, List.map_nil, List.sum_append, List.sum_cons, List.sum_nil] at hfits
  exact ⟨h2, by omega, h.below, h.sorted, by omega⟩

theorem length_le_nnode (h : s.SortedForest rows) : rows.length ≤ s.nnode.toNat := by
  have htop := h.top
  have hcount := h.count
  omega

end State.SortedForest

/-- An internal node stays one when a node at or above it is written. -/
theorem State.Internal.mergeStep {n : Nat} (h : s.Internal n) (hn : n < s.nnode.toNat) : s.mergeStep.Internal n := by
  obtain ⟨hkind, ⟨hl, hr⟩, hw⟩ := h
  have hnode : s.mergeStep.nodeAt n = s.nodeAt n := State.mergeStep_nodeAt_of_ne hn.ne
  refine ⟨hnode ▸ hkind, hnode ▸ ⟨hl, hr⟩, ?_⟩
  rw [hnode, State.mergeStep_weightOf (hl.trans hn), State.mergeStep_weightOf (hr.trans hn)]
  exact hw

namespace State.CanMerge

theorem children_below (h : s.CanMerge) :
    s.mergeLeft.toNat < s.nnode.toNat ∧ s.mergeRight.toNat < s.nnode.toNat := by
  have hbelow := h.below
  rw [s.topsList_eq_rest_append h.two] at hbelow
  exact ⟨hbelow _ (by simp), hbelow _ (by simp)⟩

/-- The new node is internal. -/
theorem internal (h : s.CanMerge) : s.mergeStep.Internal s.nnode.toNat := by
  obtain ⟨hl, hr⟩ := h.children_below
  refine ⟨?_, ?_, h.newWeight.trans ?_⟩
  · rw [h.newNode]
    exact ⟨rfl, rfl, rfl, rfl⟩
  · rw [h.newNode]
    exact ⟨hl, hr⟩
  · rw [h.newNode, State.mergeStep_weightOf hl, State.mergeStep_weightOf hr]

/-- A merge step keeps the sum of the roots' weights. -/
theorem sum_weights (h : s.CanMerge) :
    ((s.mergeStep.topsList s.mergeStep.ntop.toNat).map s.mergeStep.weightOf).sum =
      ((s.topsList s.ntop.toNat).map s.weightOf).sum := by
  have hrest : (s.topsList (s.ntop.toNat - 2)).map s.mergeStep.weightOf =
      (s.topsList (s.ntop.toNat - 2)).map s.weightOf :=
    List.map_congr_left fun t ht => State.mergeStep_weightOf (h.rest.1 t ht)
  rw [(h.topsList_perm.map _).sum_eq, s.topsList_eq_rest_append h.two, List.map_cons, List.sum_cons, h.newWeight, hrest]
  simp [Nat.add_comm]

/-- The two roots that go become the new node's children. -/
theorem children_eq (h : s.CanMerge) (hk : k ≤ s.nnode.toNat) :
    s.mergeStep.children k = s.children k ++ [s.mergeLeft.toNat, s.mergeRight.toNat] := by
  have hold : ∀ p ∈ List.Ico k s.nnode.toNat, s.mergeStep.childrenAt p = s.childrenAt p := fun p hp => by
    rw [State.childrenAt, State.mergeStep_nodeAt_of_ne (List.Ico.mem.mp hp).2.ne, State.childrenAt]
  rw [State.children, State.mergeStep_nnode_toNat h.room, List.Ico.succ_top hk, List.flatMap_append,
    List.flatMap_congr hold, List.flatMap_singleton, State.childrenAt, h.newNode, State.children]

/-- Every node stays the child of one node or a root: two roots become children, and the new node a root. -/
theorem owned (h : s.CanMerge) (hk : k ≤ s.nnode.toNat)
    (howned : (s.children k ++ (s.topsList s.ntop.toNat).map BitVec.toNat).Perm (List.range s.nnode.toNat)) :
    (s.mergeStep.children k ++ (s.mergeStep.topsList s.mergeStep.ntop.toNat).map BitVec.toNat).Perm
      (List.range s.mergeStep.nnode.toNat) := by
  rw [h.children_eq hk, State.mergeStep_nnode_toNat h.room, List.range_succ]
  rw [s.topsList_eq_rest_append h.two] at howned
  refine ((h.topsList_perm.map _).append_left _).trans (List.Perm.trans ?_ (howned.append_right _))
  refine List.perm_iff_count.mpr fun a => ?_
  simp only [List.map_append, List.map_cons, List.map_nil, List.count_append, List.count_cons, List.count_nil]
  omega

end State.CanMerge

theorem State.SortedForest.mergeStep {rows : List Row} (h : s.SortedForest rows) (h2 : 1 < s.ntop.toNat) :
    s.mergeStep.SortedForest rows := by
  have hcan := h.canMerge h2
  refine ⟨h.toForest.mergeStep h2, hcan.mergeStep_topsSorted, hcan.sum_weights ▸ h.fits, fun n hk hn => ?_,
    hcan.owned h.length_le_nnode h.owned⟩
  rw [State.mergeStep_nnode_toNat hcan.room] at hn
  rcases Nat.lt_succ_iff_lt_or_eq.mp hn with hn | rfl
  · exact (h.internal n hk hn).mergeStep hn
  · exact hcan.internal

/-! ### The seed and the merge loop -/

/-- The seed's roots are the leaves in table order. -/
theorem State.seedTree_topsList (hk : k ≤ 256) :
    (s.seedTree k).topsList (s.seedTree k).ntop.toNat = (List.range k).map (BitVec.ofNat 9) := by
  rw [State.seedTree_ntop, toNat_ofNat9 hk]
  exact List.map_congr_left fun j hj => by rw [State.seedTree_topsAt, if_pos (List.mem_range.mp hj)]

theorem State.seedTree_weightOf (hk : k ≤ 256) {i : Nat} (hi : i < k) :
    (s.seedTree k).weightOf (BitVec.ofNat 9 i) = (s.tblAt i).metaWord.toNat := by
  rw [State.weightOf, toNat_ofNat9 (by omega), State.seedTree_nodeAt, if_pos hi, leafOf]

/-- The seed of a sorted table: no internal node yet, and every leaf a root. -/
theorem State.seedTree_sortedForest (h1 : 1 ≤ k) (hk : k ≤ 256)
    (hsorted : ∀ i i', i < i' → i' < k → (s.tblAt i').metaWord.toNat ≤ (s.tblAt i).metaWord.toNat)
    (hsum : ((List.range k).map fun i => (s.tblAt i).metaWord.toNat).sum < 2 ^ 32) :
    (s.seedTree k).SortedForest ((List.range k).map s.tblAt) := by
  have htops := s.seedTree_topsList hk
  have hnnode : (s.seedTree k).nnode.toNat = k := toNat_ofNat9 hk
  have hweight : ∀ i ∈ List.range k, (s.seedTree k).weightOf (BitVec.ofNat 9 i) = (s.tblAt i).metaWord.toNat :=
    fun i hi => State.seedTree_weightOf hk (List.mem_range.mp hi)
  refine ⟨State.seedTree_forest h1 hk, ?_, ?_, fun n hn hlt => ?_, ?_⟩
  · rw [State.TopsSorted, htops, List.pairwise_map]
    refine List.pairwise_lt_range.imp_of_mem fun hi hi' hii' => ?_
    rw [hweight _ hi, hweight _ hi']
    exact hsorted _ _ hii' (List.mem_range.mp hi')
  · have hweights : (List.range k).map ((s.seedTree k).weightOf ∘ BitVec.ofNat 9) = _ := List.map_congr_left hweight
    rw [htops, List.map_map, hweights]
    exact hsum
  · rw [List.length_map, List.length_range] at hn
    omega
  · have hindex : (List.range k).map (BitVec.toNat ∘ BitVec.ofNat 9) = (List.range k).map id :=
      List.map_congr_left fun i hi => toNat_ofNat9 ((List.mem_range.mp hi).le.trans hk)
    rw [State.children, List.length_map, List.length_range, hnnode, List.Ico.self_empty, htops, List.map_map, hindex,
      List.map_id]
    exact List.Perm.refl _

/-- The merge loop of BUILD ends with one tree whose nodes are all accounted for. -/
theorem State.merged_sortedForest (h : s.CountingInv) (h1 : 1 ≤ s.nseen.toNat) (hn : s.nseen.toNat ≤ 256) :
    (s.merged s.nseen.toNat).SortedForest (s.sortedRows s.nseen.toNat) := by
  have hsum := State.sortTable_sumMetas h hn
  rw [State.sumMetas, State.sortTable_tsize, toNat_ofNat9 hn] at hsum
  exact State.mergeLoop_induction (fun _ h2 hu => hu.mergeStep h2) 255
    (State.seedTree_sortedForest h1 hn (fun _ _ => State.sortTable_descends) (hsum ▸ s.total.isLt))

/-- The children of the internal nodes are all the nodes but the root, each once. -/
theorem State.merged_children (h : s.CountingInv) (h1 : 1 ≤ s.nseen.toNat) (hn : s.nseen.toNat ≤ 256) :
    ((List.Ico s.nseen.toNat (2 * s.nseen.toNat - 1)).flatMap (s.merged s.nseen.toNat).childrenAt).Perm
      (List.range (2 * s.nseen.toNat - 2)) := by
  have howned := (State.merged_sortedForest h h1 hn).owned
  obtain ⟨hnnode, hntop, hroot⟩ := s.merged_counters h1 hn
  have hlast : (State.topsList (s.merged s.nseen.toNat) (1#9).toNat).map BitVec.toNat = [2 * s.nseen.toNat - 2] :=
    congrArg (fun n => [n]) hroot
  rw [State.children, State.sortedRows_length, hnnode, hntop, hlast,
    show 2 * s.nseen.toNat - 1 = 2 * s.nseen.toNat - 2 + 1 by omega, List.range_succ] at howned
  rw [show 2 * s.nseen.toNat - 1 = 2 * s.nseen.toNat - 2 + 1 by omega]
  exact (List.perm_append_right_iff _).mp howned

/-- In lists that together hold every element of `m` once, an element of `m` stands in one list only. -/
theorem existsUnique_of_flatMap_perm {α β : Type} {f : α → List β} {l : List α} {m : List β}
    (h : (l.flatMap f).Perm m) (hm : m.Nodup) {c : β} (hc : c ∈ m) : ∃! p, p ∈ l ∧ c ∈ f p := by
  obtain ⟨p, hp, hcp⟩ := List.mem_flatMap.mp (h.mem_iff.mpr hc)
  refine ⟨p, ⟨hp, hcp⟩, fun q ⟨hq, hcq⟩ => ?_⟩
  by_contra hne
  obtain ⟨-, hdisjoint⟩ := List.nodup_flatMap.mp (h.nodup_iff.mpr hm)
  have hsymm : Std.Symm (Function.onFun List.Disjoint f) := ⟨fun _ _ hab => List.Disjoint.symm hab⟩
  exact hdisjoint.forall hq hp hne hcq hcp

/-- Different rows have different symbols. -/
theorem State.sortTable_sym_inj (h : s.CountingInv) (hn : s.nseen.toNat ≤ 256) {i i' : Nat} (hi : i < s.nseen.toNat)
    (hi' : i' < s.nseen.toNat)
    (he : ((s.sortTable s.nseen.toNat).tblAt i).sym = ((s.sortTable s.nseen.toNat).tblAt i').sym) : i = i' := by
  have hnodup := (State.sortTable_rowSymbols hn).nodup_iff.mpr (State.seenSymbols_nodup h)
  rw [State.rowSymbols, State.sortTable_nrow, toNat_ofNat9 hn] at hnodup
  exact List.inj_on_of_nodup_map hnodup (List.mem_range.mpr hi) (List.mem_range.mpr hi') he

/-- Settles O30: the merge loop keeps a sorted forest in which every node is once a child or a root, and it ends with one
root. -/
theorem buildMakesAProperTree : Obligations.BuildMakesAProperTree := by
  intro s t hinv hp h2 hexec k
  have hn := hinv.nseen_le
  have h1 : 1 ≤ k := by omega
  obtain rfl : s.buildAll k = t := Host.Outcome.next.inj ((exec_build_of_count hp h2 hn).symm.trans hexec)
  obtain ⟨htbl, -, -⟩ := s.buildAll_table k
  obtain ⟨hnodes, -⟩ := s.buildAll_tree k
  obtain ⟨hnnode, -, -⟩ := s.merged_counters h1 hn
  have hforest := State.merged_sortedForest hinv.counting h1 hn
  have hchildren := State.merged_children hinv.counting h1 hn
  obtain ⟨hnodup, -⟩ := List.nodup_flatMap.mp (hchildren.nodup_iff.mpr List.nodup_range)
  have hleaf : ∀ n, n < k → (s.merged k).nodeAt n = leafOf ((s.sortTable k).tblAt n) := fun n => s.merged_leaf h1 hn
  simp only [hnodes, htbl]
  refine ⟨fun n hnk => ?_, fun n n' hnk hnk' he => ?_, fun n hkn hnn => ?_, fun c hc => ?_⟩
  · exact hleaf n hnk
  · rw [hleaf n hnk, hleaf n' hnk'] at he
    exact State.sortTable_sym_inj hinv.counting hn hnk hnk' he
  · obtain ⟨hkind, ⟨hl, hr⟩, hw⟩ := hforest.internal n (s.sortedRows_length k ▸ hkn) (hnnode ▸ hnn)
    exact ⟨hkind, ⟨hl, hr, State.childrenAt_nodup.mp (hnodup n (List.Ico.mem.mpr ⟨hkn, hnn⟩))⟩, hw⟩
  · obtain ⟨p, ⟨hp, hcp⟩, hunique⟩ := existsUnique_of_flatMap_perm hchildren List.nodup_range (List.mem_range.mpr hc)
    obtain ⟨hkp, hpn⟩ := List.Ico.mem.mp hp
    exact ⟨p, ⟨hkp, hpn, State.mem_childrenAt.mp hcp⟩, fun q hkq hqn hcq =>
      hunique q ⟨List.Ico.mem.mpr ⟨hkq, hqn⟩, State.mem_childrenAt.mpr hcq⟩⟩

end Sys2Proof.Machine
end

section
/-! SUPPORT. The code book that BUILD leaves: each codeword is the path from ROOT to the leaf of its symbol, the lengths
and their Kraft sum, and the decoder on a complete code book (42_codebook.md R141 to R146, 44_decoder.md R170). -/

namespace Sys2Proof.Machine

variable {s t : State}

/-! ### The paths of a tree (42_codebook.md R142) -/

/-- From a node whose edges have different labels each bit leads to one of the children. -/
theorem State.follow_edge {n nl nr : Index} {x : Symbol} {w : Word} {b : Bool}
    (hn : s.nodeAt n.toNat = ⟨false, x, w, nl, nr, b, !b⟩) (c : Bool) (bits : List Bool) :
    s.follow n (c :: bits) = s.follow (if c = b then nl else nr) bits := by
  rw [State.follow, hn]
  cases b <;> cases c <;> rfl

/-- The path `bits` leads from node `n` to node `m`, which is at or below it and is the leaf of symbol `x`. -/
structure State.LeadsToLeaf (s : State) (n : Index) (bits : List Bool) (x : Symbol) (m : Index) : Prop where
  path : s.follow n bits = some m
  below : m.toNat ≤ n.toNat
  leaf : (s.nodeAt m.toNat).leaf = true
  sym : (s.nodeAt m.toNat).sym = x

/-- A path from a child goes on from its parent by the bit of the edge between them. -/
theorem State.LeadsToLeaf.cons {n c m : Index} {b : Bool} {bits : List Bool} {x : Symbol}
    (h : s.LeadsToLeaf c bits x m) (hstep : s.follow n (b :: bits) = s.follow c bits) (hlt : c.toNat < n.toNat) :
    s.LeadsToLeaf n (b :: bits) x m :=
  ⟨hstep.trans h.path, h.below.trans hlt.le, h.leaf, h.sym⟩

namespace CodeTree

variable {T : CodeTree} {n : Index} {acc : BitString}

/-- What a codeword adds to the bits before it is the path to the leaf of its symbol. -/
theorem At.codes_lead (hT : T.At s.node n) (h : T.Fits acc) :
    ∀ p ∈ T.codes acc, ∃ bits m, p.2.toList = acc.toList ++ bits ∧ s.LeadsToLeaf n bits p.1 m := by
  induction T generalizing n acc with
  | leaf r =>
    have hn : s.nodeAt n.toNat = leafOf r := hT
    intro p hp
    rw [List.mem_singleton.mp hp]
    exact ⟨[], n, (List.append_nil _).symm, rfl, le_rfl, by rw [hn, leafOf], by rw [hn, leafOf]⟩
  | fork b l r ihl ihr =>
    obtain ⟨nl, nr, hn, ⟨hnl, hnr⟩, hl, hr⟩ := hT
    have hsnoc : ∀ (c : Bool) (bits : List Bool), (acc.snoc c).toList ++ bits = acc.toList ++ c :: bits :=
      fun c bits => by rw [BitString.snoc_toList acc c (h.fork c).1, List.append_assoc, List.singleton_append]
    intro p hp
    rcases List.mem_append.mp hp with hp | hp
    · obtain ⟨bits, m, hbits, hm⟩ := ihl hl (h.fork b).2.1 p hp
      exact ⟨b :: bits, m, hbits.trans (hsnoc _ _),
        hm.cons ((State.follow_edge hn b bits).trans (by rw [if_pos rfl])) hnl⟩
    · obtain ⟨bits, m, hbits, hm⟩ := ihr hr (h.fork !b).2.2 p hp
      exact ⟨(!b) :: bits, m, hbits.trans (hsnoc _ _),
        hm.cons ((State.follow_edge hn (!b) bits).trans (by rw [if_neg (Bool.not_ne_self b)])) hnr⟩

/-! ### Lengths -/

/-- A codeword adds at most as many bits as the tree is high. -/
theorem codes_length_le (h : T.Fits acc) : ∀ p ∈ T.codes acc, p.2.len.toNat ≤ acc.len.toNat + T.height := by
  induction T generalizing acc with
  | leaf r =>
    intro p hp
    rw [List.mem_singleton.mp hp]
    exact Nat.le_add_right _ _
  | fork b l r ihl ihr =>
    have hlen : ∀ c, (acc.snoc c).len.toNat = acc.len.toNat + 1 := fun c => BitString.snoc_len acc c (h.fork c).1
    intro p hp
    rw [height]
    rcases List.mem_append.mp hp with hp | hp
    · have := ihl (h.fork b).2.1 p hp
      rw [hlen] at this
      omega
    · have := ihr (h.fork !b).2.2 p hp
      rw [hlen] at this
      omega

/-- The Kraft sum of the codewords below a node, scaled by 2^255, is the node's own share: each fork halves it
(42_codebook.md R146). -/
theorem codes_kraft (h : T.Fits acc) :
    ((T.codes acc).map fun p => 2 ^ (255 - p.2.len.toNat)).sum = 2 ^ (255 - acc.len.toNat) := by
  induction T generalizing acc with
  | leaf r => simp [codes]
  | fork b l r ihl ihr =>
    have hlen : ∀ c, (acc.snoc c).len.toNat = acc.len.toNat + 1 := fun c => BitString.snoc_len acc c (h.fork c).1
    have hroom := h.2
    rw [height] at hroom
    rw [codes, List.map_append, List.sum_append, ihl (h.fork b).2.1, ihr (h.fork !b).2.2, hlen, hlen, ← two_mul,
      ← Nat.pow_succ', show (255 - (acc.len.toNat + 1)).succ = 255 - acc.len.toNat by omega]

end CodeTree

/-! ### The code book of a tree (42_codebook.md R143, R146) -/

namespace State.Built

variable {rows : List Row} {T : CodeTree}

/-- The symbols with a codeword are those of the leaves, each once. -/
theorem validSymbols_perm (h : s.Built rows T) (hnodup : (rows.map Row.sym).Nodup) :
    s.validSymbols.Perm ((T.codes BitString.empty).map Prod.fst) := by
  rw [CodeTree.codes_symbols]
  exact ((h.leaves.map Row.sym).trans (perm_filter_allSymbols.mpr ⟨hnodup, fun x => (h.valid x).symm⟩)).symm

/-- The Kraft sum of a built code book is exactly 1. -/
theorem kraft (h : s.Built rows T) (hn : rows.length ≤ 256) (hnodup : (rows.map Row.sym).Nodup) :
    (s.validSymbols.map fun x => 2 ^ (255 - (s.cbAt x).word.len.toNat)).sum = 2 ^ 255 := by
  have hword : ∀ p ∈ T.codes BitString.empty, 2 ^ (255 - (s.cbAt p.1).word.len.toNat) = 2 ^ (255 - p.2.len.toNat) :=
    fun p hp => by rw [h.codes p hp]
  rw [((h.validSymbols_perm hnodup).map _).sum_eq, List.map_map]
  exact (congrArg List.sum (List.map_congr_left hword)).trans (CodeTree.codes_kraft (h.fits hn))

/-- No codeword is as long as the table has rows. -/
theorem word_len_lt (h : s.Built rows T) (hn : rows.length ≤ 256) {x : Symbol} (hx : (s.cbAt x).valid = true) :
    (s.cbAt x).word.len.toNat < rows.length := by
  have hle : (s.cbAt x).word.len.toNat ≤ 0 + T.height := CodeTree.codes_length_le (h.fits hn) _ (h.mem_codes hx)
  have hlt := T.height_lt_length_rows
  rw [h.leaves.length_eq] at hlt
  omega

/-- A valid codeword is the path from ROOT to the leaf of its symbol. -/
theorem word_leads (h : s.Built rows T) (hn : rows.length ≤ 256) {x : Symbol} (hx : (s.cbAt x).valid = true) :
    ∃ m, s.LeadsToLeaf s.root (s.cbAt x).word.toList x m := by
  obtain ⟨bits, m, hbits, hm⟩ := h.tree.codes_lead (h.fits hn) _ (h.mem_codes hx)
  exact ⟨m, by rwa [hbits]⟩

end State.Built

/-! ### After BUILD -/

/-- Where the invariants hold BUILD over two symbols or more answers its own effect only. -/
theorem State.Inv.eq_buildAll (h : s.Inv) (hp : s.phase = .count) (h2 : 2 ≤ s.nseen.toNat)
    (hexec : exec .build s = .next t) : t = s.buildAll s.nseen.toNat :=
  Host.Outcome.next.inj (hexec.symm.trans (exec_build_of_count hp h2 h.nseen_le))

/-- The leaves of BUILD's tree are the nodes below K: those from K on are internal (41_tree_build.md R124, R127). -/
theorem State.Inv.buildAll_leaf_lt (h : s.Inv) (hp : s.phase = .count) (h2 : 2 ≤ s.nseen.toNat) {n : Nat}
    (hroot : n ≤ (s.buildAll s.nseen.toNat).root.toNat) (hleaf : ((s.buildAll s.nseen.toNat).nodeAt n).leaf = true) :
    n < s.nseen.toNat := by
  obtain ⟨-, -, hinner, -⟩ := buildMakesAProperTree s _ h hp h2 (exec_build_of_count hp h2 h.nseen_le)
  obtain ⟨-, -, hlast⟩ := s.merged_counters (by omega) h.nseen_le
  have hroot' : n ≤ 2 * s.nseen.toNat - 2 := hlast ▸ hroot
  by_contra hge
  obtain ⟨⟨hnot, -⟩, -⟩ := hinner n (not_lt.mp hge) (by omega)
  exact Bool.false_ne_true (hnot.symm.trans hleaf)

/-- The symbol of each leaf of BUILD's tree has a codeword: it is the symbol of a table row (42_codebook.md R143). -/
theorem State.Inv.buildAll_leaf_valid (h : s.Inv) (hp : s.phase = .count) (h2 : 2 ≤ s.nseen.toNat) {n : Nat}
    (hn : n < s.nseen.toNat) :
    ((s.buildAll s.nseen.toNat).cbAt ((s.buildAll s.nseen.toNat).nodeAt n).sym).valid = true := by
  obtain ⟨hleaf, -⟩ := buildMakesAProperTree s _ h hp h2 (exec_build_of_count hp h2 h.nseen_le)
  obtain ⟨⟨-, -, -, hrows⟩, -⟩ := (h.buildAll hp h2 h.nseen_le).ready rfl
  obtain ⟨-, hnrow⟩ := State.buildAll_sizes h.nseen_le
  rw [hleaf n hn]
  refine ((perm_filter_allSymbols.mp hrows).2 _).mp (List.mem_map_of_mem (List.mem_range.mpr ?_))
  rwa [hnrow]

/-- Settles O31: a codeword is the path to a leaf of its symbol, the leaves are the nodes below K, and their symbols
differ. -/
theorem codewordsAreRootToLeafPaths : Obligations.CodewordsAreRootToLeafPaths := by
  intro s t hinv hp h2 hexec
  obtain ⟨-, hdistinct, -⟩ := buildMakesAProperTree s t hinv hp h2 hexec
  obtain rfl := hinv.eq_buildAll hp h2 hexec
  obtain ⟨T, hbuilt⟩ := State.buildAll_built hinv.counting (by omega) hinv.nseen_le
  have hfew : s.countedRows.length ≤ 256 := s.length_countedRows ▸ hinv.nseen_le
  refine ⟨fun n hn => ?_, fun x hx => ?_⟩
  · have hvalid := hinv.buildAll_leaf_valid hp h2 hn
    obtain ⟨m, hm⟩ := hbuilt.word_leads hfew hvalid
    obtain rfl : m = n := BitVec.eq_of_toNat_eq
      (hdistinct _ _ (hinv.buildAll_leaf_lt hp h2 hm.below hm.leaf) hn hm.sym)
    exact ⟨hvalid, hm.path⟩
  · obtain ⟨m, hm⟩ := hbuilt.word_leads hfew hx
    exact ⟨m, hinv.buildAll_leaf_lt hp h2 hm.below hm.leaf, hm.leaf, hm.sym, hm.path⟩

/-- Settles O32: the codewords are those of one tree over the counted symbols. -/
theorem builtCodeBookIsPrefixFreeAndFull : Obligations.BuiltCodeBookIsPrefixFreeAndFull := by
  intro s t hinv hp h2 hexec
  obtain rfl := hinv.eq_buildAll hp h2 hexec
  obtain ⟨T, hbuilt⟩ := State.buildAll_built hinv.counting (by omega) hinv.nseen_le
  have hlen := s.length_countedRows
  have hfew : s.countedRows.length ≤ 256 := hlen ▸ hinv.nseen_le
  have hfree := (hinv.buildAll hp h2 hinv.nseen_le).prefixFree
  refine ⟨fun x => ?_, fun x hx => ⟨?_, ?_⟩, fun x y hx hy hxy hpre => ?_, hbuilt.kraft hfew ?_⟩
  · rw [hbuilt.valid, s.countedRows_symbols, State.mem_seenSymbols hinv.counting]
  · obtain ⟨⟨hne, -⟩, -⟩ := hfree x hx
    exact Nat.one_le_iff_ne_zero.mpr fun h0 => hne (BitVec.eq_of_toNat_eq h0)
  · have := hbuilt.word_len_lt hfew hx
    omega
  · obtain ⟨-, hrel⟩ := hfree x hx
    have hnot := hrel y hy hxy
    rw [BitString.prefixRelated, (BitString.isPrefixOf_iff _ _).mpr hpre] at hnot
    cases hnot
  · rw [s.countedRows_symbols]
    exact State.seenSymbols_nodup hinv.counting

/-- Settles O54: completeness is a clause of the invariants that every step keeps; for BUILD it is read from the tree
that the merge leaves. -/
theorem stepKeepsBuiltCodesComplete : Obligations.StepKeepsBuiltCodesComplete :=
  fun _ _ hs h => (step_inv hs h).complete

/-! ### DBIT with a built code book (44_decoder.md R170) -/

/-- With a complete code book 255 bits begin with a codeword, which the buffer never does. -/
theorem State.Inv.buf_len_ne (h : s.Inv) (hp : s.phase = .ready) (hsrc : s.src = false) : s.buf.len ≠ 255#8 := by
  intro hfull
  obtain ⟨x, hx, hpre⟩ := h.complete hp hsrc s.buf.toList (by rw [BitString.toList_length, hfull]; rfl)
  obtain ⟨-, hunmatched, -⟩ := h.buffer
  exact Bool.false_ne_true ((hunmatched x hx).symm.trans ((BitString.isPrefixOf_iff _ _).mpr hpre))

theorem exec_dbit_of_ready {b : Bool} (hp : s.phase = .ready) (hl : s.buf.len ≠ 255#8) :
    exec (.dbit b) s = .next (s.acceptBit b) := by
  have hok : legality (.dbit b) s.phase = .ok := by rw [hp]; rfl
  rw [exec, execDbit, gate_ok hok]
  exact if_neg hl

/-- Settles O45: the buffer has room for one bit more, and an accepted bit writes BUF and SOUT only. -/
theorem builtCodeNeverFillsTheBuffer : Obligations.BuiltCodeNeverFillsTheBuffer := by
  intro s hinv hp hsrc
  have hroom := hinv.buf_len_ne hp hsrc
  refine ⟨hroom, fun b => ⟨_, exec_dbit_of_ready hp hroom, ?_⟩⟩
  obtain ⟨_, _, hframe⟩ := s.acceptBit_frame b
  obtain ⟨-, hnone, -⟩ := hinv.error
  obtain ⟨herr, -⟩ := hnone (by rw [hp]; exact nofun)
  rw [hframe]
  exact ⟨hp, herr⟩

end Sys2Proof.Machine
end

section
/-! SUPPORT. Sequences of commands: their execution one after another, and the command port that gets their words one after
another, which comes to the same (20_memory.md R71, 30_encoding.md R81, R90). -/

namespace Sys2Proof.Machine

variable {s t : State} {i : Instr} {is : List Instr}

/-! ### One command after another (20_memory.md R71) -/

theorem execAll_cons_of_next (h : exec i s = .next t) (is : List Instr) : execAll (i :: is) s = execAll is t := by
  simp only [execAll, h]

theorem execAll_cons_cases (h : execAll (i :: is) s = .next t) : ∃ u, exec i s = .next u ∧ execAll is u = .next t := by
  rw [execAll] at h
  split at h
  · rename_i u hu
    exact ⟨u, hu, h⟩
  · cases h
  · cases h

theorem execAll_append (h : execAll is s = .next t) (js : List Instr) : execAll (is ++ js) s = execAll js t := by
  induction is generalizing s with
  | nil => cases h; rfl
  | cons i is ih =>
    obtain ⟨u, hu, hrest⟩ := execAll_cons_cases h
    rw [List.cons_append, execAll_cons_of_next hu, ih hrest]

theorem execAll_singleton (i : Instr) (s : State) : execAll [i] s = exec i s := by
  rw [execAll]
  cases exec i s <;> rfl

/-! ### No command reads or writes the command assembler or the port -/

section
variable (cw : Table Word) (cwn : Fin 10) (port : List PortEvent)

/-- An outcome with another command assembler and port in its next state. -/
def outcomeWithAssembler : Host.Outcome State Fault Refusal → Host.Outcome State Fault Refusal
  | .next t => .next (t.withAssembler cw cwn port)
  | .fault f => .fault f
  | .refused r => .refused r

/-- A rule that gives the same whatever the command assembler and the port hold. -/
def IgnoresAssembler (rule : State → Host.Outcome State Fault Refusal) : Prop :=
  ∀ s : State, rule (s.withAssembler cw cwn port) = outcomeWithAssembler cw cwn port (rule s)

variable {cw cwn port}

theorem IgnoresAssembler.ite {c : State → Prop} [DecidablePred c] {a b : State → Host.Outcome State Fault Refusal}
    (hc : ∀ s, c (s.withAssembler cw cwn port) ↔ c s) (ha : IgnoresAssembler cw cwn port a)
    (hb : IgnoresAssembler cw cwn port b) : IgnoresAssembler cw cwn port fun s => if c s then a s else b s := by
  intro s
  by_cases h : c s
  · simp only [h, (hc s).mpr h, if_true, ha s]
  · simp only [h, mt (hc s).mp h, if_false, hb s]

/-- A gated command does where its own rule does: the matrix of R212 reads STATE only. -/
theorem IgnoresAssembler.gated (i : Instr) {rule : State → Host.Outcome State Fault Refusal}
    (h : IgnoresAssembler cw cwn port rule) : IgnoresAssembler cw cwn port fun s => gate i s rule := by
  intro s
  show gate i _ rule = outcomeWithAssembler cw cwn port (gate i s rule)
  cases hl : legality i s.phase with
  | ok => rw [gate_ok hl, ← h s]; exact gate_ok hl
  | error e => rw [gate_error hl]; exact gate_error hl
  | drop => rw [gate_drop hl]; exact gate_drop hl

theorem illegalCommand_ignoresAssembler (info : BitVec 16) : IgnoresAssembler cw cwn port (illegalCommand info) := by
  intro s
  by_cases hp : s.phase = .err
  · rw [illegalCommand_err info hp]; exact illegalCommand_err info hp
  · rw [illegalCommand_raises info hp]; exact illegalCommand_raises info hp

variable (cw cwn port)

theorem State.mergeLoop_withAssembler (fuel : Nat) (s : State) :
    (s.withAssembler cw cwn port).mergeLoop fuel = (s.mergeLoop fuel).withAssembler cw cwn port := by
  induction fuel generalizing s with
  | zero => rfl
  | succ fuel ih =>
    rw [State.mergeLoop, State.mergeLoop, apply_ite (fun u : State => u.withAssembler cw cwn port), ← ih]
    rfl

theorem State.buildAll_withAssembler (k : Nat) (s : State) :
    (s.withAssembler cw cwn port).buildAll k = (s.buildAll k).withAssembler cw cwn port :=
  congrArg (fun u : State => u.finishTree.walk.becomeReady)
    (State.mergeLoop_withAssembler cw cwn port 255 ((s.sortTable k).seedTree k))

theorem State.commitRow_withAssembler (s : State) (x : Symbol) (len : BitVec 8) (m : Word) (code : CodeBits) :
    (s.withAssembler cw cwn port).commitRow x len m code = (s.commitRow x len m code).withAssembler cw cwn port := by
  rw [State.commitRow, State.commitRow, apply_ite (fun u : State => u.withAssembler cw cwn port)]
  rfl

theorem State.acceptBit_withAssembler (s : State) (b : Bool) :
    (s.withAssembler cw cwn port).acceptBit b = (s.acceptBit b).withAssembler cw cwn port := by
  have hm : (s.withAssembler cw cwn port).matchSymbol = s.matchSymbol := rfl
  have hb : (s.withAssembler cw cwn port).buf = s.buf := rfl
  rw [State.acceptBit, State.acceptBit, hm, hb]
  cases s.matchSymbol (s.buf.snoc b) <;> rfl

variable {cw cwn port}

/-- Every command gives the same whatever the command assembler and the port hold (30_encoding.md R81, R90). -/
theorem exec_ignoresAssembler (i : Instr) : IgnoresAssembler cw cwn port (exec i) := by
  cases i with
  | nop => exact .gated _ fun _ => rfl
  | clear => exact .gated _ fun _ => rfl
  | rdcnt x => exact .gated _ fun _ => rfl
  | rdnode n => exact .gated _ fun _ => rfl
  | rdcode x => exact .gated _ fun _ => rfl
  | sym x => exact .gated _ (.ite (fun _ => .rfl) (fun _ => rfl) (.ite (fun _ => .rfl) (fun _ => rfl) fun _ => rfl))
  | build =>
    exact .gated _ (.ite (fun _ => .rfl) (fun _ => rfl)
      (.ite (fun _ => .rfl) (fun s => congrArg _ (s.buildAll_withAssembler ..)) fun _ => rfl))
  | enc x => exact .gated _ (.ite (fun _ => .rfl) (fun _ => rfl) fun _ => rfl)
  | tblout => exact .gated _ (.ite (fun _ => .rfl) (fun _ => rfl) fun _ => rfl)
  | ldsize n => exact .gated _ (.ite (fun _ => .rfl) (fun _ => rfl) fun _ => rfl)
  | dbit b => exact .gated _ (.ite (fun _ => .rfl) (fun _ => rfl) fun s => congrArg _ (s.acceptBit_withAssembler ..))
  | dend => exact .gated _ (.ite (fun _ => .rfl) (fun _ => rfl) fun _ => rfl)
  | rdreg r =>
    refine .gated _ fun s => ?_
    have hr : (s.withAssembler cw cwn port).readRegister r = s.readRegister r := rfl
    cases h : s.readRegister r with
    | some v => simp only [hr, h]; rfl
    | none => simp only [hr, h]; exact illegalCommand_ignoresAssembler _ s
  | ldrow x len m code =>
    refine .gated _ fun s => ?_
    have he : (s.withAssembler cw cwn port).rowError x len code = s.rowError x len code := rfl
    cases h : s.rowError x len code with
    | some p => simp only [he, h]; rfl
    | none =>
      simp only [he, h]
      rw [s.commitRow_withAssembler, apply_ite (outcomeWithAssembler cw cwn port)]
      rfl

theorem exec_withAssembler (h : exec i s = .next t) (cw : Table Word) (cwn : Fin 10) (port : List PortEvent) :
    exec i (s.withAssembler cw cwn port) = .next (t.withAssembler cw cwn port) :=
  (exec_ignoresAssembler i s).trans (congrArg _ h)

end

/-! ### The words of commands on the port (30_encoding.md R81, R90) -/

variable {w : Word} {rest : List PortEvent}

/-- Where the words held and the next word of the port decode, the step is the command's. -/
theorem step_of_decode (hp : s.port = .word w :: rest) (hd : decode (s.wordsWith w) = .ok i) :
    step s = exec i (s.takeWord w rest 0) := by
  obtain ⟨data, hws, hlen⟩ := s.wordsWith_eq_cons w
  have hc := (opcode_of_decode (hws ▸ hd)).2
  rw [hlen] at hc
  rw [step_of_complete hp hc, runCommand, hd]

/-- All words of a command but the last are held. -/
theorem run_of_all_but_last (i : Instr) (h0 : s.cwn = 0) (hp : s.port = (encode i).map .word ++ rest) :
    ∃ w cw cwn, (s.withAssembler cw cwn (.word w :: rest)).wordsWith w = encode i ∧
      ∀ k, Host.Core.run core ((encode i).length + k) s =
        Host.Core.run core (k + 1) (s.withAssembler cw cwn (.word w :: rest)) := by
  obtain ⟨h, data, henc, -, hlen⟩ := encodedLength i
  have hnone : s.heldWords = [] := by rw [State.heldWords, h0]; rfl
  rw [henc] at hp ⊢
  by_cases ho : opcodeOf h = 0x41#8
  · have hten : data.length = 9 := by simpa [lengthOf, ho] using hlen
    have hne : data ≠ [] := by rintro rfl; cases hten
    have hsplit : h :: data = (h :: data.dropLast) ++ [data.getLast hne] := by
      rw [List.cons_append, List.dropLast_append_getLast]
    rw [hsplit] at hp ⊢
    obtain ⟨cw, cwn, -, hheld, hrun⟩ := run_of_held (rest := .word (data.getLast hne) :: rest) ho
      (h :: data.dropLast) s (by simpa using hp) (by simp [hnone]) (by simp [h0, hten])
    refine ⟨data.getLast hne, cw, cwn, ?_, fun k => ?_⟩
    · rw [State.wordsWith, ← State.heldWords, hheld, hnone, List.nil_append]
    · rw [List.length_append, Nat.add_assoc, Nat.add_comm _ k]; exact hrun (k + 1)
  · obtain rfl : data = [] := List.eq_nil_of_length_eq_zero (by simpa [lengthOf, ho] using hlen)
    have hs : s.withAssembler s.cw s.cwn (.word h :: rest) = s := by
      rw [List.map_singleton, List.singleton_append] at hp
      rw [← hp]; rfl
    refine ⟨h, s.cw, s.cwn, ?_, fun k => ?_⟩
    · rw [hs, State.wordsWith, ← State.heldWords, hnone, List.nil_append]
    · rw [hs, List.length_singleton, Nat.add_comm]

/-- The words of a command, sent to a core that holds none, run the command. -/
theorem run_encode (hi : i.WellFormed = true) (h : exec i s = .next t) (cw : Table Word) (rest : List PortEvent) :
    ∃ cw', ∀ k, Host.Core.run core ((encode i).length + k) (s.withAssembler cw 0 ((encode i).map .word ++ rest)) =
      Host.Core.run core k (t.withAssembler cw' 0 rest) := by
  obtain ⟨w, cw', cwn, hws, hrun⟩ := run_of_all_but_last i (s := s.withAssembler cw 0 _) (rest := rest) rfl rfl
  have hstep := step_of_decode rfl (hws ▸ decode_encode i hi)
  exact ⟨_, fun k => (hrun k).trans (run_succ_of_next (hstep.trans (exec_withAssembler h _ _ _)) k)⟩

/-- The words of a list of commands, sent to a core that holds none, run the commands one after another. -/
theorem run_commandWords_append (hi : ∀ i ∈ is, i.WellFormed = true) (h : execAll is s = .next t) (cw : Table Word)
    (rest : List PortEvent) :
    ∃ cw', ∀ k,
      Host.Core.run core ((commandWords is).length + k) (s.withAssembler cw 0 ((commandWords is).map .word ++ rest)) =
        Host.Core.run core k (t.withAssembler cw' 0 rest) := by
  induction is generalizing s cw with
  | nil =>
    cases h
    exact ⟨cw, fun k => by rw [commandWords, List.flatMap_nil, List.length_nil, Nat.zero_add]; rfl⟩
  | cons i is ih =>
    obtain ⟨u, hu, hrest⟩ := execAll_cons_cases h
    obtain ⟨cw₁, hrun₁⟩ := run_encode (hi i List.mem_cons_self) hu cw ((commandWords is).map .word ++ rest)
    obtain ⟨cw₂, hrun₂⟩ := ih (fun j hj => hi j (List.mem_cons_of_mem i hj)) hrest cw₁
    refine ⟨cw₂, fun k => ?_⟩
    have hwords : commandWords (i :: is) = encode i ++ commandWords is := List.flatMap_cons
    rw [hwords, List.map_append, List.append_assoc, List.length_append, Nat.add_assoc, hrun₁, hrun₂]

/-- Sending the words of commands comes to the same as executing them, but for the words left in CW. -/
theorem run_commandWords (hi : ∀ i ∈ is, i.WellFormed = true) (h0 : s.cwn = 0) (h : execAll is s = .next t) :
    ∃ cw, Host.Core.run core (commandWords is).length (s.withWords (commandWords is)) =
      .next (t.withAssembler cw 0 []) := by
  obtain ⟨cw, hrun⟩ := run_commandWords_append hi h s.cw []
  have hs : s.withWords (commandWords is) = s.withAssembler s.cw 0 ((commandWords is).map .word) := by rw [← h0]; rfl
  rw [List.append_nil] at hrun
  exact ⟨cw, hs ▸ hrun 0⟩

end Sys2Proof.Machine
end

section
/-! SUPPORT. The Encoder: what ENC and TBLOUT append, and that TBLOUT's words make another core's table the same
(43_encoder.md). -/

namespace Sys2Proof.Machine

variable {s : State} {x : Symbol}

/-! ### ENC (R150, R152) -/

theorem exec_enc_of_valid (hp : s.phase = .ready) (hx : (s.cbAt x).valid = true) :
    exec (.enc x) s = .next (s.emitBout (s.cbAt x).word.toList) := by
  have hl : legality (.enc x) s.phase = .ok := by rw [hp]; rfl
  rw [exec, execEnc, gate_ok hl, if_pos hx]

theorem exec_enc_of_invalid (hp : s.phase = .ready) (hx : (s.cbAt x).valid = false) :
    exec (.enc x) s = .next (s.raise .nocode (x.setWidth 16)) := by
  have hl : legality (.enc x) s.phase = .ok := by rw [hp]; rfl
  rw [exec, execEnc, gate_ok hl, hx]
  rfl

/-- Appending bits to BOUT changes nothing else. -/
theorem emitBout_frame (s : State) (bs : List Bool) :
    (s.emitBout bs).rsp = s.rsp ∧ (s.emitBout bs).sout = s.sout ∧ s.SameStatus (s.emitBout bs) ∧
      s.SameCounters (s.emitBout bs) ∧ s.SameStrings (s.emitBout bs) ∧ s.SameMemories (s.emitBout bs) ∧
      s.SameAssembler (s.emitBout bs) :=
  ⟨rfl, rfl, ⟨rfl, rfl, rfl, rfl, rfl, rfl⟩, ⟨rfl, rfl, rfl, rfl, rfl, rfl, rfl⟩, ⟨rfl, rfl⟩,
    ⟨⟨fun _ => rfl, fun _ => rfl⟩, ⟨fun _ => rfl, fun _ => rfl⟩, fun _ => rfl, fun _ => rfl⟩, fun _ => rfl, rfl, rfl⟩

/-- Settles O33: the bits appended are the codeword as a sequence, whose position i is bit i of BITS. -/
theorem encEmitsTheCodeword : Obligations.EncEmitsTheCodeword := by
  refine fun s x hp => ⟨fun hx => ?_, fun hx => ⟨_, exec_enc_of_invalid hp hx, raise_errorEntered s _ _⟩⟩
  refine ⟨_, _, exec_enc_of_valid hp hx, rfl, BitString.toList_length _, fun i hi => ?_, emitBout_frame s _⟩
  rw [List.getElem?_eq_getElem hi, BitString.getElem_toList]
  rfl

/-- ENC of one symbol after another appends one codeword after another (R152). -/
theorem execAll_encodeText {text : List Symbol} (hp : s.phase = .ready) (h : ∀ x ∈ text, (s.cbAt x).valid = true) :
    execAll (encodeText text) s = .next (s.emitBout (text.flatMap fun x => (s.cbAt x).word.toList)) := by
  induction text generalizing s with
  | nil => exact congrArg (fun bs => Host.Outcome.next { s with bout := bs }) (List.append_nil s.bout).symm
  | cons x text ih =>
    rw [List.forall_mem_cons] at h
    have htext := ih (s := s.emitBout (s.cbAt x).word.toList) hp h.2
    rw [encodeText, List.map_cons, execAll_cons_of_next (exec_enc_of_valid hp h.1), ← encodeText, htext,
      List.flatMap_cons]
    exact congrArg (fun bs => Host.Outcome.next { s with bout := bs }) (List.append_assoc ..)

/-- Settles O35: the run of the ENC commands appends the concatenation and nothing else. -/
theorem encodedSequenceIsTheConcatenation : Obligations.EncodedSequenceIsTheConcatenation :=
  fun s _ hp h => ⟨_, execAll_encodeText hp h, rfl, emitBout_frame s _⟩

/-! ### TBLOUT (R151) -/

theorem exec_tblout_of_ready (hp : s.phase = .ready) (hn : s.tsize.toNat ≤ 256) :
    exec .tblout s = .next (s.emitRsp s.tableRecord) := by
  have hl : legality .tblout s.phase = .ok := by rw [hp]; rfl
  rw [exec, execTblout, gate_ok hl]
  exact if_pos hn

/-- A row's ten words are those of the LDROW that reloads it. -/
theorem State.rowRecord_eq_encode (s : State) (i : Nat) : s.rowRecord i = encode (s.rowCommand i) := rfl

theorem State.reloadCommands_wellFormed (s : State) : ∀ i ∈ s.reloadCommands, i.WellFormed = true := by
  simp [State.reloadCommands, State.rowCommand, Instr.WellFormed]

/-- The record is the words of the reload commands. -/
theorem State.tableRecord_eq_commandWords (s : State) : s.tableRecord = commandWords s.reloadCommands := by
  rw [State.tableRecord, funext s.rowRecord_eq_encode, commandWords, State.reloadCommands, List.flatMap_cons,
    List.flatMap_map]
  rfl

theorem State.tableRecord_length (s : State) : s.tableRecord.length = 1 + 10 * s.tsize.toNat := by
  have hrow (i : Nat) : (s.rowRecord i).length = 10 := rfl
  simp [State.tableRecord, List.length_flatMap, hrow, Nat.add_comm, Nat.mul_comm]

/-- Settles O34: the record TBLOUT appends is the words of the reload commands. -/
theorem tbloutEmitsTheReloadCommands : Obligations.TbloutEmitsTheReloadCommands :=
  fun s hp hn => ⟨_, _, exec_tblout_of_ready hp hn, emitRsp_onlyAppends s _, s.tableRecord_eq_commandWords,
    s.tableRecord_length⟩

/-! ### The table reloaded (R151, 44_decoder.md R164) -/

theorem exec_ldsize_of_idle {n : Index} (hp : s.phase = .idle) (h0 : n ≠ 0#9) (hn : n.toNat ≤ 256) :
    exec (.ldsize n) s = .next (s.beginLoad n) := by
  have hl : legality (.ldsize n) s.phase = .ok := by rw [hp]; rfl
  rw [exec, execLdsize, gate_ok hl]
  exact if_neg (not_or.mpr ⟨h0, Nat.not_lt.mpr hn⟩)

theorem exec_ldrow_of_load {len : BitVec 8} {m : Word} {code : CodeBits} (hp : s.phase = .load)
    (he : s.rowError x len code = none) (hn : s.nrow.toNat < 256) :
    exec (.ldrow x len m code) s = .next (s.commitRow x len m code) := by
  have hl : legality (.ldrow x len m code) s.phase = .ok := by rw [hp]; rfl
  rw [exec, execLdrow, gate_ok hl, he]
  exact if_neg (Nat.not_le.mpr hn)

theorem State.commitRow_phase (s : State) (x : Symbol) (len : BitVec 8) (m : Word) (code : CodeBits) :
    (s.commitRow x len m code).phase = if s.nrow + 1#9 = s.tsize then .ready else s.phase := by
  rcases s.commitRow_cases x len m code with ⟨h, hc⟩ | ⟨h, hc⟩
  · rw [hc, if_pos h]; rfl
  · rw [hc, if_neg h]; rfl

/-- READY is all that the last row of a load adds to the table and the code book (44_decoder.md R163). -/
theorem State.commitRow_table (s : State) (x : Symbol) (len : BitVec 8) (m : Word) (code : CodeBits) :
    (s.commitRow x len m code).src = s.src ∧ (s.commitRow x len m code).tsize = s.tsize ∧
      (s.commitRow x len m code).nrow = s.nrow + 1#9 ∧ (s.storeRow x len m code).SameBook (s.commitRow x len m code) := by
  rcases s.commitRow_cases x len m code with ⟨-, hc⟩ | ⟨-, hc⟩
  · rw [hc]; exact ⟨rfl, rfl, rfl, fun _ => rfl, fun _ => rfl⟩
  · rw [hc]; exact ⟨rfl, rfl, rfl, fun _ => rfl, fun _ => rfl⟩

/-- Where TBL lists the symbols with a valid codeword, these are the symbols of the rows (10_state.md R46). -/
theorem State.valid_iff_row (h : s.rowSymbols.Perm s.validSymbols) (y : Symbol) :
    (s.cbAt y).valid = true ↔ ∃ i < s.nrow.toNat, (s.tblAt i).sym = y := by
  rw [← (perm_filter_allSymbols.mp h).2, State.rowSymbols]
  simp

theorem State.row_injective (h : s.rowSymbols.Perm s.validSymbols) {i j : Nat} (hi : i < s.nrow.toNat)
    (hj : j < s.nrow.toNat) (hij : (s.tblAt i).sym = (s.tblAt j).sym) : i = j :=
  List.inj_on_of_nodup_map (perm_filter_allSymbols.mp h).1 (List.mem_range.mpr hi) (List.mem_range.mpr hj) hij

/-- `v` holds the first `n` rows of the table and the code book of `s`, and is READY when these are all. -/
structure State.Reloaded (s : State) (n : Nat) (v : State) : Prop where
  inv : v.Inv
  phase : v.phase = if n < s.tsize.toNat then .load else .ready
  src : v.src = true
  tsize : v.tsize = s.tsize
  nrow : v.nrow.toNat = n
  rows : ∀ i < n, v.tblAt i = s.tblAt i
  code : ∀ y, (v.cbAt y).valid = true → v.cbAt y = s.cbAt y

namespace State.Reloaded

variable {v : State} {n : Nat}

/-- LDSIZE makes an IDLE core ready for the first row (44_decoder.md R160). -/
theorem beginLoad {u : State} (hs : s.Inv) (hp : s.phase = .ready) (hu : u.Inv) (hup : u.phase = .idle) :
    exec (.ldsize s.tsize) u = .next (u.beginLoad s.tsize) ∧ s.Reloaded 0 (u.beginLoad s.tsize) := by
  obtain ⟨⟨-, -, hpos, -⟩, -⟩ := hs.ready hp
  have h0 : s.tsize ≠ 0#9 := fun e => by rw [e] at hpos; cases hpos
  obtain ⟨-, -, -, hx⟩ := hu.idle hup
  exact ⟨exec_ldsize_of_idle hup h0 (hs.tsize_le hp), {
    inv := hu.beginLoad hup h0 (hs.tsize_le hp)
    phase := (if_pos hpos).symm
    src := rfl
    tsize := rfl
    nrow := rfl
    rows := nofun
    code := fun y hy => absurd (hy.symm.trans (hx y).2) nofun }⟩

/-- TBL of `v` lists the symbols with a valid codeword in `v`. -/
theorem rowSymbols_perm (h : s.Reloaded n v) : v.rowSymbols.Perm v.validSymbols := by
  have hphase := h.phase
  split at hphase
  · obtain ⟨-, -, -, -, hrows⟩ := h.inv.load hphase
    exact hrows
  · obtain ⟨⟨-, -, -, hrows⟩, -⟩ := h.inv.ready hphase
    exact hrows

/-- The symbols with a codeword in `v` are those of the first `n` rows of `s`. -/
theorem valid_iff (h : s.Reloaded n v) (y : Symbol) : (v.cbAt y).valid = true ↔ ∃ i < n, (s.tblAt i).sym = y := by
  rw [State.valid_iff_row h.rowSymbols_perm, h.nrow]
  exact exists_congr fun i => and_congr_right fun hi => by rw [h.rows i hi]

/-- The next row of `s` passes the checks of 44_decoder.md R162. -/
theorem rowError_none (hs : s.Inv) (hp : s.phase = .ready) (h : s.Reloaded n v) (hn : n < s.tsize.toNat) :
    v.rowError (s.tblAt n).sym (s.cbAt (s.tblAt n).sym).word.len (s.cbAt (s.tblAt n).sym).word.bits = none := by
  obtain ⟨⟨-, hnrow, -, hrows⟩, -⟩ := hs.ready hp
  rw [← hnrow] at hn
  have hvalid := (State.valid_iff_row hrows _).mpr ⟨n, hn, rfl⟩
  obtain ⟨⟨hlen, hstored⟩, hfree⟩ := hs.prefixFree _ hvalid
  have hnew : (v.cbAt (s.tblAt n).sym).valid = false := by
    rw [Bool.eq_false_iff, Ne, h.valid_iff]
    rintro ⟨i, hi, hsym⟩
    exact hi.ne (State.row_injective hrows (hi.trans hn) hn hsym)
  refine (Machine.rowError_none ..).mpr ⟨hlen, by simpa [BitString.stored] using hstored, hnew,
    (leastSymbol_none _).mpr fun y => ?_⟩
  cases hy : (v.cbAt y).valid with
  | false => rfl
  | true =>
    have hne : (s.tblAt n).sym ≠ y := fun e => by rw [e, hy] at hnew; cases hnew
    have hword := h.code y hy
    rw [Bool.true_and, BitString.prefixRelated_comm, hword]
    exact hfree y (hword ▸ hy) hne

/-- LDROW of the next row of `s` makes one row more. -/
theorem loadRow (hs : s.Inv) (hp : s.phase = .ready) (h : s.Reloaded n v) (hn : n < s.tsize.toNat) :
    ∃ v', exec (s.rowCommand n) v = .next v' ∧ s.Reloaded (n + 1) v' := by
  have hload : v.phase = .load := h.phase.trans (if_pos hn)
  have herr := h.rowError_none hs hp hn
  have hle := hs.tsize_le hp
  have hsucc : (v.nrow + 1#9).toNat = n + 1 := by
    simp only [BitVec.toNat_add, h.nrow, BitVec.toNat_ofNat]
    omega
  obtain ⟨⟨-, hnrow, -, hrows⟩, -⟩ := hs.ready hp
  obtain ⟨hsrc, htsize, hnrow', htbl, hcb⟩ := v.commitRow_table (s.tblAt n).sym
    (s.cbAt (s.tblAt n).sym).word.len (s.tblAt n).metaWord (s.cbAt (s.tblAt n).sym).word.bits
  refine ⟨_, exec_ldrow_of_load hload herr (h.nrow ▸ hn.trans_le hle), {
    inv := h.inv.commitRow hload herr
    phase := ?_
    src := hsrc.trans h.src
    tsize := htsize.trans h.tsize
    nrow := by rw [hnrow', hsucc]
    rows := fun i hi => ?_
    code := fun y hy => ?_ }⟩
  · have hlast : v.nrow + 1#9 = v.tsize ↔ ¬ n + 1 < s.tsize.toNat := by
      rw [← BitVec.toNat_inj, hsucc, h.tsize]; omega
    rw [State.commitRow_phase, hload, if_congr hlast rfl rfl, ite_not]
  · rw [htbl, State.storeRow_tblAt, h.nrow]
    rcases Nat.lt_succ_iff_lt_or_eq.mp hi with hlt | rfl
    · rw [if_neg hlt.ne', h.rows i hlt]
    · exact if_pos rfl
  · rw [hcb, State.storeRow_cbAt] at hy ⊢
    by_cases hxy : (s.tblAt n).sym = y
    · have hvalid : (s.cbAt y).valid = true := (State.valid_iff_row hrows y).mpr ⟨n, hnrow ▸ hn, hxy⟩
      rw [if_pos hxy, hxy, ← hvalid]
      rfl
    · rw [if_neg hxy] at hy ⊢
      exact h.code y hy

end State.Reloaded

/-- The reload commands of `s` make its table and its code book in any core in IDLE. -/
theorem execAll_reloadCommands {u : State} (hs : s.Inv) (hp : s.phase = .ready) (hu : u.Inv) (hup : u.phase = .idle) :
    ∃ v, execAll s.reloadCommands u = .next v ∧ s.Reloaded s.tsize.toNat v := by
  obtain ⟨hsize, hfirst⟩ := State.Reloaded.beginLoad hs hp hu hup
  rw [State.reloadCommands, execAll_cons_of_next hsize]
  have hrows : ∀ n ≤ s.tsize.toNat,
      ∃ v, execAll ((List.range n).map s.rowCommand) (u.beginLoad s.tsize) = .next v ∧ s.Reloaded n v := by
    intro n hn
    induction n with
    | zero => exact ⟨_, rfl, hfirst⟩
    | succ n ih =>
      obtain ⟨v, hv, hreloaded⟩ := ih (Nat.le_of_succ_le hn)
      obtain ⟨v', hv', hreloaded'⟩ := hreloaded.loadRow hs hp hn
      refine ⟨v', ?_, hreloaded'⟩
      rw [List.range_succ, List.map_append, execAll_append hv, List.map_singleton, execAll_singleton, hv']
  exact hrows _ le_rfl

/-- Settles O44: the words on the port come to the same as the commands, and these reload one row after another. -/
theorem tableRecordReloads : Obligations.TableRecordReloads := by
  intro s u hs hp hu hup h0
  obtain ⟨v, hexec, h⟩ := execAll_reloadCommands hs hp hu hup
  obtain ⟨cw, hrun⟩ := run_commandWords s.reloadCommands_wellFormed h0 hexec
  have hready : v.phase = .ready := h.phase.trans (if_neg (lt_irrefl _))
  obtain ⟨-, hclear, -⟩ := h.inv.error
  obtain ⟨herr, -⟩ := hclear (by rw [hready]; exact nofun)
  obtain ⟨⟨-, hnrow, -, hrows⟩, -⟩ := hs.ready hp
  have hvalid (x : Symbol) : (v.cbAt x).valid = true ↔ (s.cbAt x).valid = true := by
    rw [h.valid_iff, State.valid_iff_row hrows, hnrow]
  refine ⟨_, hrun, hready, h.src, herr, h.tsize, ?_, rfl, h.rows,
    fun x => ⟨Bool.eq_iff_iff.mpr (hvalid x), fun hx => ?_⟩⟩
  · exact BitVec.eq_of_toNat_eq (h.nrow.trans (by rw [hnrow]))
  · exact congrArg Code.word (h.code x ((hvalid x).mpr hx))

end Sys2Proof.Machine
end

section
/-! SUPPORT. The Decoder: what LDSIZE, LDROW, DBIT and DEND do in each phase, and what a prefix-free code book matches
(44_decoder.md R160 to R170). -/

namespace Sys2Proof.Machine

variable {s t : State} {i : Instr} {p : Phase} {e : ErrorKind} {x y : Symbol}

/-! ### The cells of the legality matrix (60_exceptions.md R212) -/

/-- Every command is its own rule behind the gate of R212. -/
theorem exec_eq_gate (i : Instr) (s : State) : ∃ rule, exec i s = gate i s rule := by
  cases i <;> simp only [exec, execNop, execClear, execRdreg, execSym, execRdcnt, execBuild, execRdnode, execRdcode,
    execEnc, execTblout, execLdsize, execLdrow, execDbit, execDend] <;> exact ⟨_, rfl⟩

/-- Where the matrix of R212 has an error, the command raises it. -/
theorem raises_of_legality {info : BitVec 16} (hp : s.phase = p) (h : legality i p = .error e)
    (hinfo : phaseErrorInfo e (opcode i) p = info) : s.Raises i e info := by
  subst hp hinfo
  obtain ⟨rule, hgate⟩ := exec_eq_gate i s
  exact ⟨_, hgate.trans (gate_error h), raise_errorEntered s _ _⟩

/-- Where the matrix of R212 has a drop, the command does nothing (R198). -/
theorem exec_of_drop (hp : s.phase = p) (h : legality i p = .drop) : exec i s = .next s := by
  subst hp
  obtain ⟨rule, hgate⟩ := exec_eq_gate i s
  exact hgate.trans (gate_drop h)

/-! ### LDSIZE (R160) -/

theorem place_zero {n : Nat} (w : Nat) (v : BitVec n) : place w v 0 = v.setWidth w := BitVec.shiftLeft_zero _

theorem encode_ldsize (n : Index) : encode (.ldsize n) = [0x40000000#32 ||| n.setWidth 32] := by
  rw [encode, headerI, place_zero]
  rfl

theorem exec_ldsize_of_bad_size {n : Index} (hp : s.phase = .idle) (hn : n.toNat = 0 ∨ 256 < n.toNat) :
    exec (.ldsize n) s = .next (s.raise .tsize (n.setWidth 16)) := by
  have hl : legality (.ldsize n) s.phase = .ok := by rw [hp]; rfl
  rw [exec, execLdsize, gate_ok hl]
  exact if_pos (hn.imp_left fun h => BitVec.eq_of_toNat_eq h)

/-- Settles O36: in IDLE the size decides, in every other phase the legality matrix does. -/
theorem ldsizeBeginsALoad : Obligations.LdsizeBeginsALoad := by
  refine fun s n => ⟨encode_ldsize n, fun hp h1 hn => ?_, fun hp hn => ?_, ?_, ?_, ?_, ?_⟩
  · have h0 : n ≠ 0#9 := fun h => by rw [h] at h1; cases h1
    exact ⟨_, exec_ldsize_of_idle hp h0 hn, ⟨rfl, rfl, rfl, rfl⟩, ⟨rfl, rfl, rfl, rfl⟩, ⟨rfl, rfl, rfl, rfl, rfl⟩,
      ⟨rfl, rfl⟩, ⟨⟨fun _ => rfl, fun _ => rfl⟩, ⟨fun _ => rfl, fun _ => rfl⟩, fun _ => rfl, fun _ => rfl⟩,
      ⟨rfl, rfl, rfl⟩, fun _ => rfl, rfl, rfl⟩
  · exact ⟨_, exec_ldsize_of_bad_size hp hn, raise_errorEntered s _ _⟩
  · exact fun hp => raises_of_legality hp rfl (by rw [opcode]; rfl)
  · exact fun hp => raises_of_legality hp rfl (by rw [opcode]; rfl)
  · exact fun hp => raises_of_legality hp rfl (by rw [opcode]; rfl)
  · exact fun hp => exec_of_drop hp rfl

/-! ### The checks of LDROW (R162) -/

section
variable {len : BitVec 8} {m : Word} {code : CodeBits}

theorem infoPair_eq (hi lo : BitVec 8) : infoPair hi lo = hi.setWidth 16 <<< 8 ||| lo.setWidth 16 := by
  rw [infoPair, place, place_zero]

theorem hasStrayBits_iff : hasStrayBits len code = true ↔ ∃ i, len.toNat ≤ i ∧ i ≤ 255 ∧ code.getLsbD i = true := by
  simp only [hasStrayBits, List.any_eq_true, List.mem_range, Bool.and_eq_true, decide_eq_true_eq, Nat.lt_succ_iff]
  exact exists_congr fun i => and_left_comm

theorem no_strayBits_iff :
    hasStrayBits len code = false ↔ ∀ i, len.toNat ≤ i → i ≤ 255 → code.getLsbD i = false := by
  rw [← Bool.not_eq_true, hasStrayBits_iff]
  simp

theorem BitString.prefixRelated_iff (c d : BitString) :
    c.prefixRelated d = true ↔ c.toList <+: d.toList ∨ d.toList <+: c.toList := by
  rw [BitString.prefixRelated, Bool.or_eq_true, BitString.isPrefixOf_iff, BitString.isPrefixOf_iff]

/-- The symbol with the property that no smaller symbol has is the one found. -/
theorem leastSymbol_eq_some {q : Symbol → Bool} (hx : q x = true) (hmin : ∀ y : Symbol, y.toNat < x.toNat → q y = false) :
    leastSymbol q = some x := by
  cases h : leastSymbol q with
  | none => exact absurd (((leastSymbol_none q).mp h x).symm.trans hx) nofun
  | some y =>
    obtain ⟨hy, hleast⟩ := leastSymbol_some q y h
    rcases Nat.lt_trichotomy x.toNat y.toNat with hlt | heq | hgt
    · exact absurd ((hleast x hlt).symm.trans hx) nofun
    · rw [BitVec.eq_of_toNat_eq heq]
    · exact absurd ((hmin y hgt).symm.trans hy) nofun

/-- `t` has a codeword that is a prefix of the bit string `c`, or the other way round (R162 check 4). -/
def State.Collides (s : State) (c : BitString) (t : Symbol) : Prop :=
  (s.cbAt t).valid = true ∧ ((s.cbAt t).word.toList <+: c.toList ∨ c.toList <+: (s.cbAt t).word.toList)

theorem State.collides_iff (s : State) (c : BitString) (t : Symbol) :
    ((s.cbAt t).valid && (s.cbAt t).word.prefixRelated c) = true ↔ s.Collides c t := by
  rw [Bool.and_eq_true, BitString.prefixRelated_iff, State.Collides]

theorem exec_ldrow_raises {info : BitVec 16} (hp : s.phase = .load) (he : s.rowError x len code = some (e, info)) :
    s.Raises (.ldrow x len m code) e info := by
  have hl : legality (.ldrow x len m code) s.phase = .ok := by rw [hp]; rfl
  refine ⟨_, ?_, raise_errorEntered s _ _⟩
  rw [exec, execLdrow, gate_ok hl, he]

theorem State.rowError_of_empty (s : State) (x : Symbol) (code : CodeBits) (h0 : len = 0#8) :
    s.rowError x len code = some (.badrow, infoPair len x) := if_pos h0

theorem State.rowError_of_stray (s : State) (x : Symbol) (h0 : len ≠ 0#8) (h1 : hasStrayBits len code = true) :
    s.rowError x len code = some (.badrow, infoPair len x) := by
  rw [State.rowError, if_neg h0, if_pos h1]

theorem State.rowError_of_duplicate (h0 : len ≠ 0#8) (h1 : hasStrayBits len code = false)
    (hx : (s.cbAt x).valid = true) : s.rowError x len code = some (.dupsym, x.setWidth 16) := by
  rw [State.rowError, if_neg h0, if_neg (Bool.eq_false_iff.mp h1), if_pos hx]

theorem State.rowError_of_colliding (h0 : len ≠ 0#8) (h1 : hasStrayBits len code = false)
    (hx : (s.cbAt x).valid = false) (hy : s.collidingSymbol (rowCodeword len code) = some y) :
    s.rowError x len code = some (.collide, infoPair y x) := by
  rw [State.rowError, if_neg h0, if_neg (Bool.eq_false_iff.mp h1), if_neg (Bool.eq_false_iff.mp hx), hy]

/-- Settles O37: each clause gives the first check that fails, and that check raises its error. -/
theorem ldrowChecksInOrder : Obligations.LdrowChecksInOrder := by
  intro s x len m code hp
  simp only [← infoPair_eq]
  refine ⟨fun h0 => exec_ldrow_raises hp (s.rowError_of_empty x code h0),
    fun h0 hstray => exec_ldrow_raises hp (s.rowError_of_stray x h0 (hasStrayBits_iff.mpr hstray)),
    fun h0 hstray hx => exec_ldrow_raises hp (State.rowError_of_duplicate h0 (no_strayBits_iff.mpr hstray) hx),
    fun h0 hstray hx y hy hmin => exec_ldrow_raises hp
      (State.rowError_of_colliding h0 (no_strayBits_iff.mpr hstray) hx ?_)⟩
  exact leastSymbol_eq_some ((s.collides_iff _ y).mpr hy) fun u hu =>
    Bool.eq_false_iff.mpr fun h => hmin u hu ((s.collides_iff _ u).mp h)

/-! ### A row that passes the checks (R163) -/

/-- A stored row goes with READY and an empty buffer where it is the last, and with nothing else where it is not. -/
theorem State.commitRow_frame (s : State) (x : Symbol) (len : BitVec 8) (m : Word) (code : CodeBits) :
    ∃ phase cbValid buf,
      s.commitRow x len m code = { s.storeRow x len m code with phase := phase, cbValid := cbValid, buf := buf } ∧
      (s.nrow + 1#9 = s.tsize → phase = .ready ∧ cbValid = true ∧ buf = BitString.empty) ∧
      (s.nrow + 1#9 ≠ s.tsize → phase = s.phase ∧ cbValid = s.cbValid ∧ buf = s.buf) := by
  rcases s.commitRow_cases x len m code with ⟨hlast, hc⟩ | ⟨hmore, hc⟩
  · exact ⟨_, _, _, hc, fun _ => ⟨rfl, rfl, rfl⟩, fun h => absurd hlast h⟩
  · exact ⟨_, _, _, hc, fun h => absurd h hmore, fun _ => ⟨rfl, rfl, rfl⟩⟩

/-- Settles O38: no check fails, so the row is stored, and whether it is the last decides STATE, CB_VALID and BUF. -/
theorem ldrowCommitsTheRow : Obligations.LdrowCommitsTheRow := by
  intro s x len m code hp hn h0 hstray hx hfree
  have he : s.rowError x len code = none := by
    refine (rowError_none ..).mpr ⟨h0, no_strayBits_iff.mpr hstray, hx, (leastSymbol_none _).mpr fun y => ?_⟩
    rw [Bool.eq_false_iff, Ne, State.collides_iff]
    rintro ⟨hy, hrel⟩
    exact hrel.elim (hfree y hy).1 (hfree y hy).2
  have hsucc : (s.nrow + 1#9).toNat = s.nrow.toNat + 1 := by
    simp only [BitVec.toNat_add, BitVec.toNat_ofNat]
    omega
  obtain ⟨phase, cbValid, buf, hc, hlast, hmore⟩ := s.commitRow_frame x len m code
  rw [Ne, ← BitVec.toNat_inj, hsucc] at hmore
  rw [← BitVec.toNat_inj, hsucc] at hlast
  rw [hp] at hmore
  refine ⟨_, exec_ldrow_of_load hp he hn, ?_⟩
  rw [hc]
  refine ⟨fun y => ?_, fun j => ?_, hsucc, hlast, hmore, ⟨rfl, rfl, rfl, rfl⟩, ⟨rfl, rfl, rfl, rfl, rfl, rfl⟩, rfl,
    ⟨fun _ => rfl, fun _ => rfl⟩, ⟨fun _ => rfl, fun _ => rfl⟩, ⟨rfl, rfl, rfl⟩, fun _ => rfl, rfl, rfl⟩
  · exact (s.storeRow_cbAt x len m code y).trans (if_congr eq_comm rfl rfl)
  · exact (s.storeRow_tblAt x len m code j).trans (if_congr eq_comm rfl rfl)

end

/-! ### DBIT (R167, R168, R170) -/

section
variable {c : BitString}

/-- A valid codeword that begins with a valid codeword is the same symbol's. -/
theorem State.PrefixFree.eq_of_prefix (h : s.PrefixFree) (hx : (s.cbAt x).valid = true) (hy : (s.cbAt y).valid = true)
    (hpre : (s.cbAt x).word.toList <+: (s.cbAt y).word.toList) : x = y := by
  by_contra hxy
  obtain ⟨-, hrel⟩ := h x hx
  exact absurd ((hrel y hy hxy).symm.trans ((BitString.prefixRelated_iff _ _).mpr (.inl hpre))) nofun

/-- The match finds a symbol only if its codeword is the bit string. -/
theorem State.matchSymbol_some (h : s.matchSymbol c = some x) : (s.cbAt x).valid = true ∧ (s.cbAt x).word = c := by
  obtain ⟨hx, -⟩ := leastSymbol_some _ x h
  simp only [Bool.and_eq_true, decide_eq_true_eq] at hx
  obtain ⟨⟨hvalid, hlen⟩, hbits⟩ := hx
  refine ⟨hvalid, ?_⟩
  cases hw : (s.cbAt x).word
  cases c
  rw [hw] at hlen hbits
  exact congrArg₂ BitString.mk hlen hbits

theorem State.matchSymbol_ne_none (hx : (s.cbAt x).valid = true) : s.matchSymbol (s.cbAt x).word ≠ none := by
  intro hnone
  have := (leastSymbol_none _).mp hnone x
  simp [hx] at this

/-- With a prefix-free code book the match finds the one symbol whose codeword is the bit sequence (R168). -/
theorem State.PrefixFree.matchSymbol_eq_some_iff (h : s.PrefixFree) (hc : c.stored = true) :
    s.matchSymbol c = some x ↔ (s.cbAt x).valid = true ∧ (s.cbAt x).word.toList = c.toList := by
  constructor
  · intro hm
    obtain ⟨hvalid, hword⟩ := State.matchSymbol_some hm
    exact ⟨hvalid, congrArg _ hword⟩
  · rintro ⟨hx, hlist⟩
    obtain ⟨⟨-, hstored⟩, -⟩ := h x hx
    obtain rfl := BitString.eq_of_toList hstored hc hlist
    obtain ⟨y, hm⟩ := Option.ne_none_iff_exists'.mp (State.matchSymbol_ne_none hx)
    obtain ⟨hy, hword⟩ := State.matchSymbol_some hm
    rw [hm, h.eq_of_prefix hy hx (by rw [hword])]

theorem exec_dbit_of_full {b : Bool} (hp : s.phase = .ready) (hl : s.buf.len = 255#8) :
    exec (.dbit b) s = .next (s.raise .bufovf 255#16) := by
  have hok : legality (.dbit b) s.phase = .ok := by rw [hp]; rfl
  rw [exec, execDbit, gate_ok hok]
  exact if_pos hl

/-- Settles O39: the match decides what becomes of the bits, and DBIT writes BUF and SOUT only. -/
theorem dbitAcceptsOneBit : Obligations.DbitAcceptsOneBit := by
  refine fun s b hp => ⟨fun hl => ⟨_, exec_dbit_of_full hp hl, raise_errorEntered s _ _⟩, fun hl hstored hfree => ?_⟩
  have hsnoc := BitString.snoc_toList s.buf b hl
  have hstored' := BitString.snoc_stored s.buf b hl hstored
  have hhit (x : Symbol) : s.matchSymbol (s.buf.snoc b) = some x ↔
      (s.cbAt x).valid = true ∧ (s.cbAt x).word.toList = s.buf.toList ++ [b] := by
    rw [hfree.matchSymbol_eq_some_iff hstored', hsnoc]
  refine ⟨_, exec_dbit_of_ready hp hl, ?_, ?_⟩
  · rcases s.acceptBit_cases b with ⟨x, hm, ha⟩ | ⟨hm, ha⟩
    · rw [ha]
      refine .inl ⟨x, (hhit x).mp hm, fun y hy => ?_, rfl, rfl⟩
      exact Option.some_inj.mp (((hhit y).mpr hy).symm.trans hm)
    · rw [ha]
      exact .inr ⟨fun x hx => absurd (((hhit x).mpr hx).symm.trans hm) nofun, rfl, hsnoc, hstored'⟩
  · obtain ⟨_, _, hframe⟩ := s.acceptBit_frame b
    rw [hframe]
    exact ⟨rfl, rfl, rfl, ⟨rfl, rfl, rfl, rfl, rfl, rfl⟩, ⟨rfl, rfl, rfl, rfl, rfl, rfl, rfl⟩,
      ⟨⟨fun _ => rfl, fun _ => rfl⟩, ⟨fun _ => rfl, fun _ => rfl⟩, fun _ => rfl, fun _ => rfl⟩, fun _ => rfl, rfl, rfl⟩

end

/-! ### DEND (R169) -/

theorem exec_dend_of_empty (hp : s.phase = .ready) (hb : s.buf.len = 0#8) : exec .dend s = .next s := by
  have hl : legality .dend s.phase = .ok := by rw [hp]; rfl
  rw [exec, execDend, gate_ok hl, if_pos hb]

theorem exec_dend_of_nonempty (hp : s.phase = .ready) (hb : s.buf.len ≠ 0#8) :
    exec .dend s = .next (s.raise .trunc (s.buf.len.setWidth 16)) := by
  have hl : legality .dend s.phase = .ok := by rw [hp]; rfl
  rw [exec, execDend, gate_ok hl, if_neg hb]

/-- Settles O40: in READY the buffer decides, in every other phase the legality matrix does. -/
theorem dendChecksTheBuffer : Obligations.DendChecksTheBuffer := by
  refine ⟨rfl, fun s => ⟨exec_dend_of_empty, fun hp hb => ⟨_, exec_dend_of_nonempty hp hb, raise_errorEntered s _ _⟩,
    ?_, fun hp => exec_of_drop hp rfl⟩⟩
  rintro (hp | hp | hp)
  · exact raises_of_legality hp rfl rfl
  · exact raises_of_legality hp rfl rfl
  · exact raises_of_legality hp rfl rfl

end Sys2Proof.Machine
end

section
/-! SUPPORT. The laws of coding: the decoder gives back what the encoder was given, on one core and from one core to
another (44_decoder.md R164, R171, R172). -/

namespace Sys2Proof.Machine

variable {s t b : State} {x y : Symbol} {text : List Symbol}

/-! ### Decoding a sequence of codewords (R171, R172) -/

/-- The codewords of a sequence of symbols, one after another (43_encoder.md R152). -/
def State.payload (s : State) (text : List Symbol) : List Bool := text.flatMap fun x => (s.cbAt x).word.toList

/-- A buffer that a codeword goes on from has room for one bit more. -/
theorem State.buf_len_ne_of_codeword {c : BitString} {bit : Bool} {bits : List Bool}
    (hw : c.toList = s.buf.toList ++ bit :: bits) : s.buf.len ≠ 255#8 := by
  intro hfull
  have hlen := congrArg List.length hw
  have hlt := c.len.isLt
  simp only [BitString.toList_length, List.length_append, List.length_cons, hfull, BitVec.toNat_ofNat] at hlen
  omega

/-- The bits that complete a codeword, given one after another, emit its symbol: before the last bit nothing matches, since
no codeword begins with another. -/
theorem State.PrefixFree.execAll_decodeBits_codeword (h : s.PrefixFree) (hp : s.phase = .ready)
    (hstored : s.buf.stored = true) (hx : (s.cbAt x).valid = true) {bits : List Bool} (hne : bits ≠ [])
    (hw : (s.cbAt x).word.toList = s.buf.toList ++ bits) :
    execAll (decodeBits bits) s = .next ({ s with buf := BitString.empty }.emitSout x) := by
  induction bits generalizing s with
  | nil => exact absurd rfl hne
  | cons bit bits ih =>
    have hl := State.buf_len_ne_of_codeword hw
    have hsnoc := BitString.snoc_toList s.buf bit hl
    have hstored' := BitString.snoc_stored s.buf bit hl hstored
    have hmatch (y : Symbol) := h.matchSymbol_eq_some_iff (x := y) hstored'
    rw [decodeBits, List.map_cons, execAll_cons_of_next (exec_dbit_of_ready hp hl), State.acceptBit]
    by_cases hlast : bits = []
    · subst hlast
      rw [(hmatch x).mpr ⟨hx, by rw [hw, hsnoc]⟩]
      rfl
    · have hnone : s.matchSymbol (s.buf.snoc bit) = none := by
        refine Option.eq_none_iff_forall_ne_some.mpr fun y hy => ?_
        obtain ⟨hvalid, hlist⟩ := (hmatch y).mp hy
        obtain rfl := h.eq_of_prefix hvalid hx ⟨bits, by simp [hlist, hsnoc, hw]⟩
        exact hlast (by simpa [hw, hsnoc] using hlist)
      rw [hnone]
      exact ih (s := { s with buf := s.buf.snoc bit }) h hp hstored' hx hlast (hw.trans (by simp [hsnoc]))

/-- The bits of one codeword after another, given to an empty buffer, emit one symbol after another (R172). -/
theorem State.PrefixFree.execAll_decodeBits_payload (h : s.PrefixFree) (hp : s.phase = .ready)
    (hb : s.buf = BitString.empty) (hv : ∀ x ∈ text, (s.cbAt x).valid = true) :
    execAll (decodeBits (s.payload text)) s = .next { s with sout := s.sout ++ text } := by
  induction text generalizing s with
  | nil => exact congrArg (fun out => Host.Outcome.next { s with sout := out }) (List.append_nil s.sout).symm
  | cons x text ih =>
    rw [List.forall_mem_cons] at hv
    obtain ⟨hx, htext⟩ := hv
    obtain ⟨⟨hlen, -⟩, -⟩ := h x hx
    have hne : (s.cbAt x).word.toList ≠ [] := fun e =>
      hlen (BitVec.eq_of_toNat_eq ((BitString.toList_length _).symm.trans (congrArg List.length e)))
    have hfirst := h.execAll_decodeBits_codeword hp (hb ▸ BitString.empty_stored) hx hne (by rw [hb]; rfl)
    have hrest := ih (s := { s with buf := BitString.empty }.emitSout x) h hp rfl htext
    rw [State.payload, List.flatMap_cons, decodeBits, List.map_append, ← decodeBits, execAll_append hfirst]
    refine hrest.trans ?_
    rw [← hb, State.emitSout_sout, List.append_assoc]
    rfl

/-- The payload and DEND emit the sequence and change nothing else (R169, R171). -/
theorem State.PrefixFree.execAll_expandBits_payload (h : s.PrefixFree) (hp : s.phase = .ready)
    (hb : s.buf = BitString.empty) (hv : ∀ x ∈ text, (s.cbAt x).valid = true) :
    execAll (expandBits (s.payload text)) s = .next { s with sout := s.sout ++ text } := by
  rw [expandBits, execAll_append (h.execAll_decodeBits_payload hp hb hv), execAll_singleton]
  exact exec_dend_of_empty hp (congrArg BitString.len hb)

/-- Settles O41: ENC appends the codewords of the sequence, and these decode to it. -/
theorem decodingInvertsEncoding : Obligations.DecodingInvertsEncoding := by
  intro s text hinv hp hlen hv
  obtain ⟨hstored, -⟩ := hinv.buffer
  have hb : s.buf = BitString.empty := BitString.eq_of_toList hstored BitString.empty_stored
    (List.eq_nil_of_length_eq_zero (by rw [BitString.toList_length, hlen]; rfl))
  refine ⟨_, { s.emitBout (s.payload text) with sout := s.sout ++ text }, execAll_encodeText hp hv, ?_, rfl, hp, hb⟩
  rw [State.emitBout_bout, List.drop_left]
  exact State.PrefixFree.execAll_expandBits_payload (s := s.emitBout (s.payload text)) hinv.prefixFree hp hb hv

/-! ### Counting and building over a sequence (40_frequency.md R110, 41_tree_build.md R120) -/

theorem State.mem_countSymbol_seenSymbols (h : s.CountingInv) (hn : s.cntAt x = 0#32 → s.nseen.toNat < 256) :
    y ∈ (s.countSymbol x).seenSymbols ↔ y ∈ s.seenSymbols ∨ y = x := by
  rw [State.countSymbol_seenSymbols hn]
  by_cases hx : s.cntAt x = 0#32
  · rw [if_pos hx, List.mem_append, List.mem_singleton]
  · rw [if_neg hx]
    exact ⟨.inl, fun hy => hy.elim id fun e => e ▸ (State.mem_seenSymbols h x).mpr hx⟩

/-- `t` is `s` after the symbols of `text` have been counted. -/
structure State.Counted (s : State) (text : List Symbol) (t : State) : Prop where
  inv : t.Inv
  phase : t.phase = .idle ∨ t.phase = .count
  seen : ∀ y, y ∈ t.seenSymbols ↔ y ∈ s.seenSymbols ∨ y ∈ text
  streams : s.SameStreams t

/-- Where TOTAL has room for the whole sequence, every SYM counts (R113). -/
theorem State.Inv.execAll_countText (h : s.Inv) (hp : s.phase = .idle ∨ s.phase = .count)
    (hroom : s.total.toNat + text.length < 2 ^ 32) :
    ∃ t, execAll (countText text) s = .next t ∧ s.Counted text t := by
  induction text generalizing s with
  | nil => exact ⟨s, rfl, h, hp, fun y => by simp, rfl, rfl, rfl⟩
  | cons x text ih =>
    rw [List.length_cons] at hroom
    have hm : s.total ≠ Config.cntMax := fun e => by
      rw [e, Config.cntMax, BitVec.toNat_ofNat] at hroom
      omega
    have hn (h0 : s.cntAt x = 0#32) := h.nseen_lt h0
    have htotal : (s.countSymbol x).total.toNat = s.total.toNat + 1 := toNat_add_one_of_ne_cntMax hm
    obtain ⟨t, hexec, ht⟩ := ih (h.countSymbol hp hm hn) (.inr rfl) (by omega)
    refine ⟨t, ?_, ht.inv, ht.phase, fun y => ?_, ht.streams⟩
    · rw [countText, List.map_cons, execAll_cons_of_next (exec_sym_of_count hp hm hn)]
      exact hexec
    · rw [ht.seen, State.mem_countSymbol_seenSymbols h.counting hn, List.mem_cons, or_assoc]

theorem two_le_length_of_ne {α : Type} {l : List α} {a b : α} (ha : a ∈ l) (hb : b ∈ l) (hab : a ≠ b) :
    2 ≤ l.length := by
  match l, ha, hb with
  | [c], ha, hb => exact absurd ((List.mem_singleton.mp ha).trans (List.mem_singleton.mp hb).symm) hab
  | _ :: _ :: _, _, _ => exact Nat.le_add_left 2 _

/-- `b` is `s` after a session was begun that counted `text` and built its code book. -/
structure State.BuiltOver (s : State) (text : List Symbol) (b : State) : Prop where
  inv : b.Inv
  phase : b.phase = .ready
  buf : b.buf = BitString.empty
  valid : ∀ x ∈ text, (b.cbAt x).valid = true
  streams : s.SameStreams b

/-- Two distinct symbols counted make a code book in which every counted symbol has a codeword. -/
theorem State.Counted.build {c : State} (h : s.Counted text c) (htwo : ∃ a ∈ text, ∃ b ∈ text, a ≠ b) :
    ∃ b, exec .build c = .next b ∧ s.BuiltOver text b := by
  have hseen (x : Symbol) (hx : x ∈ text) : x ∈ c.seenSymbols := (h.seen x).mpr (.inr hx)
  obtain ⟨x, hx, y, hy, hxy⟩ := htwo
  have h2 : 2 ≤ c.nseen.toNat := by
    have hlen := two_le_length_of_ne (hseen x hx) (hseen y hy) hxy
    rwa [State.seenSymbols, List.length_map, List.length_range] at hlen
  have hp : c.phase = .count := h.phase.resolve_left fun hidle => by
    obtain ⟨-, ⟨-, -, hnone, -⟩, -⟩ := h.inv.idle hidle
    rw [hnone] at h2
    cases h2
  obtain ⟨T, hbuilt⟩ := State.buildAll_built h.inv.counting (by omega) h.inv.nseen_le
  obtain ⟨_, _, _, _, _, _, _, hframe⟩ := c.buildAll_frame c.nseen.toNat
  refine ⟨_, exec_build_of_count hp h2 h.inv.nseen_le, {
    inv := h.inv.buildAll hp h2 h.inv.nseen_le
    phase := by rw [hframe]
    buf := by rw [hframe]
    valid := fun z hz => (hbuilt.valid z).mpr (c.countedRows_symbols ▸ hseen z hz)
    streams := by rw [hframe]; exact h.streams }⟩

/-- COMPRESS of a sequence with two distinct symbols builds its code book, appends the table to RSP and the codewords to
BOUT (30_encoding.md R97). -/
theorem State.Inv.execAll_compressText (h : s.Inv) (hlen : text.length < 2 ^ 32) (htwo : ∃ a ∈ text, ∃ b ∈ text, a ≠ b) :
    ∃ b, s.BuiltOver text b ∧
      execAll (compressText text) s = .next ((b.emitRsp b.tableRecord).emitBout (b.payload text)) := by
  obtain ⟨c, hcount, hc⟩ := h.clearSession.execAll_countText (text := text) (.inl rfl)
    (by rwa [State.clearSession_total, BitVec.toNat_ofNat, Nat.zero_mod, Nat.zero_add])
  obtain ⟨b, hbuild, hb⟩ := hc.build htwo
  have hstreams : s.SameStreams b := hb.streams
  refine ⟨b, { hb with streams := hstreams }, ?_⟩
  rw [compressText, List.append_assoc, List.append_assoc, List.singleton_append, execAll_cons_of_next (exec_clear_eq s),
    execAll_append hcount, List.cons_append, execAll_cons_of_next hbuild, List.singleton_append,
    execAll_cons_of_next (exec_tblout_of_ready hb.phase (hb.inv.tsize_le hb.phase))]
  exact execAll_encodeText (s := b.emitRsp b.tableRecord) hb.phase hb.valid

theorem State.Inv.err_of_ready (h : s.Inv) (hp : s.phase = .ready) : s.err = ErrReg.none := by
  obtain ⟨-, hnone, -⟩ := h.error
  exact (hnone (by rw [hp]; exact nofun)).1

/-- Settles O42: COMPRESS leaves the payload on BOUT and its code book in CB, which decodes it. -/
theorem sessionRoundTrip : Obligations.SessionRoundTrip := by
  intro s text hs hlen htwo
  obtain ⟨b, hb, hexec⟩ := hs.execAll_compressText hlen htwo
  obtain ⟨-, hbout, hsout⟩ := hb.streams
  refine ⟨_, { (b.emitRsp b.tableRecord).emitBout (b.payload text) with sout := b.sout ++ text }, hexec, ?_,
    congrArg (· ++ text) hsout, hb.phase, hb.buf, hb.inv.err_of_ready hb.phase⟩
  rw [State.emitBout_bout, State.emitRsp_bout, hbout, List.drop_left]
  exact State.PrefixFree.execAll_expandBits_payload (s := (b.emitRsp b.tableRecord).emitBout (b.payload text))
    hb.inv.prefixFree hb.phase hb.buf hb.valid

/-! ### From one core to another (R164, R171) -/

/-- What every command of a list keeps, the list keeps. -/
theorem execAll_induction {P : State → Prop} {is : List Instr}
    (hstep : ∀ i ∈ is, ∀ s t : State, P s → exec i s = .next t → P t) (h0 : P s) (h : execAll is s = .next t) : P t := by
  induction is generalizing s with
  | nil => cases h; exact h0
  | cons i is ih =>
    rw [List.forall_mem_cons] at hstep
    obtain ⟨u, hu, hrest⟩ := execAll_cons_cases h
    exact ih hstep.2 (hstep.1 _ _ h0 hu) hrest

/-- Only DBIT puts bits into BUF or emits on SOUT (44_decoder.md R167, 20_memory.md R68). -/
theorem State.Does.leaves_decoder {i : Instr} (h : s.Does i t) (hi : ∀ bit, i ≠ .dbit bit) :
    t.sout = s.sout ∧ (s.buf = BitString.empty → t.buf = BitString.empty) := by
  cases h with
  | stays => exact ⟨rfl, id⟩
  | raises => exact ⟨rfl, id⟩
  | clears => exact ⟨rfl, fun _ => rfl⟩
  | answers => exact ⟨rfl, id⟩
  | encodes => exact ⟨rfl, id⟩
  | counts => exact ⟨rfl, id⟩
  | builds =>
    obtain ⟨_, _, _, _, _, _, _, hb⟩ := s.buildAll_frame s.nseen.toNat
    rw [hb]
    exact ⟨rfl, fun _ => rfl⟩
  | beginsLoad => exact ⟨rfl, id⟩
  | loadsRow x len m code =>
    rcases s.commitRow_cases x len m code with ⟨-, hc⟩ | ⟨-, hc⟩
    · rw [hc]; exact ⟨rfl, fun _ => rfl⟩
    · rw [hc]; exact ⟨rfl, id⟩
  | takesBit bit => exact absurd rfl (hi bit)

/-- A reload leaves SOUT as it was and BUF empty. -/
theorem execAll_reloadCommands_leaves_decoder {u v : State} (hb : u.buf = BitString.empty)
    (h : execAll s.reloadCommands u = .next v) : v.sout = u.sout ∧ v.buf = BitString.empty := by
  have hi : ∀ i ∈ s.reloadCommands, ∀ bit, i ≠ .dbit bit := by simp [State.reloadCommands, State.rowCommand]
  refine execAll_induction (P := fun w => w.sout = u.sout ∧ w.buf = BitString.empty) (fun i him w w' hw hexec => ?_)
    ⟨rfl, hb⟩ h
  obtain ⟨hsout, hbuf⟩ := (State.Does.of_exec hexec).leaves_decoder (hi i him)
  exact ⟨hsout.trans hw.1, hbuf hw.2⟩

/-- A core with the whole table of `s` has the code book of `s` (R164). -/
theorem State.Reloaded.cbAt_of_valid {v : State} (h : s.Reloaded s.tsize.toNat v) (hs : s.Inv) (hp : s.phase = .ready)
    (hx : (s.cbAt x).valid = true) : v.cbAt x = s.cbAt x := by
  obtain ⟨⟨-, hnrow, -, hrows⟩, -⟩ := hs.ready hp
  exact h.code x ((h.valid_iff x).mpr (hnrow ▸ (State.valid_iff_row hrows x).mp hx))

theorem expandBits_wellFormed (bits : List Bool) : ∀ i ∈ expandBits bits, i.WellFormed = true := by
  simp only [expandBits, decodeBits, List.mem_append, List.mem_map, List.mem_singleton]
  rintro i (⟨bit, -, rfl⟩ | rfl)
  · rfl
  · rfl

/-- Settles O43: the words are those of the reload commands and of the payload's; the reload makes the first core's code
book, which decodes the payload. -/
theorem twoCoreRoundTrip : Obligations.TwoCoreRoundTrip := by
  intro s u text hs hu hup h0 hlen htwo
  obtain ⟨b, hb, hexec⟩ := hs.execAll_compressText hlen htwo
  obtain ⟨hrsp, hbout, -⟩ := hb.streams
  obtain ⟨-, -, ⟨-, -, hubuf⟩, -⟩ := hu.idle hup
  obtain ⟨v, hreload, hv⟩ := execAll_reloadCommands hb.inv hb.phase hu hup
  obtain ⟨hsout, hbuf⟩ := execAll_reloadCommands_leaves_decoder hubuf hreload
  have hready : v.phase = .ready := hv.phase.trans (if_neg (lt_irrefl _))
  have hbook (x : Symbol) (hx : x ∈ text) := hv.cbAt_of_valid hb.inv hb.phase (hb.valid x hx)
  have hpayload : b.payload text = v.payload text := List.flatMap_congr fun x hx => by rw [hbook x hx]
  have hdecode := hv.inv.prefixFree.execAll_expandBits_payload (text := text) hready hbuf
    fun x hx => by rw [hbook x hx, hb.valid x hx]
  obtain ⟨cw, hrun⟩ := run_commandWords
    (List.forall_mem_append.mpr ⟨b.reloadCommands_wellFormed, expandBits_wellFormed _⟩) h0
    ((execAll_append hreload _).trans hdecode)
  refine ⟨_, State.withAssembler { v with sout := v.sout ++ text } cw 0 [], hexec, ?_, congrArg (· ++ text) hsout,
    hready, hbuf, hv.inv.err_of_ready hready⟩
  rw [State.emitBout_rsp, State.emitRsp_rsp, hrsp, List.drop_left, State.emitBout_bout, State.emitRsp_bout, hbout,
    List.drop_left, b.tableRecord_eq_commandWords, hpayload, commandWords, commandWords, ← List.flatMap_append]
  exact hrun

end Sys2Proof.Machine
end

section
/-! SUPPORT. The system commands NOP, CLEAR and RDREG (45_system.md R180 to R183). -/

namespace Sys2Proof.Machine

variable {s : State}

/-! ### NOP, and a zero word inside an LDROW (R180) -/

theorem exec_nop_eq (s : State) : exec .nop s = .next s := by
  have hl : legality .nop s.phase = .ok := by cases s.phase <;> rfl
  exact gate_ok hl

/-- While words of an LDROW are held, the words it takes are ten whatever the next one is (30_encoding.md R80). -/
theorem State.lengthOf_firstWord_of_ldrow (hn : s.cwn ≠ 0) (ho : opcodeOf (s.cwAt 0) = 0x41#8) (w : Word) :
    lengthOf (s.firstWord w) = 10 := by
  rw [State.firstWord, if_neg hn, lengthOf, if_pos ho]

/-- Settles O19: the phase gate lets NOP pass; the first word held, not the zero word, says that ten words are taken. -/
theorem nopDoesNothing : Obligations.NopDoesNothing := by
  refine ⟨rfl, exec_nop_eq, fun s rest hp hn ho => ?_⟩
  have hlen := State.lengthOf_firstWord_of_ldrow hn ho 0#32
  refine ⟨fun hlt => ?_, fun h9 => ?_⟩
  · obtain ⟨_, hstep⟩ := step_of_held hp (by omega)
    exact ⟨_, hstep, s.sameCore_withAssembler _ _ _, (s.takeWord_cwAt _ _ _ _).trans (if_pos rfl), rfl⟩
  · rw [← h9]
    exact ⟨_, s.takeWord_takesWord 0#32 rest, step_of_complete hp (by omega)⟩

/-! ### CLEAR (R181, R182) -/

/-- Settles O20: what CLEAR writes are fields of `clearSession`, VALID going through every entry of CB. -/
theorem clearStartsANewSession : Obligations.ClearStartsANewSession := by
  refine ⟨rfl, fun s => ⟨_, exec_clear_eq s, ⟨rfl, rfl, rfl, rfl, rfl, rfl, rfl⟩, ⟨rfl, rfl, rfl, rfl, rfl, rfl, rfl⟩,
    ⟨rfl, rfl⟩, fun x => ?_, ⟨fun _ => rfl, fun _ => rfl, fun _ => rfl, fun _ => rfl⟩, ⟨rfl, rfl, rfl⟩,
    fun _ => rfl, rfl, rfl⟩⟩
  rw [State.clearSession_cbAt]
  exact ⟨s.clearSession_cntAt x, rfl, rfl⟩

/-- Settles O21: the entries that may differ from the reset state's are above fill counts of zero, in a tree that is not
finished, or in code-book entries that are not valid. -/
theorem clearIsResetButForStreams : Obligations.ClearIsResetButForStreams := by
  intro s
  have hvalid (x : Symbol) : (s.clearSession.cbAt x).valid = false := by rw [State.clearSession_cbAt]
  exact ⟨_, exec_clear_eq s,
    { status := ⟨rfl, rfl, rfl, rfl, rfl, rfl⟩
      counters := ⟨rfl, rfl, rfl, rfl, rfl, rfl, rfl⟩
      strings := ⟨rfl, rfl⟩
      streams := ⟨rfl, rfl, rfl⟩
      cwn := rfl
      port := rfl
      cnt := fun _ => rfl
      fseen := fun j hj => absurd hj (Nat.not_lt_zero j)
      tbl := fun i hi => absurd hi (Nat.not_lt_zero i)
      node := fun htree => absurd htree Bool.false_ne_true
      valid := fun x => (hvalid x).symm
      word := fun x hx => absurd ((hvalid x).symm.trans hx) Bool.false_ne_true
      cw := fun _ _ => rfl }⟩

/-! ### RDREG (R183, 10_state.md R36) -/

/-- The registers 0x10 to 0x17 are the eight words of BUF (10_state.md R35). -/
theorem State.readRegister_buf {r : Index} {k : Nat} (s : State) (hk : k < 8) (hr : r.toNat = 0x10 + k) :
    s.readRegister r = some (s.bufWord k) := by
  unfold State.readRegister
  rw [hr]
  interval_cases k <;> rfl

/-- Each number that names a register has a value. -/
theorem State.readRegister_of_namesRegister {r : Index} (s : State) (h : Index.NamesRegister r = true) :
    ∃ v, s.readRegister r = some v := by
  have hr : r.toNat ≤ 0x08 ∨ (0x10 ≤ r.toNat ∧ r.toNat ≤ 0x17) := by simpa [Index.NamesRegister] using h
  rcases hr with hlow | ⟨hge, hle⟩
  · unfold State.readRegister
    interval_cases r.toNat <;> exact ⟨_, rfl⟩
  · exact ⟨_, s.readRegister_buf (k := r.toNat - 0x10) (by omega) (by omega)⟩

/-- A register that zero-extends a counter or an index reads as its number. -/
theorem toNat_of_readRegister {r n : Index} {v : Word} (hn : s.readRegister r = some (n.setWidth 32))
    (hv : s.readRegister r = some v) : v.toNat = n.toNat := by
  obtain rfl : n.setWidth 32 = v := Option.some.inj (hn.symm.trans hv)
  exact BitVec.toNat_setWidth_of_le (by decide)

theorem exec_rdreg_of_some {r : Index} {v : Word} (hv : s.readRegister r = some v) :
    exec (.rdreg r) s = .next (s.emitRsp [v]) := by
  simp only [exec_rdreg_eq, hv]

/-- Settles O22: the number names a register, whose value is the one word appended; each clause is one row of R36. -/
theorem rdregReadsTheRegister : Obligations.RdregReadsTheRegister := by
  intro s r hr
  obtain ⟨v, hv⟩ := s.readRegister_of_namesRegister hr
  have hword {u : Word} (hu : s.readRegister r = some u) : v = u := Option.some.inj (hv.symm.trans hu)
  refine ⟨v, _, exec_rdreg_of_some hv, emitRsp_onlyAppends s [v], ?status, ?err, ?total, ?tsize, ?nseen, ?nrow, ?nnode,
    ?ntop, ?root, fun k hk hrk => hword (s.readRegister_buf hk hrk)⟩
  case status | err | total => exact fun e => hword (e ▸ rfl)
  case tsize | nseen | nrow | nnode | ntop | root => exact fun e => toNat_of_readRegister (e ▸ rfl) hv

end Sys2Proof.Machine
end

section
/-! SUPPORT. Errors and phases (60_exceptions.md): which command changes STATE (R211), that an error writes the error record
only (R197), what ERR lets through and what leaves it (R198, R199), and the words of the errors (R190, R212). -/

namespace Sys2Proof.Machine

variable {s t : State} {i : Instr} {ws : List Word}

/-! ### The phase changes of a command (R211) -/

/-- Settles O17: one case for each thing a command can do; the checks and the phase gate gave the side conditions. -/
theorem phaseTransitions : Obligations.PhaseTransitions := by
  intro i s t h hne
  cases State.Does.of_exec h with
  | stays => exact absurd rfl hne
  | raises _ e info =>
    exact .inr (.inr (.inr (.inr (.inr ⟨rfl, e, info, raise_errorEntered s e info⟩))))
  | clears => exact .inl ⟨rfl, rfl⟩
  | answers => exact absurd rfl hne
  | encodes => exact absurd rfl hne
  | counts x hp =>
    have hidle : s.phase = .idle := hp.resolve_right fun hc => hne ((State.countSymbol_phase s x).trans hc.symm)
    exact .inr (.inl ⟨x, rfl, hidle, rfl⟩)
  | builds hp h2 => exact .inr (.inr (.inl ⟨rfl, hp, h2, rfl⟩))
  | beginsLoad n hp h0 hn =>
    have hpos : n.toNat ≠ 0 := fun e => h0 (BitVec.eq_of_toNat_eq e)
    exact .inr (.inr (.inr (.inl ⟨n, rfl, by omega, hn, hp, rfl⟩)))
  | loadsRow x len m code hp =>
    rcases s.commitRow_cases x len m code with ⟨hlast, hc⟩ | ⟨_, hc⟩
    · rw [hc]
      exact .inr (.inr (.inr (.inr (.inl ⟨x, len, m, code, rfl, hp, hlast, rfl⟩))))
    · rw [hc] at hne
      exact absurd rfl hne
  | takesBit b =>
    obtain ⟨_, _, hb⟩ := s.acceptBit_frame b
    rw [hb] at hne
    exact absurd rfl hne

/-- A step that changes the phase took the reset input or ran a complete command: a word that is only held does not. -/
theorem step_cases_of_phase_ne (h : step s = .next t) (hne : t.phase ≠ s.phase) :
    (∃ rest, s.port = .reset :: rest ∧ t = { State.reset with port := rest }) ∨
    ∃ w rest, s.port = .word w :: rest ∧ runCommand (s.wordsWith w) (s.takeWord w rest 0) = .next t := by
  rcases step_cases h with ⟨_, rfl⟩ | hreset | ⟨w, rest, hp, hw⟩
  · exact absurd rfl hne
  · exact .inl hreset
  · rcases receiveWord_cases hw with ⟨_, hrun⟩ | ⟨_, rfl⟩
    · refine .inr ⟨w, rest, hp, ?_⟩
      rw [← s.takeWord_cwList w rest 0]
      exact hrun
    · exact absurd rfl hne

/-! ### Errors are precise (R197) -/

/-- Every row of R211 but the error's leads to another phase than ERR. -/
theorem errorEntered_of_exec (hs : s.phase ≠ .err) (h : exec i s = .next t) (ht : t.phase = .err) :
    ∃ e info, s.ErrorEntered e info t := by
  have hrow := phaseTransitions i s t h (by rw [ht]; exact hs.symm)
  simpa [ht] using hrow

/-- Legal or not in encoding, a complete command that leads to ERR has written the error record only. -/
theorem errorEntered_of_runCommand (hs : s.phase ≠ .err) (h : runCommand ws s = .next t) (ht : t.phase = .err) :
    ∃ e info, s.ErrorEntered e info t := by
  rcases runCommand_cases h with ⟨i, _, hi⟩ | ⟨_, _, hill⟩
  · exact errorEntered_of_exec hs hi ht
  · rw [illegalCommand_raises _ hs] at hill
    cases hill
    exact ⟨_, _, raise_errorEntered s _ _⟩

/-- Settles O12: of the rows of R211 only the error leads to ERR; reset leads to IDLE, and a word that is only held
changes no phase. -/
theorem errorsArePrecise : Obligations.ErrorsArePrecise := by
  refine ⟨fun i s t => errorEntered_of_exec, fun s t hs h ht => ?_⟩
  rcases step_cases_of_phase_ne h (by rw [ht]; exact hs.symm) with ⟨_, _, rfl⟩ | ⟨w, rest, hp, hrun⟩
  · cases ht
  · obtain ⟨e, info, hE⟩ := errorEntered_of_runCommand (s := s.takeWord w rest 0) hs hrun ht
    exact ⟨w, rest, _, e, info, hp, s.takeWord_takesWord w rest, hE⟩

/-! ### Phase ERR (R198, R199) -/

/-- Settles O15: the six commands pass the phase gate, the matrix drops the others, and an illegal encoding is discarded. -/
theorem errPhaseDiscardsWorkingCommands : Obligations.ErrPhaseDiscardsWorkingCommands := by
  refine fun s hs => ⟨⟨exec_nop_eq s, exec_clear_eq s, fun r hr => ?_, fun x => ?_, fun n => ?_, fun x => ?_⟩,
    ⟨fun x => ?_, ?_, fun x => ?_, ?_, fun n => ?_, fun x len m code => ?_, fun b => ?_, ?_⟩,
    fun w rest e hp hc hd => ?_⟩
  · obtain ⟨v, hv⟩ := s.readRegister_of_namesRegister hr
    exact ⟨v, _, hv, exec_rdreg_of_some hv, emitRsp_onlyAppends s _⟩
  · exact ⟨_, exec_rdcnt_eq x s, emitRsp_onlyAppends s _⟩
  · exact ⟨_, exec_rdnode_eq n s, emitRsp_onlyAppends s _⟩
  · exact ⟨_, exec_rdcode_eq x s, emitRsp_onlyAppends s _⟩
  iterate 8 exact exec_of_drop hs rfl
  obtain ⟨s', htakes, hdiscarded, -⟩ := step_of_illegal hp hc (by simp [hd])
  exact ⟨s', htakes, hdiscarded hs⟩

/-- Every row of R211 but CLEAR's and the error's starts in another phase than ERR. -/
theorem clear_of_exec_leaves_err (hs : s.phase = .err) (h : exec i s = .next t) (ht : t.phase ≠ .err) :
    i = .clear ∧ t = s.clearSession := by
  have hrow := phaseTransitions i s t h (by rwa [hs])
  obtain ⟨rfl, -⟩ : i = .clear ∧ t.phase = .idle := by simpa [hs, ht] using hrow
  rw [exec_clear_eq] at h
  cases h
  exact ⟨rfl, rfl⟩

/-- An illegal encoding is discarded in ERR, so what leaves ERR decodes to a CLEAR. -/
theorem clear_of_runCommand_leaves_err (hs : s.phase = .err) (h : runCommand ws s = .next t) (ht : t.phase ≠ .err) :
    decode ws = .ok .clear ∧ t = s.clearSession := by
  rcases runCommand_cases h with ⟨i, hd, hi⟩ | ⟨_, _, hill⟩
  · obtain ⟨rfl, rfl⟩ := clear_of_exec_leaves_err hs hi ht
    exact ⟨hd, rfl⟩
  · rw [illegalCommand_err _ hs] at hill
    cases hill
    exact absurd hs ht

/-- Settles O16: the step took the reset input or ran a command, and of the rows of R211 that start in ERR only CLEAR's leads
out of it. -/
theorem onlyClearAndResetLeaveErr : Obligations.OnlyClearAndResetLeaveErr := by
  intro s t hs h ht
  rcases step_cases_of_phase_ne h (by rwa [hs]) with ⟨rest, hp, rfl⟩ | ⟨w, rest, hp, hrun⟩
  · exact ⟨⟨rfl, rfl, rfl⟩, ⟨rfl, rfl, rfl, rfl, rfl, rfl, rfl, fun _ => ⟨rfl, rfl⟩⟩, .inl ⟨rest, hp⟩⟩
  · obtain ⟨hd, rfl⟩ := clear_of_runCommand_leaves_err (s := s.takeWord w rest 0) hs hrun ht
    exact ⟨⟨rfl, rfl, rfl⟩, ⟨rfl, rfl, rfl, rfl, rfl, rfl, rfl, fun x => ⟨rfl, by rw [State.clearSession_cbAt]⟩⟩,
      .inr ⟨w, rest, hp, hd⟩⟩

/-! ### The words of the errors (R190, 10_state.md R30) -/

/-- INFO stands above the fields of the error itself. -/
theorem errRecord_toWord (e : ErrorKind) (info : BitVec 16) :
    (errRecord e info).toWord = info.setWidth 32 <<< 16 ||| (errRecord e 0#16).toWord := by
  simp [errRecord, ErrReg.toWord, place, BitVec.or_assoc]

/-- Settles O13: INFO is ORed into the error's word with INFO = 0, which is the value of R190. -/
theorem errorWords : Obligations.ErrorWords :=
  ⟨rfl, fun info => ⟨errRecord_toWord .empty info, errRecord_toWord .single info, errRecord_toWord .cntovf info,
    errRecord_toWord .notable info, errRecord_toWord .tsize info, errRecord_toWord .badrow info,
    errRecord_toWord .dupsym info, errRecord_toWord .collide info, errRecord_toWord .trunc info,
    errRecord_toWord .bufovf info, errRecord_toWord .nocode info, errRecord_toWord .illcmd info,
    errRecord_toWord .seq info⟩⟩

/-! ### The error cells of the legality matrix (R212) -/

/-- Settles O18: each cell is the matrix's own; INFO is computed from the opcode and the phase. -/
theorem legalityMatrixErrors : Obligations.LegalityMatrixErrors := by
  intro s
  refine ⟨fun x => ⟨?_, ?_⟩, ⟨?_, ?_, ?_⟩, fun x => ⟨?_, ?_, ?_⟩, ⟨?_, ?_, ?_⟩, fun n => ⟨?_, ?_, ?_⟩,
    fun x len m code => ⟨?_, ?_, ?_⟩, fun b => ?_, ?_⟩
  iterate 17 exact fun hp => raises_of_legality hp rfl (by rw [opcode]; rfl)
  all_goals
    rintro (hp | hp | hp)
    iterate 3 exact raises_of_legality hp rfl (by rw [opcode]; rfl)

end Sys2Proof.Machine
end

section
/-! SUPPORT. Two states that differ in unspecified contents only (70_reset_and_hazards.md R220) answer every read alike,
and every effect of a command keeps them so. -/

namespace Sys2Proof.Machine

variable {a b : State}

/-- A fill count raised by one covers one entry more. -/
theorem lt_of_lt_add_one {n : Index} {j : Nat} (hj : j < (n + 1#9).toNat) (hne : n.toNat ≠ j) : j < n.toNat := by
  simp only [BitVec.toNat_add, BitVec.toNat_ofNat] at hj
  omega

namespace State.Indistinguishable

theorem refl (s : State) : s.Indistinguishable s where
  status := ⟨rfl, rfl, rfl, rfl, rfl, rfl⟩
  counters := ⟨rfl, rfl, rfl, rfl, rfl, rfl, rfl⟩
  strings := ⟨rfl, rfl⟩
  streams := ⟨rfl, rfl, rfl⟩
  cwn := rfl
  port := rfl
  cnt _ := rfl
  fseen _ _ := rfl
  tbl _ _ := rfl
  node _ _ _ := rfl
  valid _ := rfl
  word _ _ := rfl
  cw _ _ := rfl

/-! ### What is read alike -/

theorem phase (h : a.Indistinguishable b) : b.phase = a.phase :=
  have ⟨hphase, _⟩ := h.status
  hphase

theorem nseen (h : a.Indistinguishable b) : b.nseen = a.nseen :=
  have ⟨_, _, hnseen, _⟩ := h.counters
  hnseen

theorem nrow (h : a.Indistinguishable b) : b.nrow = a.nrow :=
  have ⟨_, _, _, hnrow, _⟩ := h.counters
  hnrow

theorem tsize (h : a.Indistinguishable b) : b.tsize = a.tsize :=
  have ⟨_, htsize, _⟩ := h.counters
  htsize

theorem buf (h : a.Indistinguishable b) : b.buf = a.buf :=
  have ⟨_, hbuf⟩ := h.strings
  hbuf

theorem readRegister (h : a.Indistinguishable b) : b.readRegister = a.readRegister := by
  obtain ⟨hphase, hcbValid, htreeValid, hsrc, hpstate, herr⟩ := h.status
  obtain ⟨htotal, htsize, hnseen, hnrow, hnnode, hntop, hroot⟩ := h.counters
  funext r
  simp only [State.readRegister, State.status, State.bufLen, State.bufNe, State.bufWord, h.buf, hphase, hcbValid,
    htreeValid, hsrc, hpstate, herr, htotal, htsize, hnseen, hnrow, hnnode, hntop, hroot]

theorem nodeWords (h : a.Indistinguishable b) (n : Index) : b.nodeWords n = a.nodeWords n := by
  obtain ⟨-, -, htree, -⟩ := h.status
  obtain ⟨-, -, -, -, hnnode, -⟩ := h.counters
  by_cases hn : a.treeValid = true ∧ n.toNat < a.nnode.toNat
  · rw [State.nodeWords_of_node hn, State.nodeWords_of_node (by rwa [htree, hnnode]), h.node hn.1 _ hn.2]
  · rw [State.nodeWords_of_no_node hn, State.nodeWords_of_no_node (by rwa [htree, hnnode])]

theorem codeRecord (h : a.Indistinguishable b) (x : Symbol) : b.codeRecord x = a.codeRecord x := by
  have hvalid := h.valid x
  cases hx : (a.cbAt x).valid with
  | true => rw [State.codeRecord_of_valid hx, State.codeRecord_of_valid (hvalid.trans hx), h.word x hx]
  | false => rw [State.codeRecord_of_invalid hx, State.codeRecord_of_invalid (hvalid.trans hx)]

/-- What TBLOUT shows is below the fill count and of valid codewords, since TBL lists the valid symbols in READY. -/
theorem tableRecord (h : a.Indistinguishable b) (ha : a.Inv) (hp : a.phase = .ready) :
    b.tableRecord = a.tableRecord := by
  obtain ⟨⟨-, hfull, -, hrows⟩, -⟩ := ha.ready hp
  have hrow (i : Nat) (hi : i ∈ List.range a.tsize.toNat) : b.rowRecord i = a.rowRecord i := by
    rw [List.mem_range, ← hfull] at hi
    simp only [State.rowRecord, h.tbl i hi, h.word _ ((State.valid_iff_row hrows _).mpr ⟨i, hi, rfl⟩)]
  rw [State.tableRecord, State.tableRecord, h.tsize, List.flatMap_congr hrow]

/-- A test of valid codewords finds the same symbol. -/
theorem leastSymbol_valid (h : a.Indistinguishable b) (test : BitString → Bool) :
    leastSymbol (fun x => (b.cbAt x).valid && test (b.cbAt x).word) =
      leastSymbol fun x => (a.cbAt x).valid && test (a.cbAt x).word := by
  refine congrArg leastSymbol (funext fun x => ?_)
  rw [h.valid]
  cases hx : (a.cbAt x).valid with
  | true => rw [h.word x hx]
  | false => rfl

theorem matchSymbol (h : a.Indistinguishable b) (c : BitString) : b.matchSymbol c = a.matchSymbol c := by
  simp only [State.matchSymbol, Bool.and_assoc]
  exact h.leastSymbol_valid fun w => decide (w.len = c.len) && decide (w.bits = c.bits)

theorem rowError (h : a.Indistinguishable b) (x : Symbol) (len : BitVec 8) (code : CodeBits) :
    b.rowError x len code = a.rowError x len code := by
  have hcollide : b.collidingSymbol (rowCodeword len code) = a.collidingSymbol (rowCodeword len code) :=
    h.leastSymbol_valid fun w => w.prefixRelated (rowCodeword len code)
  simp only [State.rowError, h.valid, hcollide]

/-! ### The effects of all commands but BUILD -/

theorem emitRsp (h : a.Indistinguishable b) {ws ws' : List Word} (hw : ws' = ws) :
    (a.emitRsp ws).Indistinguishable (b.emitRsp ws') :=
  have ⟨hrsp, hrest⟩ := h.streams
  { h with streams := ⟨congrArg₂ (· ++ ·) hrsp hw, hrest⟩ }

theorem emitBout (h : a.Indistinguishable b) {bs bs' : List Bool} (hb : bs' = bs) :
    (a.emitBout bs).Indistinguishable (b.emitBout bs') :=
  have ⟨hrsp, hbout, hsout⟩ := h.streams
  { h with streams := ⟨hrsp, congrArg₂ (· ++ ·) hbout hb, hsout⟩ }

theorem raise (h : a.Indistinguishable b) (e : ErrorKind) {info info' : BitVec 16} (hi : info' = info) :
    (a.raise e info).Indistinguishable (b.raise e info') :=
  have ⟨hphase, hcb, htree, hsrc, _, _⟩ := h.status
  { h with status := ⟨rfl, hcb, htree, hsrc, hphase, congrArg (errRecord e) hi⟩ }

theorem clearSession (h : a.Indistinguishable b) : a.clearSession.Indistinguishable b.clearSession :=
  have hvalid (s : State) (x : Symbol) : (s.clearSession.cbAt x).valid = false := by rw [State.clearSession_cbAt]
  { h with
    status := ⟨rfl, rfl, rfl, rfl, rfl, rfl⟩
    counters := ⟨rfl, rfl, rfl, rfl, rfl, rfl, rfl⟩
    strings := ⟨rfl, rfl⟩
    cnt := fun _ => rfl
    fseen := fun j hj => absurd hj (Nat.not_lt_zero j)
    tbl := fun i hi => absurd hi (Nat.not_lt_zero i)
    node := nofun
    valid := fun x => (hvalid b x).trans (hvalid a x).symm
    word := fun x hx => absurd ((hvalid a x).symm.trans hx) Bool.false_ne_true }

theorem countSymbol (h : a.Indistinguishable b) (x : Symbol) : (a.countSymbol x).Indistinguishable (b.countSymbol x) :=
  have ⟨_, hflags⟩ := h.status
  have ⟨htotal, htsize, hnseen, hrest⟩ := h.counters
  { h with
    status := ⟨rfl, hflags⟩
    counters := ⟨congrArg (· + 1#32) htotal, htsize,
      by rw [State.countSymbol_nseen, State.countSymbol_nseen, h.cnt, hnseen], hrest⟩
    cnt := fun y => by rw [State.countSymbol_cntAt, State.countSymbol_cntAt, h.cnt, h.cnt]
    fseen := fun j hj => by
      rw [State.countSymbol_fseenAt, State.countSymbol_fseenAt, h.cnt, hnseen]
      split
      · rfl
      · rename_i hold
        rw [State.countSymbol_nseen] at hj
        split at hj
        · rename_i h0
          exact h.fseen j (lt_of_lt_add_one hj fun e => hold ⟨h0, e⟩)
        · exact h.fseen j hj }

theorem beginLoad (h : a.Indistinguishable b) (n : Index) : (a.beginLoad n).Indistinguishable (b.beginLoad n) :=
  have ⟨_, hcb, htree, _, herr⟩ := h.status
  have ⟨htotal, _, hnseen, _, hrest⟩ := h.counters
  { h with
    status := ⟨rfl, hcb, htree, rfl, herr⟩
    counters := ⟨htotal, rfl, hnseen, rfl, hrest⟩
    tbl := fun i hi => absurd hi (Nat.not_lt_zero i) }

theorem becomeReady (h : a.Indistinguishable b) : a.becomeReady.Indistinguishable b.becomeReady :=
  have ⟨_, _, hflags⟩ := h.status
  have ⟨hacc, _⟩ := h.strings
  { h with status := ⟨rfl, rfl, hflags⟩, strings := ⟨hacc, rfl⟩ }

theorem storeRow (h : a.Indistinguishable b) (x : Symbol) (len : BitVec 8) (m : Word) (code : CodeBits) :
    (a.storeRow x len m code).Indistinguishable (b.storeRow x len m code) :=
  have ⟨htotal, htsize, hnseen, hnrow, hrest⟩ := h.counters
  { h with
    counters := ⟨htotal, htsize, hnseen, congrArg (· + 1#9) hnrow, hrest⟩
    tbl := fun i hi => by
      rw [State.storeRow_tblAt, State.storeRow_tblAt, hnrow]
      split
      · rfl
      · rename_i hold
        exact h.tbl i (lt_of_lt_add_one hi hold)
    valid := fun y => by
      rw [State.storeRow_cbAt, State.storeRow_cbAt, apply_ite Code.valid, apply_ite Code.valid, h.valid]
    word := fun y hy => by
      rw [State.storeRow_cbAt] at hy ⊢
      rw [State.storeRow_cbAt]
      split at hy
      · rename_i hxy
        rw [if_pos hxy, if_pos hxy]
      · rename_i hxy
        rw [if_neg hxy, if_neg hxy, h.word y hy] }

theorem commitRow (h : a.Indistinguishable b) (x : Symbol) (len : BitVec 8) (m : Word) (code : CodeBits) :
    (a.commitRow x len m code).Indistinguishable (b.commitRow x len m code) := by
  have hstore := h.storeRow x len m code
  simp only [State.commitRow, hstore.nrow, hstore.tsize]
  split
  · exact hstore.becomeReady
  · exact hstore

theorem acceptBit (h : a.Indistinguishable b) (bit : Bool) : (a.acceptBit bit).Indistinguishable (b.acceptBit bit) := by
  obtain ⟨hacc, -⟩ := h.strings
  obtain ⟨hrsp, hbout, hsout⟩ := h.streams
  simp only [State.acceptBit, h.buf, h.matchSymbol]
  split
  · exact { h with strings := ⟨hacc, rfl⟩, streams := ⟨hrsp, hbout, congrArg (· ++ _) hsout⟩ }
  · exact { h with strings := ⟨hacc, rfl⟩ }

/-- CWN is the fill count of CW: a word stored at it is the one entry more that is compared. -/
theorem takeWord (h : a.Indistinguishable b) (w : Word) (rest : List PortEvent) {n : Fin 10}
    (hn : n.val ≤ a.cwn.val + 1) : (a.takeWord w rest n).Indistinguishable (b.takeWord w rest n) :=
  { h with
    cwn := rfl
    port := rfl
    cw := fun k (hk : k < n.val) => by
      rw [State.takeWord_cwAt, State.takeWord_cwAt, h.cwn]
      split
      · rfl
      · exact h.cw k (by omega) }

end State.Indistinguishable

end Sys2Proof.Machine
end

section
/-! SUPPORT. BUILD on two states that differ in unspecified contents only: the sort, the seed, every merge step and the
walk read below their fill counts only (41_tree_build.md R122 to R130, 42_codebook.md R140). -/

namespace Sys2Proof.Machine

variable {a b : State} {k : Nat}

/-! ### The sort -/

namespace State.Indistinguishable

theorem rank (h : a.Indistinguishable b) (hk : k ≤ a.nseen.toNat) {j : Nat} (hj : j < k) :
    b.rank k j = a.rank k j := by
  refine List.countP_congr fun i hi => ?_
  have hi := List.mem_range.mp hi
  simp only [State.outranks, h.fseen i (by omega), h.fseen j (by omega), h.cnt]

theorem sortTable (h : a.Indistinguishable b) (hk : k ≤ a.nseen.toNat) (hk9 : k ≤ 256) :
    (a.sortTable k).Indistinguishable (b.sortTable k) :=
  have ⟨htotal, _, hnseen, _, hrest⟩ := h.counters
  { h with
    counters := ⟨htotal, rfl, hnseen, rfl, hrest⟩
    tbl := fun i hi => by
      rw [State.sortTable_nrow, toNat_ofNat9 hk9] at hi
      obtain ⟨j, hj, rfl⟩ := a.exists_rank_eq hi
      rw [State.sortTable_tblAt_rank hj, ← h.rank hk hj, State.sortTable_tblAt_rank hj, h.fseen j (by omega), h.cnt] }

end State.Indistinguishable

/-! ### The merge -/

/-- The sorted table of the counted symbols seeds a forest that every merge step keeps. -/
theorem State.sortTable_seedTree_sortedForest {s : State} (h : s.CountingInv) (h1 : 1 ≤ s.nseen.toNat)
    (hn : s.nseen.toNat ≤ 256) :
    ((s.sortTable s.nseen.toNat).seedTree s.nseen.toNat).SortedForest (s.sortedRows s.nseen.toNat) := by
  have hsum := State.sortTable_sumMetas h hn
  rw [State.sumMetas, State.sortTable_tsize, toNat_ofNat9 hn] at hsum
  exact State.seedTree_sortedForest h1 hn (fun _ _ => State.sortTable_descends) (hsum ▸ s.total.isLt)

/-- Indistinguishable states in the middle of BUILD: the roots in TOPS and the nodes made so far are the same too. -/
structure State.MergesAlike (a b : State) : Prop extends a.Indistinguishable b where
  tops : ∀ j, j < a.ntop.toNat → b.topsAt j = a.topsAt j
  made : ∀ n, n < a.nnode.toNat → b.nodeAt n = a.nodeAt n

/-- The seed writes every root and every node that it counts. -/
theorem State.Indistinguishable.seedTree (h : a.Indistinguishable b) (hk : k ≤ a.nrow.toNat) (hk9 : k ≤ 256) :
    (a.seedTree k).MergesAlike (b.seedTree k) := by
  obtain ⟨htotal, htsize, hnseen, hnrow, -, -, hroot⟩ := h.counters
  have hmade : ∀ n, n < (a.seedTree k).nnode.toNat → (b.seedTree k).nodeAt n = (a.seedTree k).nodeAt n := by
    intro n hn
    rw [State.seedTree_nnode, toNat_ofNat9 hk9] at hn
    rw [State.seedTree_nodeAt, State.seedTree_nodeAt, if_pos hn, if_pos hn, h.tbl n (by omega)]
  exact {
    h with
    counters := ⟨htotal, htsize, hnseen, hnrow, rfl, rfl, hroot⟩
    node := fun _ => hmade
    made := hmade
    tops := fun j hj => by
      rw [State.seedTree_ntop, toNat_ofNat9 hk9] at hj
      rw [State.seedTree_topsAt, State.seedTree_topsAt, if_pos hj, if_pos hj] }

/-- The place of the new node depends on the weights of the elements only. -/
theorem insertTop_congr {f g : Index → Word} {ts : List Index} (h : ∀ t ∈ ts, f t = g t) (w : Word) (n : Index) :
    insertTop f w n ts = insertTop g w n ts := by
  induction ts with
  | nil => rfl
  | cons t ts ih =>
    obtain ⟨ht, hts⟩ := List.forall_mem_cons.mp h
    rw [insertTop, insertTop, ht, ih hts]

namespace State.MergesAlike

theorem topsList (h : a.MergesAlike b) {n : Nat} (hn : n ≤ a.ntop.toNat) : b.topsList n = a.topsList n :=
  List.map_congr_left fun j hj => h.tops j ((List.mem_range.mp hj).trans_le hn)

/-- A merge step reads the roots and their nodes, and writes one node and the list of roots (41_tree_build.md R126 to
R129). -/
theorem mergeStep (h : a.MergesAlike b) (ha : a.CanMerge) (hb : b.CanMerge) : a.mergeStep.MergesAlike b.mergeStep := by
  obtain ⟨htotal, htsize, hnseen, hnrow, hnnode, hntop, hroot⟩ := h.counters
  have h2 := ha.two
  have hread (t : Index) (ht : t ∈ a.topsList a.ntop.toNat) : b.nodeAt t.toNat = a.nodeAt t.toNat :=
    h.made _ (ha.below t ht)
  rw [a.topsList_eq_append h2, List.forall_mem_append] at hread
  obtain ⟨hrest, hpair⟩ := hread
  have hmade (n : Nat) (hn : n ≤ a.nnode.toNat) : b.mergeStep.nodeAt n = a.mergeStep.nodeAt n := by
    rw [State.mergeStep_nodeAt, State.mergeStep_nodeAt, hnnode, hntop, h.tops _ (by omega), h.tops _ (by omega),
      hpair (a.topsAt (a.ntop.toNat - 2)) (by simp), hpair (a.topsAt (a.ntop.toNat - 1)) (by simp)]
    split
    · rfl
    · exact h.made n (by omega)
  have hnew : ∀ n, n < a.mergeStep.nnode.toNat → b.mergeStep.nodeAt n = a.mergeStep.nodeAt n := by
    rw [State.mergeStep_nnode_toNat ha.room]
    exact fun n hn => hmade n (Nat.le_of_lt_succ hn)
  have hntop' : b.mergeStep.ntop = a.mergeStep.ntop := congrArg (· - 1#9) hntop
  have htops : b.mergeStep.topsList a.mergeStep.ntop.toNat = a.mergeStep.topsList a.mergeStep.ntop.toNat := by
    rw [← hntop', hb.topsList_eq, hntop', ha.topsList_eq, hnnode, hntop, hmade _ le_rfl, h.topsList (by omega)]
    exact insertTop_congr (fun t ht => congrArg Node.w (hrest t ht)) _ _
  exact {
    h with
    counters := ⟨htotal, htsize, hnseen, hnrow, congrArg (· + 1#9) hnnode, hntop', hroot⟩
    node := fun _ => hnew
    made := hnew
    tops := fun j hj => List.map_inj_left.mp htops j (List.mem_range.mpr hj) }

theorem mergeLoop {rows rows' : List Row} (h : a.MergesAlike b) (ha : a.SortedForest rows) (hb : b.SortedForest rows')
    (fuel : Nat) : (a.mergeLoop fuel).MergesAlike (b.mergeLoop fuel) := by
  induction fuel generalizing a b with
  | zero => exact h
  | succ fuel ih =>
    obtain ⟨-, -, -, -, -, hntop, -⟩ := h.counters
    rw [State.mergeLoop, State.mergeLoop, hntop]
    split
    · rename_i h2
      have h2' : 1 < b.ntop.toNat := by rwa [hntop]
      exact ih (h.mergeStep (ha.canMerge h2) (hb.canMerge h2')) (ha.mergeStep h2) (hb.mergeStep h2')
    · exact h

/-- The one root left and the nodes below it are the finished tree. -/
theorem finishTree (h : a.MergesAlike b) (h1 : a.ntop.toNat = 1) : a.finishTree.Indistinguishable b.finishTree :=
  have ⟨hphase, hcb, _, hrest⟩ := h.status
  have ⟨htotal, htsize, hnseen, hnrow, hnnode, hntop, _⟩ := h.counters
  { h with
    status := ⟨hphase, hcb, rfl, hrest⟩
    counters := ⟨htotal, htsize, hnseen, hnrow, hnnode, hntop, h.tops 0 (by omega)⟩
    node := fun _ => h.made }

end State.MergesAlike

/-! ### The walk -/

namespace State.Indistinguishable

/-- The walk visits the nodes of the tree below ROOT, and makes valid the codewords that it writes only. -/
theorem walk {T : CodeTree} (h : a.Indistinguishable b) (htree : a.treeValid = true)
    (hroot : a.root.toNat < a.nnode.toNat) (hT : T.At a.node a.root) (hh : T.height ≤ 255)
    (hn : (T.rows.map Row.sym).Nodup) : a.walk.Indistinguishable b.walk := by
  obtain ⟨-, -, -, -, -, -, hsame⟩ := h.counters
  obtain ⟨-, hbuf⟩ := h.strings
  have hT' : T.At b.node b.root := hsame ▸ hT.congr fun m hm => h.node htree m (by omega)
  obtain ⟨hacc, hcodes, hvalid⟩ := State.walk_of_tree hT hh hn
  obtain ⟨hacc', hcodes', hvalid'⟩ := State.walk_of_tree hT' hh hn
  exact {
    h with
    strings := ⟨hacc'.trans hacc.symm, hbuf⟩
    valid := fun x => Bool.eq_iff_iff.mpr ((hvalid' x).trans (hvalid x).symm)
    word := fun x hx => by
      rw [hvalid, ← CodeTree.codes_symbols T BitString.empty] at hx
      obtain ⟨p, hp, rfl⟩ := List.mem_map.mp hx
      rw [hcodes p hp, hcodes' p hp] }

/-- BUILD over the symbols seen: each part reads what the part before it has made alike (41_tree_build.md R120). -/
theorem buildAll (h : a.Indistinguishable b) (ha : a.Inv) (hb : b.Inv) (h1 : 1 ≤ a.nseen.toNat) :
    (a.buildAll a.nseen.toNat).Indistinguishable (b.buildAll a.nseen.toNat) := by
  have hk := ha.nseen_le
  have hnrow : a.nseen.toNat ≤ (a.sortTable a.nseen.toNat).nrow.toNat := (toNat_ofNat9 hk).ge
  have hforest := State.sortTable_seedTree_sortedForest ha.counting h1 hk
  have hforest' := State.sortTable_seedTree_sortedForest hb.counting (h.nseen ▸ h1) hb.nseen_le
  rw [h.nseen] at hforest'
  have hmerged : (a.merged a.nseen.toNat).MergesAlike (b.merged a.nseen.toNat) :=
    ((h.sortTable le_rfl hk).seedTree hnrow hk).mergeLoop hforest hforest' 255
  obtain ⟨hmade, hone⟩ := a.merged_forest h1 hk
  obtain ⟨hroot, -⟩ := hmade.one_root hone
  obtain ⟨T, hT⟩ := State.buildAll_built ha.counting h1 hk
  have hsyms : (T.rows.map Row.sym).Nodup :=
    (hT.leaves.map _).nodup_iff.mpr (a.countedRows_symbols ▸ State.seenSymbols_nodup ha.counting)
  obtain ⟨-, hheight⟩ := hT.fits (a.length_countedRows.trans_le hk)
  have hwalk :=
    (hmerged.finishTree hone).walk rfl (Nat.lt_of_succ_le hroot.le) hT.tree (le_of_add_le_right hheight) hsyms
  exact hwalk.becomeReady

end State.Indistinguishable

end Sys2Proof.Machine
end

section
/-! SUPPORT. Every step takes two states that differ in unspecified contents only to two such states
(70_reset_and_hazards.md R220). -/

namespace Sys2Proof.Machine

variable {a b : State}

/-- Two outcomes that no command sequence tells apart: indistinguishable next states, or the same stop. -/
inductive OutcomesAlike : Host.Outcome State Fault Refusal → Host.Outcome State Fault Refusal → Prop
  | next {a b : State} (h : a.Indistinguishable b) : OutcomesAlike (.next a) (.next b)
  | fault (f : Fault) : OutcomesAlike (.fault f) (.fault f)

theorem OutcomesAlike.ite {c c' : Prop} [Decidable c] [Decidable c'] {r₁ r₂ r₁' r₂' : Host.Outcome State Fault Refusal}
    (hc : c' ↔ c) (h₁ : c → OutcomesAlike r₁ r₁') (h₂ : ¬ c → OutcomesAlike r₂ r₂') :
    OutcomesAlike (if c then r₁ else r₂) (if c' then r₁' else r₂') := by
  by_cases h : c
  · rw [if_pos h, if_pos (hc.mpr h)]; exact h₁ h
  · rw [if_neg h, if_neg (mt hc.mp h)]; exact h₂ h

namespace State.Indistinguishable

/-- The legality matrix reads STATE only (60_exceptions.md R212). -/
theorem gate_alike {i : Instr} {rule : State → Host.Outcome State Fault Refusal} (h : a.Indistinguishable b)
    (hrule : legality i a.phase = .ok → OutcomesAlike (rule a) (rule b)) :
    OutcomesAlike (gate i a rule) (gate i b rule) := by
  have hphase := h.phase
  cases hl : legality i a.phase with
  | ok => rw [gate_ok hl, gate_ok (hphase ▸ hl)]; exact hrule hl
  | error e => rw [gate_error hl, gate_error (hphase ▸ hl)]; exact .next (h.raise e (by rw [hphase]))
  | drop => rw [gate_drop hl, gate_drop (hphase ▸ hl)]; exact .next h

theorem illegalCommand_alike (h : a.Indistinguishable b) (info : BitVec 16) :
    OutcomesAlike (illegalCommand info a) (illegalCommand info b) := by
  by_cases hp : a.phase = .err
  · rw [illegalCommand_err info hp, illegalCommand_err info (h.phase.trans hp)]
    exact .next h
  · rw [illegalCommand_raises info hp, illegalCommand_raises info (h.phase.trans_ne hp)]
    exact .next (h.raise _ rfl)

theorem execSym_alike (h : a.Indistinguishable b) (x : Symbol) : OutcomesAlike (execSym x a) (execSym x b) := by
  obtain ⟨htotal, -⟩ := h.counters
  exact h.gate_alike fun _ => .ite (by rw [htotal]) (fun _ => .next (h.raise _ rfl)) fun _ =>
    .ite (by rw [h.cnt, h.nseen]) (fun _ => .fault _) fun _ => .next (h.countSymbol x)

theorem execBuild_alike (h : a.Indistinguishable b) (ha : a.Inv) (hb : b.Inv) :
    OutcomesAlike (execBuild a) (execBuild b) := by
  refine h.gate_alike fun _ => .ite (by rw [h.nseen]) (fun h1 => .next (h.raise _ ?_)) fun _ =>
    .ite (by rw [h.nseen]) (fun hk => .next ?_) fun _ => .fault _
  · rw [h.fseen 0 (by rw [h1]; decide)]
  · rw [h.nseen]
    exact h.buildAll ha hb (by omega)

theorem execEnc_alike (h : a.Indistinguishable b) (x : Symbol) : OutcomesAlike (execEnc x a) (execEnc x b) :=
  h.gate_alike fun _ => .ite (by rw [h.valid]) (fun hx => .next (h.emitBout (by rw [h.word x hx]))) fun _ =>
    .next (h.raise _ rfl)

theorem execTblout_alike (h : a.Indistinguishable b) (ha : a.Inv) : OutcomesAlike (execTblout a) (execTblout b) :=
  h.gate_alike fun hl => .ite (by rw [h.tsize])
    (fun _ => .next (h.emitRsp (h.tableRecord ha (phase_of_legality_tblout hl)))) fun _ => .fault _

theorem execLdsize_alike (h : a.Indistinguishable b) (n : Index) : OutcomesAlike (execLdsize n a) (execLdsize n b) :=
  h.gate_alike fun _ => .ite .rfl (fun _ => .next (h.raise _ rfl)) fun _ => .next (h.beginLoad n)

theorem execDbit_alike (h : a.Indistinguishable b) (bit : Bool) : OutcomesAlike (execDbit bit a) (execDbit bit b) :=
  h.gate_alike fun _ => .ite (by rw [h.buf]) (fun _ => .next (h.raise _ rfl)) fun _ => .next (h.acceptBit bit)

theorem execDend_alike (h : a.Indistinguishable b) : OutcomesAlike (execDend a) (execDend b) :=
  h.gate_alike fun _ => .ite (by rw [h.buf]) (fun _ => .next h) fun _ => .next (h.raise _ (by rw [h.buf]))

theorem execLdrow_alike (h : a.Indistinguishable b) (x : Symbol) (len : BitVec 8) (m : Word) (code : CodeBits) :
    OutcomesAlike (execLdrow x len m code a) (execLdrow x len m code b) := by
  refine h.gate_alike fun _ => ?_
  rw [h.rowError]
  split
  · exact .next (h.raise _ rfl)
  · exact .ite (by rw [h.nrow]) (fun _ => .fault _) fun _ => .next (h.commitRow x len m code)

theorem exec_alike (h : a.Indistinguishable b) (ha : a.Inv) (hb : b.Inv) (i : Instr) :
    OutcomesAlike (exec i a) (exec i b) := by
  cases i with
  | nop => rw [exec_nop_eq, exec_nop_eq]; exact .next h
  | clear => rw [exec_clear_eq, exec_clear_eq]; exact .next h.clearSession
  | rdreg r =>
    rw [exec_rdreg_eq, exec_rdreg_eq, h.readRegister]
    split
    · exact .next (h.emitRsp rfl)
    · exact h.illegalCommand_alike _
  | sym x => exact h.execSym_alike x
  | rdcnt x => rw [exec_rdcnt_eq, exec_rdcnt_eq]; exact .next (h.emitRsp (by rw [h.cnt]))
  | build => exact h.execBuild_alike ha hb
  | rdnode n => rw [exec_rdnode_eq, exec_rdnode_eq]; exact .next (h.emitRsp (h.nodeWords n))
  | rdcode x => rw [exec_rdcode_eq, exec_rdcode_eq]; exact .next (h.emitRsp (h.codeRecord x))
  | enc x => exact h.execEnc_alike x
  | tblout => exact h.execTblout_alike ha
  | ldsize n => exact h.execLdsize_alike n
  | ldrow x len m code => exact h.execLdrow_alike x len m code
  | dbit bit => exact h.execDbit_alike bit
  | dend => exact h.execDend_alike

theorem runCommand_alike (h : a.Indistinguishable b) (ha : a.Inv) (hb : b.Inv) (ws : List Word) :
    OutcomesAlike (runCommand ws a) (runCommand ws b) := by
  rw [runCommand, runCommand]
  split
  · exact h.exec_alike ha hb _
  · exact h.illegalCommand_alike _

/-! ### The port -/

theorem firstWord (h : a.Indistinguishable b) (w : Word) : b.firstWord w = a.firstWord w := by
  rw [State.firstWord, State.firstWord, h.cwn]
  split
  · rfl
  · rename_i h0
    exact h.cw 0 (Nat.pos_of_ne_zero fun e => h0 (Fin.ext e))

theorem wordsWith (h : a.Indistinguishable b) (w : Word) : b.wordsWith w = a.wordsWith w := by
  rw [State.wordsWith, State.wordsWith, h.cwn]
  exact congrArg (· ++ [w]) (List.map_congr_left fun k hk => h.cw k (List.mem_range.mp hk))

end State.Indistinguishable

/-- With the next word there are at most as many words held as the command takes (10_state.md R44). -/
theorem State.Inv.held_le (h : a.Inv) (w : Word) : a.cwn.val + 1 ≤ lengthOf (a.firstWord w) := by
  by_cases h0 : a.cwn = 0
  · rw [h0, lengthOf]
    split <;> decide
  · rw [State.lengthOf_firstWord_of_ldrow h0 (h.assembler h0)]
    exact a.cwn.isLt

/-- A word that arrives completes the same command in both states, or is held in both (30_encoding.md R81). -/
theorem State.Indistinguishable.step_word_alike {w : Word} {rest : List PortEvent} (h : a.Indistinguishable b)
    (ha : a.Inv) (hb : b.Inv) (hp : a.port = .word w :: rest) : OutcomesAlike (step a) (step b) := by
  have hp' := h.port.trans hp
  rcases (ha.held_le w).eq_or_lt with hc | hc
  · have hc' : b.cwn.val + 1 = lengthOf (b.firstWord w) := by rwa [h.cwn, h.firstWord]
    rw [step_of_complete hp hc, step_of_complete hp' hc', h.wordsWith]
    have hinv {s : State} (hs : s.Inv) : (s.takeWord w rest 0).Inv := hs.withAssembler _ 0 rest fun h0 => absurd rfl h0
    exact (h.takeWord w rest (Nat.zero_le _)).runCommand_alike (hinv ha) (hinv hb) _
  · have hc' : b.cwn.val + 1 < lengthOf (b.firstWord w) := by rwa [h.cwn, h.firstWord]
    obtain ⟨hn, hstep⟩ := step_of_held hp hc
    obtain ⟨hn', hstep'⟩ := step_of_held hp' hc'
    have hsame : (⟨b.cwn.val + 1, hn'⟩ : Fin 10) = ⟨a.cwn.val + 1, hn⟩ :=
      Fin.ext (congrArg (fun n : Fin 10 => n.val + 1) h.cwn)
    rw [hstep, hstep', hsame]
    exact .next (h.takeWord w rest le_rfl)

theorem step_of_reset {s : State} {rest : List PortEvent} (hp : s.port = .reset :: rest) :
    step s = .next { State.reset with port := rest } := by
  simp only [step, takeEvent, hp]

/-- Both states take the same event from the port. -/
theorem State.Indistinguishable.step_alike (h : a.Indistinguishable b) (ha : a.Inv) (hb : b.Inv) :
    OutcomesAlike (step a) (step b) := by
  cases hp : a.port with
  | nil =>
    obtain ⟨-, hwaits⟩ := stepRunsTheDecodedCommand
    rw [hwaits a hp, hwaits b (h.port.trans hp)]
    exact .next h
  | cons ev rest =>
    cases ev with
    | reset =>
      rw [step_of_reset hp, step_of_reset (h.port.trans hp)]
      exact .next (.refl _)
    | word w => exact h.step_word_alike ha hb hp

/-- Settles O56: by the event taken, the command and its effect; each reads only what the two states share, and what it
counts or makes valid it has written alike. -/
theorem unspecifiedContentsAreUnobservable : Obligations.UnspecifiedContentsAreUnobservable := by
  intro a b a' ha hb h hstep
  have halike := h.step_alike ha hb
  rw [hstep] at halike
  generalize step b = rb at halike
  cases halike with
  | next h' => exact ⟨_, rfl, h'⟩

end Sys2Proof.Machine
end
